-- ==== Sys2Proof/Word.lean ====
section
/-! DEFINITION. The words of the engine's bus and buffers, and the one piece of plain integer
arithmetic the spec names (`ceil_div`, 00_scope.md R8). -/

namespace Sys2Proof

/-- A bus word: every register and every transaction is 32 bits wide (R7 `XLEN`, R40). -/
abbrev Word := BitVec 32

/-- A byte of a buffer. -/
abbrev Byte := BitVec 8

/-- `ceil_div(a, b) = (a + b - 1) div b` (R8). -/
def ceilDiv (a b : Nat) : Nat := (a + b - 1) / b

end Sys2Proof
end

