-- ==== Sys2Proof/Syntax.lean ====
section
/-! DEFINITION. The commands of the engine, the analogue of instructions: one constructor for each
row of spec/opcode_table.json (30_encoding.md R57). No command has an operand field (R56): every
operand is in a fixed register or buffer (R17). -/

namespace Sys2Proof

/-- The five commands of R57. -/
inductive Instr where
  | nop
  | encode
  | decode
  | avgcol
  | aspect
  deriving DecidableEq, Repr

end Sys2Proof
end

