-- ==== Sys2Proof/WellFormed.lean ====
section
/-! DEFINITION. Which commands, and which words written to `CMD`, are well formed.

A command has no operand, so every term of `Instr` is well formed: what the spec checks is the
command WORD (format `C` of R56: an opcode of R57 in bits 7:0 and zero in bits 31:8). -/

namespace Sys2Proof

/-- Every command is well formed: none has a field that could be out of range (R56). -/
def Instr.wellFormed (i : Instr) : Bool :=
  match i with
  | .nop => true
  | .encode => true
  | .decode => true
  | .avgcol => true
  | .aspect => true

/-- Bits 31:8 of a command word, the field `zero` of format `C`, "must be written as 0" (R56). -/
def CommandWord.reservedBitsZero (w : Word) : Bool := w.extractLsb' 8 24 == 0#24

/-- Bits 7:0 of a command word name one of the five commands (R57). -/
def CommandWord.opcodeAssigned (w : Word) : Bool := decide ((w.extractLsb' 0 8).toNat ≤ 4)

/-- A command word that selects a command: both checks pass; every other word is reserved (R58). -/
def CommandWord.wellFormed (w : Word) : Bool :=
  CommandWord.reservedBitsZero w && CommandWord.opcodeAssigned w

end Sys2Proof
end

