-- ==== Sys2Proof/Decode.lean ====
section
/-! DEFINITION. The command word's decoder and encoder (30_encoding.md Part A, R56 to R58), and the
little-endian packing of four bytes into a bus word (20_memory.md R42), which the decoder needs to
read a command word from bytes. -/

namespace Sys2Proof

/-- Why bytes are no command word. None of these is a fault of the machine: a reserved word is a
command that completes with `ERR_BAD_CMD` (R58, R143). -/
inductive DecodeReject where
  /-- fewer than the four bytes of a command word -/
  | truncated
  /-- a bit of the field `zero`, bits 31:8, is set (R56) -/
  | reservedBits
  /-- an opcode of 0x05 to 0xFF (R58) -/
  | reservedOpcode (op : Byte)
  deriving DecidableEq, Repr

/-- Little-endian word of four bytes, lowest address first (R42). -/
def wordOfBytes (b0 b1 b2 b3 : Byte) : Word := b3 ++ b2 ++ b1 ++ b0

/-- Byte `k` (0 to 3) of a word, the byte at offset `a + k` of a word at offset `a` (R42). -/
def byteOfWord (w : Word) (k : Nat) : Byte := w.extractLsb' (8 * k) 8

/-- The four bytes of a word, lowest address first (R42). -/
def bytesOfWord (w : Word) : List Byte :=
  [byteOfWord w 0, byteOfWord w 1, byteOfWord w 2, byteOfWord w 3]

/-- Decoding a command word: "a word selects a command when all 32 bits match" (R57). -/
def decodeCommand (w : Word) : Except DecodeReject Instr :=
  if w.extractLsb' 8 24 = 0#24 then
    match (w.extractLsb' 0 8).toNat with
    | 0 => .ok .nop
    | 1 => .ok .encode
    | 2 => .ok .decode
    | 3 => .ok .avgcol
    | 4 => .ok .aspect
    | _ => .error (.reservedOpcode (w.extractLsb' 0 8))
  else .error .reservedBits

/-- The command a word selects, `none` for a reserved word (R58). -/
def commandOf (w : Word) : Option Instr :=
  match decodeCommand w with
  | .ok i => some i
  | .error _ => none

/-- Decoding at the head of a byte sequence in memory order: the command and the bytes after it. -/
def decodeBytes (bs : List Byte) : Except DecodeReject (Instr × List Byte) :=
  match bs with
  | b0 :: b1 :: b2 :: b3 :: rest =>
    match decodeCommand (wordOfBytes b0 b1 b2 b3) with
    | .ok i => .ok (i, rest)
    | .error r => .error r
  | _ => .error .truncated

/-- The word of a command, from the table of R57. -/
def encode (i : Instr) : Word :=
  match i with
  | .nop => 0x00000000#32
  | .encode => 0x00000001#32
  | .decode => 0x00000002#32
  | .avgcol => 0x00000003#32
  | .aspect => 0x00000004#32

/-- The bytes of a command's word in memory order (R42). -/
def encodeBytes (i : Instr) : List Byte := bytesOfWord (encode i)

/-- The command word of a table row: `nbits` bits, any bit above them 0. -/
def tableWord (nbits w : Nat) : Word := BitVec.ofNat 32 (w % 2 ^ nbits)

/-- What the decoder reads from a row of spec/opcode_table.json whose bits are `w`: the word is laid
out in memory order and given to `decodeBytes`. -/
def decodeTableWord (nbits w : Nat) : Option Instr :=
  match decodeBytes (bytesOfWord (tableWord nbits w)) with
  | .ok (i, _) => some i
  | .error _ => none

end Sys2Proof
end

