-- ==== Sys2Proof/Machine/Constants.lean ====
section
/-! DEFINITION. The constants the source fixes (00_scope.md R6), the capacities (R7), and the address
map of the slave window (20_memory.md R41), all as offsets from `BASE`. -/

namespace Sys2Proof.Machine

/-- `MAX_DIM`: the largest width and height ENCODE accepts (R6). -/
def maxDim : Nat := 100

/-- `LIMIT_ALPHA` 5 or `LIMIT_OPAQUE` 7: the luminance frequency limit (R6, R83, R111). -/
def limitOf (hasAlpha : Bool) : Nat := if hasAlpha then 5 else 7

/-- `MIN_L`: the floor of the luminance truncation bounds (R6, R84). -/
def minL : Nat := 3

/-- `PQ_N`: the truncation bound of P and Q on both axes (R6). -/
def pqN : Nat := 3

/-- `A_N`: the truncation bound of A on both axes (R6). -/
def aN : Nat := 5

/-- `OUT_MAX`: the longer side of the decoded image (R6). -/
def outMax : Nat := 32

/-- `HDR_LEN`: 5 header bytes, 6 with alpha (R6, R59, R105). -/
def hdrLen (hasAlpha : Bool) : Nat := if hasAlpha then 6 else 5

/-- `PIX_CAP`, `HASH_CAP`, `OUT_CAP` (R7). -/
def pixCap : Nat := 10000
def hashCap : Nat := 32
def outCap : Nat := 1024

/-- The constant `ID` reads as (R20). -/
def idValue : Word := 0x54480107#32

/-- Offsets of the buffers in the window (R41). -/
def hashBase : Nat := 0x40
def outBase : Nat := 0x1000
def pixBase : Nat := 0x10000

end Sys2Proof.Machine
end

