-- ==== Sys2Proof/Config.lean ====
section
/-! DEFINITION. The configuration of the engine: the numeric parameter `NUM` (00_scope.md R11) as a
structure, and the free values, constants with no body about which nothing can be proved.

The constants the source fixes (R6) and the capacities (R7) are in Machine/Constants.lean. -/

namespace Sys2Proof

/-- The numeric parameter `NUM` of R11: a scalar type `S` with the constants `0`, `1`, `pi`, the map
`ofInt`, `+ - * /`, `cos`, `abs`, `max`, `min`, the comparison `<` (`a > b` is `lt b a`), and
`round` to the integers (R12: half away from zero). `NUM` is an argument of the model (R7): the
units, the commands (`Machine.execWith`) and the machine (`Machine.stepWith`) are written over any
`Num`; `Machine.exec` and `Machine.step` are those on `Machine.Exact.num`, the reference instance of
R11. -/
structure Num (S : Type) where
  zero : S
  one : S
  pi : S
  ofInt : Int → S
  add : S → S → S
  sub : S → S → S
  mul : S → S → S
  div : S → S → S
  cos : S → S
  abs : S → S
  max : S → S → S
  min : S → S → S
  lt : S → S → Bool
  round : S → Int

/-- The byte at bus offset `a` of `PIX` or `OUT` after the reset numbered `epoch`, as long as nothing
has written it: "arbitrary initial data (a parameter of the reset state), never ... zero" (R38,
R166; assumption 3). It is the byte of one engine; another engine takes other numbers (R178,
assumption 16). A free value: the constant has no body. -/
opaque Config.resetByte (epoch a : Nat) : Byte

/-- `BASE`, the platform's bus address of the engine's window (R7): an open parameter, no rule
depends on it. It is the base of the one engine modelled; another engine has its own (R178), an
argument of `Machine.windowOffsetAt` (DESIGN CHOICE, assumption 9). A free value. -/
opaque Config.base : Nat

end Sys2Proof
end

