-- ==== Sys2Proof/Machine/State.lean ====
section
/-! DEFINITION. The state of one engine instance (10_state.md R15) and of its slave port, as plain
data, with the reasons a step can stop and the state after reset.

A register is a structure of its fields, so that a reserved bit has nowhere to hold a 1 ("they read
as zero and ignore writes", 10_state.md section 3); Machine/Registers.lean gives the word each
register reads as. The per-command scratch of R33 to R35 is local to the units, as R36 allows. -/

namespace Sys2Proof.Machine

/-- No rule of the spec stops the engine: a command error is a completion (R151), a bus fault is a
response (R158), and "the engine is never stuck" (R161, R175). So there is no fault to name: the type
has no constructor, and no step can answer one. Safe: nothing is hidden behind a stop. -/
inductive Fault where
  deriving DecidableEq, Repr

/-- Why an instruction has no meaning in this model. -/
inductive Refusal where
  /-- Raised by an arm of `exec` whose instruction has no meaning yet. Safe: the machine stops by
  name. No arm of Machine/Dispatch.lean raises it. -/
  | notModelled (mnemonic : String)
  deriving DecidableEq, Repr

/-- The outcome code of a command, `STATUS.ERR` (R152). "A model's error type has exactly the six
values 0 to 5" (93_implementation_defined.md U6). -/
inductive ErrCode where
  | ok
  | tooLarge
  | malformedLen
  | malformedGeom
  | emptyImage
  | badCmd
  deriving DecidableEq, Repr

/-- `STATUS` (R22): `BUSY` bit 0, `DONE` bit 1, `ERR` bits 7:4. -/
structure Status where
  busy : Bool
  done : Bool
  err : ErrCode
  deriving DecidableEq, Repr

/-- `GEOM` (R25): `LX` 2:0, `LY` 6:4, `HAS_ALPHA` 8, `IS_LANDSCAPE` 9, `NX_L` 14:12, `NY_L` 18:16. -/
structure Geom where
  lx : BitVec 3
  ly : BitVec 3
  hasAlpha : Bool
  isLandscape : Bool
  nxL : BitVec 3
  nyL : BitVec 3
  deriving DecidableEq, Repr

/-- `COUNTS` (R26): `AC_TOTAL` 5:0, `CNT_L` 12:8. -/
structure Counts where
  acTotal : BitVec 6
  cntL : BitVec 5
  deriving DecidableEq, Repr

/-- `OUT_DIM` (R27): `OUT_W` 5:0, `OUT_H` 13:8. -/
structure OutDim where
  w : BitVec 6
  h : BitVec 6
  deriving DecidableEq, Repr

/-- `ASPECT` (R29): `ASP_LX` 2:0, `ASP_LY` 6:4. -/
structure Aspect where
  lx : BitVec 3
  ly : BitVec 3
  deriving DecidableEq, Repr

/-- A pixel: four raw 8-bit members (R10, R30); also the fields of `AVG_RGBA` (R28). -/
structure Pixel where
  r : Byte
  g : Byte
  b : Byte
  a : Byte
  deriving DecidableEq, Repr

/-- A bus transaction (R40): `MemRead(addr, n)` or `MemWrite(addr, n, v)` of `n` bytes at the byte
offset `addr`, 20 bits wide, from `BASE`. Any width may be asked for; only 4 is legal (R45). -/
inductive Transaction where
  | read (addr : BitVec 20) (n : Nat)
  | write (addr : BitVec 20) (n : Nat) (v : Word)
  deriving DecidableEq, Repr

/-- The response to a transaction (R40). -/
inductive Response where
  | okay
  | error
  deriving DecidableEq, Repr

/-- What the port gives back for a completed transaction (R40): a word and a response for a read, a
response for a write. -/
inductive Reply where
  | read (resp : Response) (data : Word)
  | write (resp : Response)
  deriving DecidableEq, Repr

/-- Who moves at a step: the engine, the host's port, or the reset input (R166), which can be
asserted at any time (R168). `dropHeld` is the platform's choice for a transaction held at that
moment, "to complete or abandon" (R168, 93_implementation_defined.md U17). -/
inductive Turn where
  | engine
  | host
  | reset (dropHeld : Bool)
  deriving DecidableEq, Repr

/-- The engine's state and its port.

The first eleven fields are the engine's (R15): the hidden latch (R37), the registers (R22 to R29),
and the three buffers `HASH`, `OUT`, `PIX` (R30 to R32) as ONE memory of bytes by bus offset, in the
canonical form of `Memory.wf`. `ID` is a constant and no state (R20).

The last four are the model's own: `epoch` numbers the resets, so that each has its own free
buffer contents (assumption 3); `port` holds the host's transactions not yet completed, in the order
issued (R49, assumption 6); `turns` says which agent moves next, as plain data (empty: the engine
while it is busy, else the host; DESIGN CHOICE, assumption 5); `replies` holds what completed
transactions returned, latest first (assumption 6). -/
structure State where
  cmdLatch : Word
  status : Status
  width : BitVec 16
  height : BitVec 16
  hashLen : BitVec 6
  geom : Geom
  counts : Counts
  outDim : OutDim
  avgRgba : Pixel
  aspect : Aspect
  mem : List Host.Cell
  epoch : Nat
  port : List Transaction
  turns : List Turn
  replies : List Reply
  deriving DecidableEq, Repr

/-- The all-zero values of the result registers: their reset values (R38) and what a failed command
leaves (R155). -/
def Geom.zero : Geom := ⟨0, 0, false, false, 0, 0⟩
def Counts.zero : Counts := ⟨0, 0⟩
def OutDim.zero : OutDim := ⟨0, 0⟩
def Aspect.zero : Aspect := ⟨0, 0⟩
def Pixel.zero : Pixel := ⟨0, 0, 0, 0⟩

/-- The machine right after reset (R38, R166). `CMD_LATCH` is "unspecified and unread": zero here
(DESIGN CHOICE, assumption 2). Memory lists nothing: `HASH` reads zero, `PIX` and `OUT` read the free
values of reset number 0 (assumption 3). This is the reset state of ONE engine: that two engines (R178)
taken fresh from this one constant hold the same unwritten bytes is the model's, since the spec does not
relate their contents; a second engine is this state with another `epoch` (DESIGN CHOICE,
assumption 16). -/
def State.reset : State where
  cmdLatch := 0
  status := ⟨false, false, .ok⟩
  width := 0
  height := 0
  hashLen := 0
  geom := .zero
  counts := .zero
  outDim := .zero
  avgRgba := .zero
  aspect := .zero
  mem := []
  epoch := 0
  port := []
  turns := []
  replies := []

end Sys2Proof.Machine
end

