-- ==== Sys2Proof/Machine/Ops.lean ====
section
/-! DEFINITION. The operations over memory and registers that the meanings and the port share:
memory by bytes and by words, the field updates of State, the completion of a command (R144) and the
raising of a command error (R151, R155), which is this engine's whole exception mechanism (R159). -/

namespace Sys2Proof.Machine

/-! ## Memory: one list of (offset, byte) in canonical form -/

/-- The offsets of `HASH`, 0x40 to 0x5F (R41). -/
def Memory.inHash (a : Nat) : Bool := decide (hashBase ≤ a ∧ a < hashBase + hashCap)

/-- The offsets of `OUT`, 0x1000 to 0x1FFF (R41). -/
def Memory.inOut (a : Nat) : Bool := decide (outBase ≤ a ∧ a < outBase + 4 * outCap)

/-- The offsets of `PIX`, 0x10000 to 0x19C3F (R41). -/
def Memory.inPix (a : Nat) : Bool := decide (pixBase ≤ a ∧ a < pixBase + 4 * pixCap)

/-- The offsets that hold buffer bytes; every other offset is a register or unmapped (R41). -/
def Memory.isBuffer (a : Nat) : Bool := Memory.inHash a || Memory.inOut a || Memory.inPix a

/-- The byte an unlisted offset is KNOWN to hold: 0 in `HASH` (R31, R38); nothing is known of `PIX`
and `OUT`, whose reset contents are unspecified (R38). -/
def Memory.unlisted (a : Nat) : Option Byte := if Memory.inHash a then some 0 else none

/-- The byte an unlisted offset reads as: the known one, else the free value of the reset. -/
def Memory.unlistedByte (epoch a : Nat) : Byte :=
  match Memory.unlisted a with
  | some b => b
  | none => Config.resetByte epoch a

/-- The entry of an offset. -/
def Memory.lookup (m : List Host.Cell) (a : Nat) : Option Byte :=
  match m with
  | [] => none
  | (k, b) :: rest => if k = a then some b else Memory.lookup rest a

/-- Reading one byte: the entry, or what the unlisted offset reads as. -/
def Memory.readByte (epoch : Nat) (m : List Host.Cell) (a : Nat) : Byte :=
  match Memory.lookup m a with
  | some b => b
  | none => Memory.unlistedByte epoch a

/-- Walking a rising list whose first entry is at `a` or above: `n` bytes from `a` on. -/
def Memory.readFrom (epoch : Nat) (m : List Host.Cell) (a n : Nat) : List Byte :=
  match n with
  | 0 => []
  | n + 1 =>
    match m with
    | [] => Memory.unlistedByte epoch a :: Memory.readFrom epoch [] (a + 1) n
    | (k, b) :: rest =>
      if k = a then b :: Memory.readFrom epoch rest (a + 1) n
      else Memory.unlistedByte epoch a :: Memory.readFrom epoch ((k, b) :: rest) (a + 1) n

/-- Reading `n` bytes from offset `a` on, in one pass over the list. -/
def Memory.readBytes (epoch : Nat) (m : List Host.Cell) (a n : Nat) : List Byte :=
  Memory.readFrom epoch (m.filter fun c => decide (a ≤ c.1)) a n

/-- The entries for bytes written from offset `a` on: none for a byte the unlisted offset is known
to hold, so that equal memories are equal lists. -/
def Memory.cells (a : Nat) (bs : List Byte) : List Host.Cell :=
  match bs with
  | [] => []
  | b :: rest =>
    if Memory.unlisted a = some b then Memory.cells (a + 1) rest
    else (a, b) :: Memory.cells (a + 1) rest

/-- Writing bytes from offset `a` on: the entries below, the new ones, the entries above. Every
store of the model is this one operation. -/
def Memory.writeBytes (m : List Host.Cell) (a : Nat) (bs : List Byte) : List Host.Cell :=
  (m.filter fun c => decide (c.1 < a)) ++ Memory.cells a bs
    ++ m.filter fun c => decide (a + bs.length ≤ c.1)

/-- The canonical form from offset `lo` on: offsets strictly rising, each a buffer's, no entry equal
to what the unlisted offset is known to hold. -/
def Memory.wfFrom (lo : Nat) (m : List Host.Cell) : Bool :=
  match m with
  | [] => true
  | (k, b) :: rest =>
    decide (lo ≤ k) && Memory.isBuffer k && decide (Memory.unlisted k ≠ some b)
      && Memory.wfFrom (k + 1) rest

/-- The canonical form of a memory. -/
def Memory.wf (m : List Host.Cell) : Bool := Memory.wfFrom 0 m

/-! ## State: bytes, words, fields -/

def State.readByte (s : State) (a : Nat) : Byte := Memory.readByte s.epoch s.mem a

def State.readBytes (s : State) (a n : Nat) : List Byte := Memory.readBytes s.epoch s.mem a n

def State.writeBytes (s : State) (a : Nat) (bs : List Byte) : State :=
  { s with mem := Memory.writeBytes s.mem a bs }

/-- The little-endian word at a word-aligned offset of a buffer (R42, R43, R44). -/
def State.readWord (s : State) (a : Nat) : Word :=
  wordOfBytes (s.readByte a) (s.readByte (a + 1)) (s.readByte (a + 2)) (s.readByte (a + 3))

def State.writeWord (s : State) (a : Nat) (v : Word) : State := s.writeBytes a (bytesOfWord v)

/-- Writing `GEOM` and `COUNTS`, which are written and cleared together (R26). -/
def State.setGeometry (s : State) (g : Geom) (c : Counts) : State :=
  { s with geom := g, counts := c }

def State.setHashLen (s : State) (n : BitVec 6) : State := { s with hashLen := n }

def State.setOutDim (s : State) (d : OutDim) : State := { s with outDim := d }

def State.setAvgRgba (s : State) (p : Pixel) : State := { s with avgRgba := p }

def State.setAspect (s : State) (x : Aspect) : State := { s with aspect := x }

def State.setWidth (s : State) (v : BitVec 16) : State := { s with width := v }

def State.setHeight (s : State) (v : BitVec 16) : State := { s with height := v }

/-- The start of a command (R21, R137): the word is latched, `BUSY` set, `DONE` cleared, `ERR` kept. -/
def State.start (s : State) (w : Word) : State :=
  { s with cmdLatch := w, status := { busy := true, done := false, err := s.status.err } }

/-- The completion of a command (R144): `ERR <- code`, `BUSY <- 0`, `DONE <- 1`. -/
def State.complete (s : State) (code : ErrCode) : State :=
  { s with status := { busy := false, done := true, err := code } }

/-! ## Command errors: the engine's exceptions -/

/-- The result clearing of a failed command (R155): the empty result, `HASH_LEN = 0`, `OUT_DIM = 0`,
`AVG_RGBA = 0` or `ASPECT = 0`; `none` stands for a reserved command word, which clears nothing. NOP
never fails (R138). -/
def State.clearResults (s : State) (i : Option Instr) : State :=
  match i with
  | none => s
  | some .nop => s
  | some .encode =>
    ((s.writeBytes hashBase (List.replicate hashCap 0)).setHashLen 0).setGeometry .zero .zero
  | some .decode => (s.setOutDim .zero).setGeometry .zero .zero
  | some .avgcol => s.setAvgRgba .zero
  | some .aspect => s.setAspect .zero

/-- `raise Err(code)` in a command (R10, R151): the result clearing of R155, then the completion of
R144 with the code. Nothing is saved and nothing is vectored (R159); the return is the host's next
command (R156). -/
def State.raiseErr (s : State) (i : Option Instr) (code : ErrCode) : State :=
  (s.clearResults i).complete code

end Sys2Proof.Machine
end

