-- ==== Sys2Proof/Machine/Flags.lean ====
section
/-! DEFINITION. The flags of R19: `has_alpha` and `is_landscape`, computed from an image by ENCODE
(R81, R83) and read back from a hash (R61, R62), and the bits of `STATUS` (R22). There are no
arithmetic condition codes (R19). -/

namespace Sys2Proof.Machine

/-- `has_alpha` of an image (R81), in the integer form the engine evaluates:
`sum(i) PIX[i].a < 255 * W * H`. -/
def imageHasAlpha (w h : Nat) (pixels : List Pixel) : Bool :=
  decide ((pixels.map fun p => p.a.toNat).sum < 255 * w * h)

/-- `is_landscape = (W > H)` (R83). -/
def imageIsLandscape (w h : Nat) : Bool := decide (w > h)

/-- `HAS_ALPHA`, bit 23 of `h24`: byte 2 bit 7 (R61). -/
def hashHasAlpha (b2 : Byte) : Bool := b2.getLsbD 7

/-- `IS_LANDSCAPE`, bit 15 of `h16`: byte 4 bit 7 (R62). -/
def hashIsLandscape (b4 : Byte) : Bool := b4.getLsbD 7

/-- The codes of R152. -/
def ErrCode.toBits (c : ErrCode) : BitVec 4 :=
  match c with
  | .ok => 0
  | .tooLarge => 1
  | .malformedLen => 2
  | .malformedGeom => 3
  | .emptyImage => 4
  | .badCmd => 5

/-- The word `STATUS` reads as (R22): `ERR` in bits 7:4, `DONE` bit 1, `BUSY` bit 0. -/
def Status.toWord (st : Status) : Word :=
  0#24 ++ st.err.toBits ++ 0#2 ++ BitVec.ofBool st.done ++ BitVec.ofBool st.busy

end Sys2Proof.Machine
end

