-- ==== Sys2Proof/Machine/Registers.lean ====
section
/-! DEFINITION. The words the registers read as (10_state.md section 3) and what a host write stores
in the three host-writable ones. Reserved bits read as zero and ignore writes. -/

namespace Sys2Proof.Machine

/-- `GEOM` (R25). -/
def Geom.toWord (g : Geom) : Word :=
  0#13 ++ g.nyL ++ 0#1 ++ g.nxL ++ 0#2 ++ BitVec.ofBool g.isLandscape ++ BitVec.ofBool g.hasAlpha
    ++ 0#1 ++ g.ly ++ 0#1 ++ g.lx

/-- `COUNTS` (R26). -/
def Counts.toWord (c : Counts) : Word := 0#19 ++ c.cntL ++ 0#2 ++ c.acTotal

/-- `OUT_DIM` (R27). -/
def OutDim.toWord (d : OutDim) : Word := 0#18 ++ d.h ++ 0#2 ++ d.w

/-- `ASPECT` (R29). -/
def Aspect.toWord (x : Aspect) : Word := 0#25 ++ x.ly ++ 0#1 ++ x.lx

/-- A pixel word (R43), also `AVG_RGBA` (R28): r in bits 7:0, then g, b, a. -/
def Pixel.toWord (p : Pixel) : Word := p.a ++ p.b ++ p.g ++ p.r

/-- What a write to `WIDTH` or `HEIGHT` stores: bits 15:0 of the word (R23). -/
def dimOfWord (v : Word) : BitVec 16 := v.extractLsb' 0 16

/-- What a write to `HASH_LEN` stores: 32 if the word exceeds 32, else the word (R24). -/
def hashLenOfWord (v : Word) : BitVec 6 := BitVec.ofNat 6 (min v.toNat hashCap)

/-- The fields of `GEOM` from the geometry of a command: `lx`, `ly`, the flags and the luminance
bounds `max(3, lx)`, `max(3, ly)` (R139 step 9, R140 step 4). -/
def geomOf (lx ly : Nat) (hasAlpha isLandscape : Bool) : Geom where
  lx := BitVec.ofNat 3 lx
  ly := BitVec.ofNat 3 ly
  hasAlpha := hasAlpha
  isLandscape := isLandscape
  nxL := BitVec.ofNat 3 (max minL lx)
  nyL := BitVec.ofNat 3 (max minL ly)

/-- The fields of `COUNTS` (R139 step 9, R140 step 4). -/
def countsOf (acTotal cntL : Nat) : Counts := ⟨BitVec.ofNat 6 acTotal, BitVec.ofNat 5 cntL⟩

end Sys2Proof.Machine
end

