-- ==== Sys2Proof/Machine/Operands.lean ====
section
/-! DEFINITION. The operands of the commands: the image in `PIX` (R30) and the hash in `HASH` (R31),
with the nibble addressing of R96. The engine addresses its buffers by element index, never by bus
offset (R52). -/

namespace Sys2Proof.Machine

/-- A pixel of its four bytes in ascending order: R, G, B, A (R43). -/
def pixelOfBytes (r g b a : Byte) : Pixel := ⟨r, g, b, a⟩

/-- The bytes of a pixel in ascending order (R43). -/
def Pixel.toBytes (p : Pixel) : List Byte := [p.r, p.g, p.b, p.a]

/-- Consecutive pixels of consecutive bytes. -/
def pixelsOfBytes (bs : List Byte) : List Pixel :=
  match bs with
  | r :: g :: b :: a :: rest => pixelOfBytes r g b a :: pixelsOfBytes rest
  | _ => []

/-- The bytes of consecutive pixels. -/
def bytesOfPixels (ps : List Pixel) : List Byte := ps.flatMap Pixel.toBytes

/-- `PIX[0 .. n-1]`: the pixel at column `x`, row `y` is element `x + y * WIDTH` (R30). -/
def State.image (s : State) (n : Nat) : List Pixel := pixelsOfBytes (s.readBytes pixBase (4 * n))

/-- `OUT[i]` (R32). -/
def State.outPixel (s : State) (i : Nat) : Pixel :=
  pixelOfBytes (s.readByte (outBase + 4 * i)) (s.readByte (outBase + 4 * i + 1))
    (s.readByte (outBase + 4 * i + 2)) (s.readByte (outBase + 4 * i + 3))

/-- `HASH[0 .. 31]` (R31). -/
def State.hash (s : State) : List Byte := s.readBytes hashBase hashCap

/-- `HASH[k]` of a hash buffer; every index a command forms is below 32 (R52). -/
def hashByte (h : List Byte) (k : Nat) : Byte := h.getD k 0

/-- Nibble slot `idx` relative to byte offset `start`: byte `start + idx div 2`, the low half for an
even `idx`, the high half for an odd one (R96). -/
def nibbleAt (h : List Byte) (start idx : Nat) : Nat :=
  ((hashByte h (start + idx / 2)).toNat >>> (4 * (idx % 2))) &&& 15

/-- ORing a nibble into its slot: never a store (R97, R98). -/
def orNibble (h : List Byte) (start idx d : Nat) : List Byte :=
  h.modify (start + idx / 2) fun b => b ||| BitVec.ofNat 8 (d <<< (4 * (idx % 2)))

end Sys2Proof.Machine
end

