-- ==== Sys2Proof/Machine/Bus.lean ====
section
/-! DEFINITION. The slave port (20_memory.md): the address map, what a transaction reads, writes and
answers, and the busy stall. A transaction is one atomic step (R53). -/

namespace Sys2Proof.Machine

/-- The regions of the window (R41); a buffer word keeps its byte offset. -/
inductive Location where
  | id
  | cmd
  | status
  | width
  | height
  | hashLen
  | geom
  | counts
  | outDim
  | avgRgba
  | aspect
  | hash (a : Nat)
  | out (a : Nat)
  | pix (a : Nat)
  | unmapped
  deriving DecidableEq, Repr

/-- The address map for word-aligned offsets (R41). -/
def locate (a : Nat) : Location :=
  match a with
  | 0x00 => .id
  | 0x04 => .cmd
  | 0x08 => .status
  | 0x0C => .width
  | 0x10 => .height
  | 0x14 => .hashLen
  | 0x18 => .geom
  | 0x1C => .counts
  | 0x20 => .outDim
  | 0x24 => .avgRgba
  | 0x28 => .aspect
  | a =>
    if Memory.inHash a then .hash a
    else if Memory.inOut a then .out a
    else if Memory.inPix a then .pix a
    else .unmapped

/-- A legal width and alignment: 4 bytes at a multiple of 4 (R45). -/
def aligned (a : BitVec 20) (n : Nat) : Bool := decide (n = 4 ∧ a.toNat % 4 = 0)

/-- What a read of a region answers and returns (R46): `CMD` reads 0 with `OKAY`, an unmapped offset
0 with `ERROR`. Reads have no side effect (R47). -/
def State.readLocation (s : State) (loc : Location) : Response × Word :=
  match loc with
  | .id => (.okay, idValue)
  | .cmd => (.okay, 0)
  | .status => (.okay, s.status.toWord)
  | .width => (.okay, s.width.setWidth 32)
  | .height => (.okay, s.height.setWidth 32)
  | .hashLen => (.okay, s.hashLen.setWidth 32)
  | .geom => (.okay, s.geom.toWord)
  | .counts => (.okay, s.counts.toWord)
  | .outDim => (.okay, s.outDim.toWord)
  | .avgRgba => (.okay, s.avgRgba.toWord)
  | .aspect => (.okay, s.aspect.toWord)
  | .hash a => (.okay, s.readWord a)
  | .out a => (.okay, s.readWord a)
  | .pix a => (.okay, s.readWord a)
  | .unmapped => (.error, 0)

/-- What a write of a region answers and does (R46, R47): a read-only or unmapped one answers `ERROR`
and changes nothing; a write to `CMD` starts a command (R137). -/
def State.writeLocation (s : State) (loc : Location) (v : Word) : Response × State :=
  match loc with
  | .id => (.error, s)
  | .cmd => (.okay, s.start v)
  | .status => (.error, s)
  | .width => (.okay, s.setWidth (dimOfWord v))
  | .height => (.okay, s.setHeight (dimOfWord v))
  | .hashLen => (.okay, s.setHashLen (hashLenOfWord v))
  | .geom => (.error, s)
  | .counts => (.error, s)
  | .outDim => (.error, s)
  | .avgRgba => (.error, s)
  | .aspect => (.error, s)
  | .hash a => (.okay, s.writeWord a v)
  | .out _ => (.error, s)
  | .pix a => (.okay, s.writeWord a v)
  | .unmapped => (.error, s)

/-- A completed transaction: its reply and the state after it. Wrong width or alignment is tested
first (R158): `ERROR`, no change, a read returns 0 (R45). -/
def State.transact (s : State) (t : Transaction) : Reply × State :=
  match t with
  | .read a n =>
    if aligned a n then
      let r := s.readLocation (locate a.toNat)
      (.read r.1 r.2, s)
    else (.read .error 0, s)
  | .write a n v =>
    if aligned a n then
      let r := s.writeLocation (locate a.toNat) v
      (.write r.1, r.2)
    else (.write .error, s)

/-- A read of `STATUS`, the one transaction that completes while `BUSY = 1` (R48). -/
def Transaction.isStatusRead (t : Transaction) : Bool :=
  match t with
  | .read a n => aligned a n && decide (locate a.toNat = .status)
  | .write _ _ _ => false

/-- The busy stall (R48): every other transaction is held while `BUSY = 1`. -/
def State.held (s : State) (t : Transaction) : Bool := s.status.busy && !t.isStatusRead

/-- The port's move: the oldest pending transaction completes, unless it is held (R48, R49). -/
def State.hostMove (s : State) : State :=
  match s.port with
  | [] => s
  | t :: rest =>
    if s.held t then s
    else
      let r := s.transact t
      { r.2 with port := rest, replies := r.1 :: s.replies }

/-- Reset (R166, R168): whatever ran is abandoned and the state is that of R38, with buffer contents of
a new reset number. The port is the platform's: what it has still to issue stays, and a transaction
held at that moment is abandoned if the platform chooses so (U17, assumption 6). Assertion and release
are one step: R166 does not say what a transaction issued while reset stays asserted gets, and none
is given a chance here; it waits in `port` (DESIGN CHOICE, assumption 15). -/
def State.assertReset (s : State) (dropHeld : Bool) : State :=
  let pending :=
    match s.port with
    | [] => []
    | t :: rest => if s.held t && dropHeld then rest else t :: rest
  { State.reset with epoch := s.epoch + 1, port := pending, turns := s.turns, replies := s.replies }

/-- The window offset of a system bus address for an engine at `base`: the window is 1 MiB from its
`BASE`, an open argument (R7, R40, R41). Several engines have windows at different bases (R178). -/
def windowOffsetAt (base a : Nat) : Option (BitVec 20) :=
  if base ≤ a ∧ a < base + 2 ^ 20 then some (BitVec.ofNat 20 (a - base)) else none

/-- The window of the ONE engine this model is, at `Config.base`. It is no decoder for several engines:
R178 lets each sit at its own `BASE`, so that a second engine's window is `windowOffsetAt` its base, and
that one constant would give every engine the same window is the model's (DESIGN CHOICE,
assumption 9). -/
def windowOffset (a : Nat) : Option (BitVec 20) := windowOffsetAt Config.base a

end Sys2Proof.Machine
end

