-- ==== Sys2Proof/Machine/Numeric.lean ====
section
/-! DEFINITION. What the rules write with the numeric parameter `NUM` (00_scope.md section 6):
decimal literals, `clamp01` (R13), and the quantisers `round(k * v)` with the saturation an inexact
instance needs (R106, 92_eei_decisions.md D36). -/

namespace Sys2Proof.Machine

variable {S : Type}

/-- A decimal literal denotes that rational: `2/3` is `ofInt(2)/ofInt(3)` (R11). -/
def lit (N : Num S) (p q : Int) : S := N.div (N.ofInt p) (N.ofInt q)

/-- `clamp01(v) = max(0, min(1, v))` (R13). -/
def clamp01 (N : Num S) (v : S) : S := N.max N.zero (N.min N.one v)

/-- `round(v)` put into the range 0 to `top` of a quantised field. In the reference instance every
argument lies in the range already (R106, R127), so the saturation changes nothing there
(assumption 7). -/
def quantise (N : Num S) (top : Nat) (v : S) : Nat := min top (N.round v).toNat

/-- The cosine argument's offset, `ofInt(x) + 0.5` (R89, R122). -/
def halfStep (N : Num S) (x : Nat) : S := N.add (N.ofInt x) (lit N 1 2)

end Sys2Proof.Machine
end

