-- ==== Sys2Proof/Machine/ColorTransform.lean ====
section
/-! DEFINITION. The colour-space transform and geometry unit (40_color_transform.md), the first steps
of ENCODE: the average colour, the blend toward it, the channels L, P, Q, A, and the truncation
geometry. -/

namespace Sys2Proof.Machine

variable {S : Type}

/-- The accumulators of R77. -/
structure ColorSums (S : Type) where
  totA : S
  r : S
  g : S
  b : S

/-- `a = ofInt(p.a) / 255` (R77). -/
def alphaOf (N : Num S) (p : Pixel) : S := N.div (N.ofInt p.a.toNat) (N.ofInt 255)

/-- `((a * a) * ofInt(c)) / 255`, alpha entering twice (R77). -/
def weighted (N : Num S) (a : S) (c : Byte) : S :=
  N.div (N.mul (N.mul a a) (N.ofInt c.toNat)) (N.ofInt 255)

/-- One pixel of the accumulation of R77. -/
def accumulate (N : Num S) (acc : ColorSums S) (p : Pixel) : ColorSums S :=
  let a := alphaOf N p
  { totA := N.add acc.totA a
    r := N.add acc.r (weighted N a p.r)
    g := N.add acc.g (weighted N a p.g)
    b := N.add acc.b (weighted N a p.b) }

/-- Step 1a (R77): the sums over all pixels in ascending order, from 0. -/
def colorSums (N : Num S) (pixels : List Pixel) : ColorSums S :=
  pixels.foldl (accumulate N) ⟨N.zero, N.zero, N.zero, N.zero⟩

/-- Step 1b (R78): the sums divided by the total alpha, if that is above 0. -/
def averageOf (N : Num S) (t acc : S) : S := if N.lt N.zero t then N.div acc t else acc

/-- Step 2 (R79): `avg * (1 - a) + (a / 255) * ofInt(c)`. -/
def blend (N : Num S) (avg a : S) (c : Byte) : S :=
  N.add (N.mul avg (N.sub N.one a)) (N.mul (N.div a (N.ofInt 255)) (N.ofInt c.toNat))

/-- The four channel values of one pixel: elements of `FL`, `FP`, `FQ`, `FA` (R80). -/
structure Lpqa (S : Type) where
  l : S
  p : S
  q : S
  a : S

/-- Step 3 (R80): L = (R+G+B)/3, P = (R+G)/2 - B, Q = R - G, A = alpha. -/
def lpqaOf (N : Num S) (r g b a : S) : Lpqa S where
  l := N.div (N.add (N.add r g) b) (N.ofInt 3)
  p := N.sub (N.div (N.add r g) (N.ofInt 2)) b
  q := N.sub r g
  a := a

/-- Steps 2 and 3 for one pixel, given the averages (R79, R80). -/
def transformPixel (N : Num S) (avgR avgG avgB : S) (p : Pixel) : Lpqa S :=
  let a := alphaOf N p
  lpqaOf N (blend N avgR a p.r) (blend N avgG a p.g) (blend N avgB a p.b) a

/-- `ColorTransform` (R76): the four fields, as one list of channel records in pixel order. -/
def colorTransform (N : Num S) (pixels : List Pixel) : List (Lpqa S) :=
  let sums := colorSums N pixels
  let avgR := averageOf N sums.totA sums.r
  let avgG := averageOf N sums.totA sums.g
  let avgB := averageOf N sums.totA sums.b
  pixels.map (transformPixel N avgR avgG avgB)

/-- `max(1, round(limit * side / m))` for the longer side `m`, by the integer expression
`(2 * limit * side + m) div (2 * m)` that R83 gives for the rounding half away from zero. -/
def geometrySide (limit side m : Nat) : Nat := max 1 ((2 * limit * side + m) / (2 * m))

/-- `Geometry(W, H, has_alpha)` without the flag `is_landscape` (R83): `(lx, ly)`. -/
def geometry (w h : Nat) (hasAlpha : Bool) : Nat × Nat :=
  (geometrySide (limitOf hasAlpha) w (max w h), geometrySide (limitOf hasAlpha) h (max w h))

end Sys2Proof.Machine
end

