-- ==== Sys2Proof/Machine/Cosine.lean ====
section
/-! DEFINITION. Fixed-point approximations of pi and of `cos(pi * k / b)` with a known error, for the
reference instance of `NUM` (00_scope.md R11: exact reals). Laws/Cosine.lean proves the error bounds;
no result of the machine depends on how these values are computed. -/

namespace Sys2Proof.Machine.Exact

/-- `2^q * (1/(2k+1) / x^(2k+1) - 1/(2k+3) / x^(2k+3) + ...)`, `n` terms, each rounded down, with
`pow = x^(2k+1)`: the alternating series of `arctan (1/x)` from term `k` on. -/
def arctanInv (q x : Nat) (n k pow : Nat) : Int :=
  match n with
  | 0 => 0
  | n + 1 => ((2 ^ q / ((2 * k + 1) * pow) : Nat) : Int) - arctanInv q x n (k + 1) (pow * (x * x))

/-- `2^q * pi` by Machin's formula `pi = 16 arctan(1/5) - 4 arctan(1/239)` with `n` terms. -/
def machin (q n : Nat) : Int := 16 * arctanInv q 5 n 0 5 - 4 * arctanInv q 239 n 0 239

/-- `2^p * pi`, within 2: Machin's formula at more than twice the precision, cut down. -/
def piFix (p : Nat) : Nat := (machin (2 * p + 16) (p / 4 + 8) / (2 ^ (p + 16) : Nat)).toNat

/-- Horner's scheme for `1 - t/(1*2) * (1 - t/(3*4) * ( ... ))`, the cosine series in `t = x^2`, in
fixed point with `q` fraction bits, from factor `j` on, `n` factors. -/
def cosHorner (q t : Nat) (n j : Nat) : Nat :=
  match n with
  | 0 => 2 ^ q
  | n + 1 => 2 ^ q - t * cosHorner q t n (j + 1) / (2 ^ q * ((2 * j + 1) * (2 * j + 2)))

/-- `2^q * cos(x)` for `2^q * x = u`, `0 <= x <= pi/4`. -/
def cosSmall (q u : Nat) : Nat := cosHorner q (u * u / 2 ^ q) (q / 8 + 9) 0

/-- `2^q * cos(pi * k / b)` for `0 <= k / b <= 1/2`, from the half angle by `cos 2x = 2 cos^2 x - 1`,
given `2^q * pi`. -/
def cosQuarter (q pi k b : Nat) : Int :=
  let c := cosSmall q (pi * k / (2 * b))
  ((2 * (c * c) / 2 ^ q : Nat) : Int) - (2 ^ q : Nat)

/-- `2^p * cos(pi * k / b)` for `0 <= k <= b`, within 2, given `2^(p + 8) * pi`. -/
def cosHalf (p pi k b : Nat) : Int :=
  if 2 * k ≤ b then cosQuarter (p + 8) pi k b / 2 ^ 8
  else -(cosQuarter (p + 8) pi (b - k) b / 2 ^ 8)

/-- `2^p * cos(pi * k / b)` for any `k` and `b > 0`, within 2: the angle is first brought to 0 to pi. -/
def cosFixWith (p pi : Nat) (k : Int) (b : Nat) : Int :=
  let r := (k % (2 * b : Nat)).toNat
  if r ≤ b then cosHalf p pi r b else cosHalf p pi (2 * b - r) b

/-- `2^p * cos(pi * k / b)`, within 2. -/
def cosFix (p : Nat) (k : Int) (b : Nat) : Int := cosFixWith p (piFix (p + 8)) k b

/-- The fraction bits of the fast path (Machine/Ball.lean). -/
def baseBits : Nat := 64

/-- `2^72 * pi`, computed once. -/
def piBase : Nat := piFix (baseBits + 8)

/-- `2^64 * cos(pi * k / b)`, within 2. -/
def cosBase (k : Int) (b : Nat) : Int := cosFixWith baseBits piBase k b

end Sys2Proof.Machine.Exact
end

