-- ==== Sys2Proof/Machine/Ball.lean ====
section
/-! DEFINITION. Enclosures of real numbers with 64 fraction bits, the fast path of the exact
comparisons of Machine/Exact.lean: a comparison whose enclosure decides it needs nothing else. -/

namespace Sys2Proof.Machine.Exact

/-- The reals `x` with `|2^64 * x - mid| <= rad`. -/
structure Ball where
  mid : Int
  rad : Nat
  deriving DecidableEq, Repr

def Ball.ofRat (q : Rat) : Ball := ⟨q.num * 2 ^ baseBits / q.den, if q.den = 1 then 0 else 1⟩

/-- An enclosure of `cos(pi * q)`. -/
def Ball.cosPi (q : Rat) : Ball := ⟨cosBase q.num q.den, 2⟩

/-- An enclosure of every cosine. -/
def Ball.cosAny : Ball := ⟨0, 2 ^ baseBits⟩

def Ball.add (a b : Ball) : Ball := ⟨a.mid + b.mid, a.rad + b.rad⟩

def Ball.sub (a b : Ball) : Ball := ⟨a.mid - b.mid, a.rad + b.rad⟩

def Ball.mul (a b : Ball) : Ball where
  mid := a.mid * b.mid / 2 ^ baseBits
  rad := (a.mid.natAbs * b.rad + b.mid.natAbs * a.rad + a.rad * b.rad) / 2 ^ baseBits + 2

/-- A quotient has an enclosure when the divisor's keeps away from 0. -/
def Ball.div (a b : Ball) : Option Ball :=
  if b.mid.natAbs ≤ b.rad then none
  else some
    { mid := a.mid * 2 ^ baseBits / b.mid
      rad := (a.mid.natAbs * b.rad + b.mid.natAbs * a.rad) * 2 ^ baseBits
              / (b.mid.natAbs * (b.mid.natAbs - b.rad)) + 2 }

/-- An operation where both enclosures are known. -/
def Ball.map2 (f : Ball → Ball → Option Ball) (a b : Option Ball) : Option Ball :=
  match a, b with
  | some x, some y => f x y
  | _, _ => none

end Sys2Proof.Machine.Exact
end

