-- ==== Sys2Proof/Machine/Cyclotomic.lean ====
section
/-! DEFINITION. Sums of rational multiples of roots of unity, and the exact sign of a real one: an
algebraic test for zero, then approximation up to a precision at which a number that is not zero
would have shown its sign. Laws/Cyclotomic.lean proves the sign right. -/

namespace Sys2Proof.Machine.Exact

/-- `sum c * zeta^e` over its entries `(e, c)`, `zeta = exp(2 pi i / n)`; entries may repeat an
exponent. -/
abbrev Poly := List (Nat × Rat)

def Poly.scale (c : Rat) (p : Poly) : Poly := p.map fun t => (t.1, c * t.2)

/-- The product, exponents reduced mod `n`. -/
def Poly.mul (n : Nat) (p q : Poly) : Poly :=
  p.flatMap fun s => q.map fun t => ((s.1 + t.1) % n, s.2 * t.2)

/-- `cos(pi * q) = (zeta^e + zeta^(n - e)) / 2` with `e = q.num * n / (2 * q.den)`, where
`2 * q.den` divides `n`. -/
def Poly.cosPi (n : Nat) (q : Rat) : Poly :=
  let e := (q.num % (2 * q.den : Nat)).toNat * (n / (2 * q.den))
  [(e, 1 / 2), (n - e, 1 / 2)]

/-- The coefficients of the powers `zeta^0 .. zeta^(n-1)`. -/
def Poly.dense (n : Nat) (p : Poly) : List Rat :=
  (p.foldl (fun (v : Array Rat) t =>
    v.setIfInBounds (t.1 % n) (v.getD (t.1 % n) 0 + t.2)) (Array.replicate n 0)).toList

/-- Multiplication of dense coefficients by `x^k - 1` mod `x^n - 1`: rotate and subtract. -/
def rotateSub (n k : Nat) (v : List Rat) : List Rat :=
  (v.drop (n - k) ++ v.take (n - k)).zipWith (fun a b => a - b) v

/-- The prime divisors of `n`. -/
def primeDivisors (n : Nat) : List Nat :=
  (List.range (n + 1)).filter fun p =>
    decide (2 ≤ p ∧ n % p = 0) && (List.range p).all fun q => decide (q < 2 ∨ p % q ≠ 0)

/-- The product with `x^(n/p) - 1` for every prime `p` dividing `n`, mod `x^n - 1`. If it vanishes, so
does the sum at `zeta`, where none of the factors does. -/
def Poly.vanishes (n : Nat) (p : Poly) : Bool :=
  ((primeDivisors n).foldl (fun v q => rotateSub n (n / q) v) (p.dense n)).all (· == 0)

/-- A common denominator of the coefficients. -/
def Poly.denominator (p : Poly) : Nat := p.foldl (fun d t => Nat.lcm d t.2.den) 1

/-- The coefficients multiplied by a common denominator `d`. -/
def Poly.numerators (d : Nat) (p : Poly) : List (Nat × Int) :=
  p.map fun t => (t.1, t.2.num * ((d / t.2.den : Nat) : Int))

/-- The sum of the absolute values of integer coefficients. -/
def weight (p : List (Nat × Int)) : Nat := (p.map fun t => t.2.natAbs).sum

/-- `2^bits` times the real part of `sum c * zeta^e`, within `2 * weight`. -/
def approx (bits pi n : Nat) (p : List (Nat × Int)) : Int :=
  (p.map fun t => t.2 * cosFixWith bits pi (2 * t.1) n).sum

/-- Bits at which a real `sum c * zeta^e`, not zero, is told from zero: a number whose conjugates are
at most `weight` in magnitude, at most `n` of them, with an integer as their product. -/
def signBits (n : Nat) (p : List (Nat × Int)) : Nat :=
  n * ((weight p).log2 + 1) + (weight p).log2 + 4

/-- The sign of a real sum from ever finer approximations; 0 when even `signBits` bits show none. -/
def refineSign (n : Nat) (p : List (Nat × Int)) (fuel bits : Nat) : Int :=
  let v := approx bits (piFix (bits + 8)) n p
  if v > 2 * weight p then 1
  else if v < -(2 * weight p : Int) then -1
  else
    match fuel with
    | 0 => 0
    | fuel + 1 => refineSign n p fuel (2 * bits)

/-- The sign of a real sum. -/
def Poly.sign (n : Nat) (p : Poly) : Int :=
  if p.vanishes n then 0
  else
    let c := p.numerators p.denominator
    refineSign n c ((signBits n c).log2 + 1) 128

/-- A quotient of two real sums. -/
structure Fraction where
  num : Poly
  den : Poly
  deriving DecidableEq, Repr

/-- The sum, without a product where the denominators are the same list. -/
def Fraction.add (n : Nat) (a b : Fraction) : Fraction :=
  if a.den = b.den then ⟨b.num ++ a.num, a.den⟩
  else ⟨b.num.mul n a.den ++ a.num.mul n b.den, a.den.mul n b.den⟩

def Fraction.neg (a : Fraction) : Fraction := ⟨a.num.scale (-1), a.den⟩

def Fraction.mul (n : Nat) (a b : Fraction) : Fraction := ⟨a.num.mul n b.num, a.den.mul n b.den⟩

def Fraction.inv (a : Fraction) : Fraction := ⟨a.den, a.num⟩

def Fraction.sign (n : Nat) (a : Fraction) : Int := a.num.sign n * a.den.sign n

/-- A number of bits that bounds a quotient: `|a| < 2^magnitude` where the denominator is not 0. -/
def Fraction.magnitude (n : Nat) (a : Fraction) : Nat :=
  (weight (a.num.numerators a.num.denominator)).log2 + 1
    + n * ((weight (a.den.numerators a.den.denominator)).log2 + 1) + a.den.denominator.log2 + 1

end Sys2Proof.Machine.Exact
end

