-- ==== Sys2Proof/Machine/Exact.lean ====
section
/-! DEFINITION. The reference instance of `NUM` (00_scope.md R11), exact real arithmetic, as a
computable one. A scalar is an expression that stands for a real number; `+ - * /` and `cos` build
expressions, and only `<`, `abs`, `max`, `min` and `round` look at their values, exactly: by an
enclosure where that decides, else in the field of the roots of unity, where every expression a rule
forms lies (a cosine is taken of rational multiples of pi only). Assumption 1. -/

namespace Sys2Proof.Machine.Exact

/-- An expression for a real number. `piMul q` is `q * pi`, `cosPi q` is `cos(q * pi)`; `cosOf e` is
the cosine of any other expression. -/
inductive Expr where
  | rat (q : Rat)
  | piMul (q : Rat)
  | cosPi (q : Rat)
  | cosOf (e : Expr)
  | add (a b : Expr)
  | sub (a b : Expr)
  | mul (a b : Expr)
  | div (a b : Expr)
  deriving DecidableEq, Repr

end Sys2Proof.Machine.Exact

/-- The sign of an expression outside the field of the roots of unity, which no rule of the spec
forms and which this instance does not decide: a free value (assumption 1). -/
opaque Sys2Proof.Config.undecidedSign (e : Sys2Proof.Machine.Exact.Expr) : Int

namespace Sys2Proof.Machine.Exact

/-- An order `n` of roots of unity that holds every cosine of an expression: `2 * den` divides it for
each of them. -/
def Expr.order (e : Expr) : Nat :=
  match e with
  | .rat _ => 1
  | .piMul _ => 1
  | .cosPi q => 2 * q.den
  | .cosOf e => e.order
  | .add a b => Nat.lcm a.order b.order
  | .sub a b => Nat.lcm a.order b.order
  | .mul a b => Nat.lcm a.order b.order
  | .div a b => Nat.lcm a.order b.order

/-- An expression as a quotient of sums of roots of unity of order `n`; none for one that holds a
multiple of pi outside a cosine, or the cosine of something else. -/
def Expr.fraction (n : Nat) (e : Expr) : Option Fraction :=
  match e with
  | .rat q => some ⟨[(0, q)], [(0, 1)]⟩
  | .piMul _ => none
  | .cosPi q => some ⟨Poly.cosPi n q, [(0, 1)]⟩
  | .cosOf _ => none
  | .add a b =>
    match a.fraction n, b.fraction n with
    | some x, some y => some (x.add n y)
    | _, _ => none
  | .sub a b =>
    match a.fraction n, b.fraction n with
    | some x, some y => some (x.add n y.neg)
    | _, _ => none
  | .mul a b =>
    match a.fraction n, b.fraction n with
    | some x, some y => some (x.mul n y)
    | _, _ => none
  | .div a b =>
    match a.fraction n, b.fraction n with
    | some x, some y => some (x.mul n y.inv)
    | _, _ => none

/-- The exact sign of an expression: 1, 0 or -1. -/
def Expr.sign (e : Expr) : Int :=
  match e.fraction e.order with
  | some f => f.sign e.order
  | none => Config.undecidedSign e

/-- Bits that bound the magnitude of an expression. -/
def Expr.magnitude (e : Expr) : Nat :=
  match e.fraction e.order with
  | some f => f.magnitude e.order
  | none => 0

/-- A scalar: an expression with an enclosure of its value, where one is known. -/
structure Scalar where
  expr : Expr
  ball : Option Ball
  deriving DecidableEq, Repr

def ofRat (q : Rat) : Scalar := ⟨.rat q, some (Ball.ofRat q)⟩

/-- `a + b`: rationals are added, a zero is dropped. -/
def add (a b : Scalar) : Scalar :=
  match a.expr, b.expr with
  | .rat p, .rat q => ofRat (p + q)
  | .piMul p, .piMul q => ⟨.piMul (p + q), none⟩
  | e, f =>
    if e = .rat 0 then b
    else if f = .rat 0 then a
    else ⟨.add e f, Ball.map2 (fun x y => some (x.add y)) a.ball b.ball⟩

/-- `a - b`. -/
def sub (a b : Scalar) : Scalar :=
  match a.expr, b.expr with
  | .rat p, .rat q => ofRat (p - q)
  | .piMul p, .piMul q => ⟨.piMul (p - q), none⟩
  | e, f =>
    if f = .rat 0 then a
    else ⟨.sub e f, Ball.map2 (fun x y => some (x.sub y)) a.ball b.ball⟩

/-- `a * b`: a factor 0 or 1 is dropped. -/
def mul (a b : Scalar) : Scalar :=
  match a.expr, b.expr with
  | .rat p, .rat q => ofRat (p * q)
  | .piMul p, .rat q => ⟨.piMul (p * q), none⟩
  | .rat p, .piMul q => ⟨.piMul (p * q), none⟩
  | e, f =>
    if e = .rat 0 ∨ f = .rat 0 then ofRat 0
    else if e = .rat 1 then b
    else if f = .rat 1 then a
    else ⟨.mul e f, Ball.map2 (fun x y => some (x.mul y)) a.ball b.ball⟩

/-- `a / b`. -/
def div (a b : Scalar) : Scalar :=
  match a.expr, b.expr with
  | .rat p, .rat q => ofRat (p / q)
  | .piMul p, .rat q => ⟨.piMul (p / q), none⟩
  | e, f =>
    if e = .rat 0 then ofRat 0
    else if f = .rat 1 then a
    else ⟨.div e f, Ball.map2 Ball.div a.ball b.ball⟩

/-- `cos(q * pi)`: 1, -1 or 0 at the multiples of pi and of pi/2. -/
def cosPi (q : Rat) : Scalar :=
  if q.den = 1 then ofRat (if q.num % 2 = 0 then 1 else -1)
  else if q.den = 2 then ofRat 0
  else ⟨.cosPi q, some (Ball.cosPi q)⟩

/-- `cos(a)`. -/
def cos (a : Scalar) : Scalar :=
  match a.expr with
  | .piMul q => cosPi q
  | .rat q => if q = 0 then ofRat 1 else ⟨.cosOf (.rat q), some Ball.cosAny⟩
  | e => ⟨.cosOf e, some Ball.cosAny⟩

/-- The exact sign of a scalar: 1, 0 or -1. -/
def sign (a : Scalar) : Int :=
  match a.expr with
  | .rat q => q.num.sign
  | e =>
    match a.ball with
    | some b =>
      if b.mid > b.rad then 1 else if b.mid < -(b.rad : Int) then -1 else e.sign
    | none => e.sign

/-- `a < b`. -/
def lt (a b : Scalar) : Bool := decide (sign (sub a b) < 0)

/-- The integer below or at `a`, known to be at least `lo` and less than `hi`: bisection with exact
comparisons. -/
def bisect (a : Scalar) (fuel : Nat) (lo hi : Int) : Int :=
  match fuel with
  | 0 => lo
  | fuel + 1 =>
    if hi ≤ lo + 1 then lo
    else
      let m := (lo + hi) / 2
      if 0 ≤ sign (sub a (ofRat m)) then bisect a fuel m hi else bisect a fuel lo m

/-- `floor(a)` known to lie from `lo` to below `hi`. -/
def floorWithin (a : Scalar) (lo hi : Int) : Int := bisect a ((hi - lo).toNat.log2 + 1) lo hi

/-- `floor(a)`, exactly. -/
def floor (a : Scalar) : Int :=
  match a.expr with
  | .rat q => q.floor
  | e =>
    match a.ball with
    | some b => floorWithin a ((b.mid - b.rad) / 2 ^ baseBits) ((b.mid + b.rad) / 2 ^ baseBits + 1)
    | none => floorWithin a (-(2 ^ e.magnitude)) (2 ^ e.magnitude)

/-- `round(v)`, half away from zero (R12): `floor(v + 0.5)` for `v >= 0`, else `-floor(-v + 0.5)`. -/
def round (v : Scalar) : Int :=
  if 0 ≤ sign v then floor (add v (ofRat (1 / 2))) else -floor (add (sub (ofRat 0) v) (ofRat (1 / 2)))

/-- `|a|`. -/
def abs (a : Scalar) : Scalar :=
  let s := sign a
  if s = 0 then ofRat 0 else if s < 0 then sub (ofRat 0) a else a

/-- The reference instance (R11). -/
def num : Num Scalar where
  zero := ofRat 0
  one := ofRat 1
  pi := ⟨.piMul 1, none⟩
  ofInt i := ofRat i
  add := add
  sub := sub
  mul := mul
  div := div
  cos := cos
  abs := abs
  max a b := if lt a b then b else a
  min a b := if lt b a then b else a
  lt := lt
  round := round

end Sys2Proof.Machine.Exact
end

