-- ==== Sys2Proof/Machine/ForwardDct.lean ====
section
/-! DEFINITION. The forward DCT unit (41_dct_forward.md): the term set shared by both directions, the
projection, and a channel's DC, scale and normalised AC terms. -/

namespace Sys2Proof.Machine

variable {S : Type}

/-- One row of the scan of R87: `cx` from 1 in row 0, else from 0, while `cx * ny < nx * (ny - cy)`.
The condition is downward closed in `cx` and false from `cx = nx` on, so the loop is this filter. -/
def termRow (nx ny cy : Nat) : List (Nat × Nat) :=
  ((List.range nx).filter fun cx =>
    decide ((cy ≠ 0 ∨ cx ≠ 0) ∧ cx * ny < nx * (ny - cy))).map fun cx => (cx, cy)

/-- `Terms(nx, ny)` (R87): cy outer, cx inner. -/
def terms (nx ny : Nat) : List (Nat × Nat) := (List.range ny).flatMap (termRow nx ny)

/-- `count(nx, ny)` (R88). -/
def termCount (nx ny : Nat) : Nat := (terms nx ny).length

/-- `cos(pi / n * c * (x + 0.5))`, the argument evaluated left to right (R89). -/
def projCos (N : Num S) (n c x : Nat) : S :=
  N.cos (N.mul (N.mul (N.div N.pi (N.ofInt n)) (N.ofInt c)) (halfStep N x))

/-- The cosines of one axis, computed once per frequency as R89 allows. -/
def projTable (N : Num S) (n c : Nat) : List S := (List.range n).map (projCos N n c)

/-- A field's rows: `field[x, y] = F[x + y * W]` (R89, R30). -/
def fieldRows (w h : Nat) (f : List S) : List (List S) :=
  match h with
  | 0 => []
  | h + 1 => f.take w :: fieldRows w h (f.drop w)

/-- Adding one row's terms `F[x + y*W] * cos_x * cos_y` to the running sum, `x` ascending. -/
def addRow (N : Num S) (cosX : List S) (acc : S) (row : List S × S) : S :=
  (row.1.zip cosX).foldl (fun acc fc => N.add acc (N.mul (N.mul fc.1 fc.2) row.2)) acc

/-- The projection (R89): the double sum, `y` outer and `x` inner (R13), divided by `ofInt(W * H)`. -/
def proj (N : Num S) (w h : Nat) (rows : List (List S)) (c : Nat × Nat) : S :=
  N.div ((rows.zip (projTable N h c.2)).foldl (addRow N (projTable N w c.1)) N.zero)
    (N.ofInt (w * h))

/-- A channel workspace (R34): the bounds, DC, scale and the AC terms, whose count is `ac.length`. -/
structure Channel (S : Type) where
  nx : Nat
  ny : Nat
  dc : S
  scale : S
  ac : List S

/-- `scale`, the maximum absolute AC magnitude, tracked over the scan from 0 (R90, R91). -/
def scaleOf (N : Num S) (ac : List S) : S := ac.foldl (fun m f => N.max m (N.abs f)) N.zero

/-- `0.5 + ((0.5 * ac[j]) / scale)` (R92). -/
def normaliseTerm (N : Num S) (scale c : S) : S :=
  N.add (lit N 1 2) (N.div (N.mul (lit N 1 2) c) scale)

/-- The normalisation (R92): every term remapped if `scale > 0`, nothing otherwise. -/
def normalise (N : Num S) (scale : S) (ac : List S) : List S :=
  if N.lt N.zero scale then ac.map (normaliseTerm N scale) else ac

/-- `ChannelEncode(W, H, F, nx, ny)` (R86, R90, R92). -/
def channelEncode (N : Num S) (w h : Nat) (f : List S) (nx ny : Nat) : Channel S :=
  let rows := fieldRows w h f
  let raw := (terms nx ny).map (proj N w h rows)
  let scale := scaleOf N raw
  { nx := nx, ny := ny, dc := proj N w h rows (0, 0), scale := scale, ac := normalise N scale raw }

end Sys2Proof.Machine
end

