-- ==== Sys2Proof/Machine/NibbleQuantiser.lean ====
section
/-! DEFINITION. The nibble quantiser and dequantiser unit (42_nibble_quantiser.md): `ChannelWrite`
for ENCODE, `ChannelDecode` for DECODE. -/

namespace Sys2Proof.Machine

variable {S : Type}

/-- The AC quantiser `round(15 * v)` (R99). -/
def quantiseAc (N : Num S) (v : S) : Nat := quantise N 15 (N.mul (N.ofInt 15) v)

/-- Nibbles ORed into consecutive slots from `idx` on (R97). -/
def writeNibbles (h : List Byte) (start idx : Nat) (ds : List Nat) : List Byte :=
  match ds with
  | [] => h
  | d :: rest => writeNibbles (orNibble h start idx d) start (idx + 1) rest

/-- `ChannelWrite(ch, start, idx)` (R97): the hash buffer and the updated cursor. -/
def channelWrite (N : Num S) (ch : Channel S) (start : Nat) (h : List Byte) (idx : Nat) :
    List Byte × Nat :=
  (writeNibbles h start idx (ch.ac.map (quantiseAc N)), idx + ch.ac.length)

/-- The AC dequantiser `(ofInt(d) / 7.5 - 1) * s` (R100). -/
def dequantiseAc (N : Num S) (s : S) (d : Nat) : S :=
  N.mul (N.sub (N.div (N.ofInt d) (lit N 15 2)) N.one) s

/-- `ChannelDecode(start, idx, count, s)` (R100): the sequence and the updated cursor. -/
def channelDecode (N : Num S) (h : List Byte) (start idx count : Nat) (s : S) : List S × Nat :=
  ((List.range count).map fun j => dequantiseAc N s (nibbleAt h start (idx + j)), idx + count)

/-- The P and Q scale with the boost of 1.25 "at the scale-parameter level" (R101, R120). -/
def boosted (N : Num S) (scale : S) : S := N.mul scale (lit N 5 4)

end Sys2Proof.Machine
end

