-- ==== Sys2Proof/Machine/Header.lean ====
section
/-! DEFINITION. The header packer and parser unit (43_header_packer.md) over the hash layout of
30_encoding.md Part B. -/

namespace Sys2Proof.Machine

variable {S : Type}

/-! ## Lengths -/

/-- `AC_TOTAL` (R105): the L terms plus 5 plus 5 plus, with alpha, 14; the three constants are
`count(3, 3)` twice and `count(5, 5)`. -/
def acTotalOf (hasAlpha : Bool) (cntL : Nat) : Nat := cntL + 5 + 5 + (if hasAlpha then 14 else 0)

/-- The hash length of `(has_alpha, lx, ly)` (R105), which is also what DECODE needs (R113). -/
def hashLenFor (hasAlpha : Bool) (lx ly : Nat) : Nat :=
  hdrLen hasAlpha + ceilDiv (acTotalOf hasAlpha (termCount (max minL lx) (max minL ly))) 2

/-! ## Pack -/

/-- The quantised fields of the header (R107). -/
structure HeaderFields where
  lDc : Nat
  pDc : Nat
  qDc : Nat
  lScale : Nat
  hasAlpha : Bool
  geo3 : Nat
  pScale : Nat
  qScale : Nat
  isLandscape : Bool
  aDc : Nat
  aScale : Nat
  deriving DecidableEq, Repr

/-- A chroma DC, `round(31.5 + 31.5 * dc)` in 6 bits (R108). -/
def quantiseChromaDc (N : Num S) (dc : S) : Nat :=
  quantise N 63 (N.add (lit N 63 2) (N.mul (lit N 63 2) dc))

/-- A field `round(top * v)` in the range 0 to `top`: 63, 31 or 15 (R107 to R110). -/
def quantiseField (N : Num S) (top : Nat) (v : S) : Nat := quantise N top (N.mul (N.ofInt top) v)

/-- The first header field `h24` (R61, R107). -/
def HeaderFields.h24 (f : HeaderFields) : Nat :=
  f.lDc ||| (f.pDc <<< 6) ||| (f.qDc <<< 12) ||| (f.lScale <<< 18) ||| (f.hasAlpha.toNat <<< 23)

/-- The second header field `h16` (R62, R107). -/
def HeaderFields.h16 (f : HeaderFields) : Nat :=
  f.geo3 ||| (f.pScale <<< 3) ||| (f.qScale <<< 9) ||| (f.isLandscape.toNat <<< 15)

/-- The alpha byte (R63, R110). -/
def HeaderFields.alphaByte (f : HeaderFields) : Nat := f.aDc ||| (f.aScale <<< 4)

/-- The header bytes (R60, R107): `h24`, `h16` little-endian, and the alpha byte if `has_alpha`. -/
def HeaderFields.toBytes (f : HeaderFields) : List Byte :=
  [BitVec.ofNat 8 f.h24, BitVec.ofNat 8 (f.h24 >>> 8), BitVec.ofNat 8 (f.h24 >>> 16),
    BitVec.ofNat 8 f.h16, BitVec.ofNat 8 (f.h16 >>> 8)]
    ++ (if f.hasAlpha then [BitVec.ofNat 8 f.alphaByte] else [])

/-- The four channel workspaces of one image; `a` is used only when `has_alpha` (R34). -/
structure Channels (S : Type) where
  l : Channel S
  p : Channel S
  q : Channel S
  a : Channel S

/-- The fields `HeaderPack` computes (R104, R107); `GEO3` is the unfloored side, `is_landscape ? ly :
lx`. The alpha fields are written only when `has_alpha`. -/
def headerFields (N : Num S) (ch : Channels S) (hasAlpha isLandscape : Bool) (lx ly : Nat) :
    HeaderFields where
  lDc := quantiseField N 63 ch.l.dc
  pDc := quantiseChromaDc N ch.p.dc
  qDc := quantiseChromaDc N ch.q.dc
  lScale := quantiseField N 31 ch.l.scale
  hasAlpha := hasAlpha
  geo3 := if isLandscape then ly else lx
  pScale := quantiseField N 63 ch.p.scale
  qScale := quantiseField N 63 ch.q.scale
  isLandscape := isLandscape
  aDc := if hasAlpha then quantiseField N 15 ch.a.dc else 0
  aScale := if hasAlpha then quantiseField N 15 ch.a.scale else 0

/-- The header bytes followed by zero bytes, 32 in all: the zeroed buffer of R139 step 6 with the
header of step 7 written to it. -/
def headerBuffer (f : HeaderFields) : List Byte :=
  f.toBytes ++ List.replicate (hashCap - hdrLen f.hasAlpha) 0

/-! ## Parse -/

/-- `h24` of a hash (R60, R112). -/
def h24Of (h : List Byte) : Nat :=
  (hashByte h 0).toNat ||| ((hashByte h 1).toNat <<< 8) ||| ((hashByte h 2).toNat <<< 16)

/-- `h16` of a hash (R60, R112). -/
def h16Of (h : List Byte) : Nat := (hashByte h 3).toNat ||| ((hashByte h 4).toNat <<< 8)

/-- The unfloored geometry of a hash (R111): `(lx, ly)` from the limit and `GEO3`. -/
def hashGeometry (hasAlpha isLandscape : Bool) (g : Nat) : Nat × Nat :=
  if isLandscape then (limitOf hasAlpha, g) else (g, limitOf hasAlpha)

/-- "Inconsistent geometry fields" (R113): `GEO3` is 0 or above the limit. -/
def geometryBad (hasAlpha : Bool) (g : Nat) : Bool := decide (g = 0 ∨ g > limitOf hasAlpha)

/-- The mode bits and geometry of a hash (R111, R134). -/
structure HashShape where
  hasAlpha : Bool
  isLandscape : Bool
  geo3 : Nat
  lx : Nat
  ly : Nat
  deriving DecidableEq, Repr

/-- Reading the mode bits and `GEO3` from bytes 2, 3 and 4 (R67, R112, R134). -/
def hashShape (h : List Byte) : HashShape :=
  let hasAlpha := hashHasAlpha (hashByte h 2)
  let isLandscape := hashIsLandscape (hashByte h 4)
  let g := (hashByte h 3).toNat &&& 7
  let lxy := hashGeometry hasAlpha isLandscape g
  { hasAlpha := hasAlpha, isLandscape := isLandscape, geo3 := g, lx := lxy.1, ly := lxy.2 }

/-- The checks ASPECT makes (R114, R134), and the first two of DECODE (R113): the length of 5 bytes,
then the geometry. -/
def parseShape (hashLen : Nat) (h : List Byte) : Except ErrCode HashShape :=
  if hashLen < 5 then .error .malformedLen
  else
    let sh := hashShape h
    if geometryBad sh.hasAlpha sh.geo3 then .error .malformedGeom else .ok sh

/-- `HeaderParse(full = 1)` without the dequantisers (R113): the two checks of `parseShape`, then
`HASH_LEN < need`. -/
def parseFull (hashLen : Nat) (h : List Byte) : Except ErrCode HashShape :=
  match parseShape hashLen h with
  | .error c => .error c
  | .ok sh => if hashLen < hashLenFor sh.hasAlpha sh.lx sh.ly then .error .malformedLen else .ok sh

/-- The dequantised header (R112). -/
structure Header (S : Type) where
  lDc : S
  pDc : S
  qDc : S
  aDc : S
  lScale : S
  pScale : S
  qScale : S
  aScale : S

/-- A field of `len` bits of a header word, from bit `lo` on. -/
def field (v lo len : Nat) : Nat := (v >>> lo) &&& (2 ^ len - 1)

/-- A chroma DC, `ofInt(d) / 31.5 - 1` (R112). -/
def dequantiseChromaDc (N : Num S) (d : Nat) : S :=
  N.sub (N.div (N.ofInt d) (lit N 63 2)) N.one

/-- A field `ofInt(d) / top` (R112). -/
def dequantiseField (N : Num S) (top d : Nat) : S := N.div (N.ofInt d) (N.ofInt top)

/-- The header dequantisers (R112); without an alpha byte `a_dc = 1`, `a_scale = 0`. -/
def dequantiseHeader (N : Num S) (h : List Byte) (hasAlpha : Bool) : Header S where
  lDc := dequantiseField N 63 (field (h24Of h) 0 6)
  pDc := dequantiseChromaDc N (field (h24Of h) 6 6)
  qDc := dequantiseChromaDc N (field (h24Of h) 12 6)
  lScale := dequantiseField N 31 (field (h24Of h) 18 5)
  pScale := dequantiseField N 63 (field (h16Of h) 3 6)
  qScale := dequantiseField N 63 (field (h16Of h) 9 6)
  aDc := if hasAlpha then dequantiseField N 15 (field (hashByte h 5).toNat 0 4) else N.one
  aScale := if hasAlpha then dequantiseField N 15 (field (hashByte h 5).toNat 4 4) else N.zero

end Sys2Proof.Machine
end

