-- ==== Sys2Proof/Machine/Reconstruct.lean ====
section
/-! DEFINITION. The reconstruction unit (44_reconstruction.md): the output size, the inverse DCT per
pixel, LPQA to RGB, the clamp and the pixel quantiser. -/

namespace Sys2Proof.Machine

variable {S : Type}

/-- The rounded short side of the output, `(64 * s + limit) div (2 * limit)` (R121). -/
def shortSide (hasAlpha : Bool) (s : Nat) : Nat := (64 * s + limitOf hasAlpha) / (2 * limitOf hasAlpha)

/-- The output size (R121): 32 along the longer side. If `is_landscape` the short side is the height. -/
def outSize (sh : HashShape) : Nat × Nat :=
  if sh.isLandscape then (outMax, shortSide sh.hasAlpha sh.geo3)
  else (shortSide sh.hasAlpha sh.geo3, outMax)

/-- `cos(pi / n * (x + 0.5) * c)`, the argument evaluated left to right (R122). -/
def evalCos (N : Num S) (n x c : Nat) : S :=
  N.cos (N.mul (N.mul (N.div N.pi (N.ofInt n)) (halfStep N x)) (N.ofInt c))

/-- A cosine table `fx` or `fy` of one output column or row (R122). -/
def cosTable (N : Num S) (n count x : Nat) : List S := (List.range count).map (evalCos N n x)

/-- A table entry; every frequency of a channel lies inside the table (R122). -/
def entry (N : Num S) (t : List S) (c : Nat) : S := t.getD c N.zero

/-- One term of the inverse DCT: `v + ((ac[j] * fx[cx]) * fy[cy]) * 2` (R123). -/
def addTerm (N : Num S) (fx fy : List S) (v : S) (t : S × (Nat × Nat)) : S :=
  N.add v (N.mul (N.mul (N.mul t.1 (entry N fx t.2.1)) (entry N fy t.2.2)) (N.ofInt 2))

/-- `Eval(dc, ac, nx, ny)` (R123), the terms in scan order. -/
def evalChannel (N : Num S) (fx fy : List S) (dc : S) (ac : List S) (nx ny : Nat) : S :=
  (ac.zip (terms nx ny)).foldl (addTerm N fx fy) dc

/-- Scalar colour components. -/
structure Rgb (S : Type) where
  r : S
  g : S
  b : S

/-- LPQA to RGB (R124): `b = l - (2/3) * p`, `r = (((3*l) - b) + q) / 2`, `g = r - q`. -/
def rgbOf (N : Num S) (l p q : S) : Rgb S :=
  let b := N.sub l (N.mul (lit N 2 3) p)
  let r := N.div (N.add (N.sub (N.mul (N.ofInt 3) l) b) q) (N.ofInt 2)
  { r := r, g := N.sub r q, b := b }

/-- Clamp and quantise one member: `round(255 * clamp01(v))` (R125, R127). -/
def quantiseMember (N : Num S) (v : S) : Byte :=
  BitVec.ofNat 8 (quantise N 255 (N.mul (N.ofInt 255) (clamp01 N v)))

/-- The 8-bit pixel of scalar channel values (R124, R125, R127); shared with AVGCOL (R132). -/
def pixelOf (N : Num S) (l p q a : S) : Pixel :=
  let c := rgbOf N l p q
  { r := quantiseMember N c.r, g := quantiseMember N c.g, b := quantiseMember N c.b
    a := quantiseMember N a }

/-- The AC sequences DECODE reads, in channel order L, P, Q, A (R64, R140 step 2). -/
structure Coefficients (S : Type) where
  l : List S
  p : List S
  q : List S
  a : List S

/-- One output pixel (R123, R126): without an alpha channel `a = 1`. -/
def evalPixel (N : Num S) (sh : HashShape) (hd : Header S) (co : Coefficients S) (fx fy : List S) :
    Pixel :=
  pixelOf N (evalChannel N fx fy hd.lDc co.l (max minL sh.lx) (max minL sh.ly))
    (evalChannel N fx fy hd.pDc co.p pqN pqN) (evalChannel N fx fy hd.qDc co.q pqN pqN)
    (if sh.hasAlpha then evalChannel N fx fy hd.aDc co.a aN aN else N.one)

/-- The number of table entries on an axis: "up to the max needed frequency across all channels"
(R122). -/
def tableSize (hasAlpha : Bool) (n : Nat) : Nat := max n (if hasAlpha then aN else pqN)

/-- `Reconstruct` (R119, R128): the pixels in row-major order, `y` outer and `x` inner. -/
def reconstruct (N : Num S) (sh : HashShape) (hd : Header S) (co : Coefficients S) : List Pixel :=
  let w := (outSize sh).1
  let h := (outSize sh).2
  let columns := (List.range w).map (cosTable N w (tableSize sh.hasAlpha (max minL sh.lx)))
  (List.range h).flatMap fun y =>
    let fy := cosTable N h (tableSize sh.hasAlpha (max minL sh.ly)) y
    columns.map fun fx => evalPixel N sh hd co fx fy

end Sys2Proof.Machine
end

