-- ==== Sys2Proof/Machine/Metadata.lean ====
section
/-! DEFINITION. The metadata extractor unit (45_metadata_extractors.md): the average colour and the
approximate aspect ratio of a hash, from its header alone. -/

namespace Sys2Proof.Machine

variable {S : Type}

/-- The length checks of AVGCOL (R114, R131): 5 bytes, and 6 with the alpha flag. -/
def averageCheck (hashLen : Nat) (h : List Byte) : Option ErrCode :=
  if hashLen < 5 then some .malformedLen
  else if hashHasAlpha (hashByte h 2) && decide (hashLen < 6) then some .malformedLen
  else none

/-- The average colour (R132): the header's DC values through R124, R125 and R127. -/
def averageColor (N : Num S) (h : List Byte) : Pixel :=
  let hd := dequantiseHeader N h (hashHasAlpha (hashByte h 2))
  pixelOf N hd.lDc hd.pDc hd.qDc hd.aDc

/-- The approximate aspect ratio (R134): numerator and denominator, unfloored. -/
def aspectOf (sh : HashShape) : Aspect := ⟨BitVec.ofNat 3 sh.lx, BitVec.ofNat 3 sh.ly⟩

end Sys2Proof.Machine
end

