-- ==== Sys2Proof/Machine/Commands.lean ====
section
/-! DEFINITION. The meanings of the five commands (46_commands.md R138 to R142). Each result is a
pure function of the command's operands (R150), over any `Num`; the meaning runs it on the reference
instance `Exact.num`, writes the results, and completes (R144). `execWith` is the five commands over
any `Num`, the open parameter of R7. A command error is raised by
`State.raiseErr` (R151, R155). -/

namespace Sys2Proof.Machine

variable {S : Type}

/-! ## NOP -/

/-- NOP (R138): nothing but the completion with `ERR = 0`. -/
def execNop (s : State) : Host.Outcome State Fault Refusal := .next (s.complete .ok)

/-! ## ENCODE -/

/-- Steps 1 and 2 of ENCODE (R139): too large, then empty (R154). -/
def encodeCheck (w h : Nat) : Option ErrCode :=
  if w > maxDim ∨ h > maxDim then some .tooLarge
  else if w = 0 ∨ h = 0 then some .emptyImage
  else none

/-- What a successful ENCODE writes (R139 step 9). -/
structure EncodeResult where
  hash : List Byte
  hashLen : Nat
  geom : Geom
  counts : Counts
  deriving DecidableEq, Repr

/-- Step 5 of ENCODE (R139): the four channels, with the bounds of R84. -/
def encodeChannels (N : Num S) (w h : Nat) (pixels : List Pixel) (lx ly : Nat) : Channels S :=
  let fields := colorTransform N pixels
  { l := channelEncode N w h (fields.map (·.l)) (max minL lx) (max minL ly)
    p := channelEncode N w h (fields.map (·.p)) pqN pqN
    q := channelEncode N w h (fields.map (·.q)) pqN pqN
    a := channelEncode N w h (fields.map (·.a)) aN aN }

/-- Step 8 of ENCODE (R139): the nibbles of L, P, Q and, with alpha, A, one contiguous stream after the
header (R64, R98). -/
def writeChannels (N : Num S) (ch : Channels S) (hasAlpha : Bool) (h : List Byte) : List Byte :=
  let start := hdrLen hasAlpha
  let afterL := channelWrite N ch.l start h 0
  let afterP := channelWrite N ch.p start afterL.1 afterL.2
  let afterQ := channelWrite N ch.q start afterP.1 afterP.2
  if hasAlpha then (channelWrite N ch.a start afterQ.1 afterQ.2).1 else afterQ.1

/-- Steps 3 to 9 of ENCODE (R139) on an image that passed the checks. -/
def encodeImage (N : Num S) (w h : Nat) (pixels : List Pixel) : EncodeResult :=
  let hasAlpha := imageHasAlpha w h pixels
  let isLandscape := imageIsLandscape w h
  let lxy := geometry w h hasAlpha
  let ch := encodeChannels N w h pixels lxy.1 lxy.2
  let cntL := termCount (max minL lxy.1) (max minL lxy.2)
  let buffer := headerBuffer (headerFields N ch hasAlpha isLandscape lxy.1 lxy.2)
  { hash := writeChannels N ch hasAlpha buffer
    hashLen := hashLenFor hasAlpha lxy.1 lxy.2
    geom := geomOf lxy.1 lxy.2 hasAlpha isLandscape
    counts := countsOf (acTotalOf hasAlpha cntL) cntL }

/-- Writing the results of a successful ENCODE: all 32 bytes of `HASH`, `HASH_LEN`, `GEOM`, `COUNTS`. -/
def State.storeEncode (s : State) (r : EncodeResult) : State :=
  ((s.writeBytes hashBase r.hash).setHashLen (BitVec.ofNat 6 r.hashLen)).setGeometry r.geom r.counts

/-- ENCODE over any `Num`: the state after the command. -/
def encodeWith (N : Num S) (s : State) : State :=
  let w := s.width.toNat
  let h := s.height.toNat
  match encodeCheck w h with
  | some code => s.raiseErr (some .encode) code
  | none => (s.storeEncode (encodeImage N w h (s.image (w * h)))).complete .ok

/-- ENCODE (R139). -/
def execEncode (s : State) : Host.Outcome State Fault Refusal := .next (encodeWith Exact.num s)

/-! ## DECODE -/

/-- Step 2 of DECODE (R140): the AC sequences of L, P, Q and, with alpha, A from one nibble stream. -/
def readChannels (N : Num S) (h : List Byte) (sh : HashShape) (hd : Header S) : Coefficients S :=
  let start := hdrLen sh.hasAlpha
  let l := channelDecode N h start 0 (termCount (max minL sh.lx) (max minL sh.ly)) hd.lScale
  let p := channelDecode N h start l.2 5 (boosted N hd.pScale)
  let q := channelDecode N h start p.2 5 (boosted N hd.qScale)
  { l := l.1, p := p.1, q := q.1
    a := if sh.hasAlpha then (channelDecode N h start q.2 14 hd.aScale).1 else [] }

/-- Steps 2 and 3 of DECODE (R140) on a hash that passed the checks: the decoded image. -/
def decodeImage (N : Num S) (h : List Byte) (sh : HashShape) : List Pixel :=
  let hd := dequantiseHeader N h sh.hasAlpha
  reconstruct N sh hd (readChannels N h sh hd)

/-- Writing the results of a successful DECODE (R140 steps 3 and 4): the first `OUT_W * OUT_H` elements
of `OUT`, `OUT_DIM`, `GEOM`, `COUNTS`. -/
def State.storeDecode (s : State) (sh : HashShape) (pixels : List Pixel) : State :=
  let cntL := termCount (max minL sh.lx) (max minL sh.ly)
  ((s.writeBytes outBase (bytesOfPixels pixels)).setOutDim
      ⟨BitVec.ofNat 6 (outSize sh).1, BitVec.ofNat 6 (outSize sh).2⟩).setGeometry
    (geomOf sh.lx sh.ly sh.hasAlpha sh.isLandscape)
    (countsOf (acTotalOf sh.hasAlpha cntL) cntL)

/-- DECODE over any `Num`: the state after the command. -/
def decodeWith (N : Num S) (s : State) : State :=
  match parseFull s.hashLen.toNat s.hash with
  | .error code => s.raiseErr (some .decode) code
  | .ok sh => (s.storeDecode sh (decodeImage N s.hash sh)).complete .ok

/-- DECODE (R140). -/
def execDecode (s : State) : Host.Outcome State Fault Refusal := .next (decodeWith Exact.num s)

/-! ## AVGCOL and ASPECT -/

/-- AVGCOL over any `Num`: the state after the command. -/
def avgcolWith (N : Num S) (s : State) : State :=
  match averageCheck s.hashLen.toNat s.hash with
  | some code => s.raiseErr (some .avgcol) code
  | none => (s.setAvgRgba (averageColor N s.hash)).complete .ok

/-- AVGCOL (R141). -/
def execAvgcol (s : State) : Host.Outcome State Fault Refusal := .next (avgcolWith Exact.num s)

/-- ASPECT (R142). -/
def execAspect (s : State) : Host.Outcome State Fault Refusal :=
  match parseShape s.hashLen.toNat s.hash with
  | .error code => .next (s.raiseErr (some .aspect) code)
  | .ok sh => .next ((s.setAspect (aspectOf sh)).complete .ok)

/-! ## The commands over any NUM -/

/-- The commands of an engine built on the scalars `N`: `NUM` is an argument of the model (R7, R11,
93_implementation_defined.md U1). NOP and ASPECT form no scalar. `exec` is this on `Exact.num`
(Laws/Operations.lean, `exec_eq_execWith`). -/
def execWith (N : Num S) (i : Instr) (s : State) : Host.Outcome State Fault Refusal :=
  match i with
  | .nop => execNop s
  | .encode => .next (encodeWith N s)
  | .decode => .next (decodeWith N s)
  | .avgcol => .next (avgcolWith N s)
  | .aspect => execAspect s

end Sys2Proof.Machine
end

