-- ==== Sys2Proof/Machine/Engine.lean ====
section
/-! DEFINITION. The moves of the two agents and of the reset input, and which of them is taken at a
step. -/

namespace Sys2Proof.Machine

/-- The engine's one enabled step while `BUSY = 1` (R144): execute the latched command in full, by the
commands `run`. A reserved word is decoded before anything else (R154) and completes with
`ERR_BAD_CMD`, changing nothing else (R143). -/
def engineMoveBy (run : Instr → State → Host.Outcome State Fault Refusal) (s : State) :
    Host.Outcome State Fault Refusal :=
  match commandOf s.cmdLatch with
  | some i => run i s
  | none => .next (s.raiseErr none .badCmd)

/-- The engine's turn: while `BUSY = 0` it has no enabled step (R144) and stays idle (R167). -/
def engineTurnBy (run : Instr → State → Host.Outcome State Fault Refusal) (s : State) :
    Host.Outcome State Fault Refusal :=
  if s.status.busy then engineMoveBy run s else .next s

/-- One step: the agent `turns` names moves, and its turn is used up; with no turn named, the engine
moves while it is busy, else the host's port (DESIGN CHOICE, assumption 5). -/
def nextMoveBy (run : Instr → State → Host.Outcome State Fault Refusal) (s : State) :
    Host.Outcome State Fault Refusal :=
  match s.turns with
  | [] => if s.status.busy then engineMoveBy run s else .next s.hostMove
  | .engine :: rest => engineTurnBy run { s with turns := rest }
  | .host :: rest => .next (State.hostMove { s with turns := rest })
  | .reset dropHeld :: rest => .next (State.assertReset { s with turns := rest } dropHeld)

/-- The move, the turn and the step of the engine whose commands are `exec`: the reference instance of
`NUM`. -/
def engineMove (s : State) : Host.Outcome State Fault Refusal := engineMoveBy exec s

def engineTurn (s : State) : Host.Outcome State Fault Refusal := engineTurnBy exec s

def nextMove (s : State) : Host.Outcome State Fault Refusal := nextMoveBy exec s

/-- The state in which the engine's very next move runs the command word `w`: the word is latched as
the `CMD` write latches it (R137), and the engine has the turn. -/
def State.withCommand (s : State) (w : Word) : State :=
  { s.start w with turns := .engine :: s.turns }

end Sys2Proof.Machine
end

