-- ==== Sys2Proof/Machine/Step.lean ====
section
/-! DEFINITION. One step of the machine, the same machine over any `NUM`, and the placing of a command
where the next step runs it. -/

namespace Sys2Proof.Machine

/-- One step (Machine/Engine.lean) of the engine on the reference instance of `NUM`. -/
def step (s : State) : Host.Outcome State Fault Refusal := nextMove s

/-- One step of the engine built on the scalars `N`: `NUM` is an argument of the model (R7, R11, U1).
State holds no scalar (R36), so it is the same for every `N`; `step` is this on `Exact.num`
(Laws/Operations.lean, `step_eq_stepWith`). -/
def stepWith {S : Type} (N : Num S) (s : State) : Host.Outcome State Fault Refusal :=
  nextMoveBy (execWith N) s

/-- The machine over any `NUM`; `Sys2Proof.core` is its reference instance. -/
def coreWith {S : Type} (N : Num S) : Host.Core where
  State := State
  Fault := Fault
  Refusal := Refusal
  step := stepWith N
  reset := State.reset

/-- The engine fetches nothing (R18): a command is what the host writes to `CMD`. This is the state
after such a write (R137), with the engine's turn next (assumption 8). -/
def State.withFetchWord (s : State) (nbits w : Nat) : State := s.withCommand (tableWord nbits w)

end Sys2Proof.Machine
end

