-- ==== Sys2Proof/Safety.lean ====
section
/-! DEFINITION. What counts as a safe state and a safe step of the engine: the invariants of
10_state.md R39 with the canonical form of the memory, and that the engine is never stuck. -/

namespace Sys2Proof.Machine

/-- `GEOM` and `COUNTS` of one image or hash (R39): nonzero geometry, the floors of 3, the counts, and
the limit on the longer side. -/
structure GeometryConsistent (g : Geom) (c : Counts) : Prop where
  lx_pos : 1 ≤ g.lx.toNat
  ly_pos : 1 ≤ g.ly.toNat
  nxL_eq : g.nxL.toNat = max minL g.lx.toNat
  nyL_eq : g.nyL.toNat = max minL g.ly.toNat
  cntL_eq : c.cntL.toNat = termCount g.nxL.toNat g.nyL.toNat
  acTotal_eq : c.acTotal.toNat = c.cntL.toNat + 10 + (if g.hasAlpha then 14 else 0)
  limit_eq : (if g.isLandscape then g.lx.toNat else g.ly.toNat) = limitOf g.hasAlpha

/-- The size of a decoded image (R27, R39): both sides 5 to 32, the longer one 32. -/
structure OutDimConsistent (d : OutDim) : Prop where
  w_ge : 5 ≤ d.w.toNat
  h_ge : 5 ≤ d.h.toNat
  longer_eq : max d.w.toNat d.h.toNat = outMax

/-- The invariant of the engine: the memory's canonical form, `BUSY` and `DONE` "never both 1" (R22),
and R39, which this model keeps while `BUSY = 1` as well. -/
structure State.Inv (s : State) : Prop where
  mem_wf : Memory.wf s.mem = true
  status_ok : ¬(s.status.busy = true ∧ s.status.done = true)
  hashLen_le : s.hashLen.toNat ≤ hashCap
  geometry_ok : (s.geom = .zero ∧ s.counts = .zero) ∨ GeometryConsistent s.geom s.counts
  outDim_ok : s.outDim = .zero ∨ OutDimConsistent s.outDim
  aspect_ok : s.aspect = .zero ∨ (1 ≤ s.aspect.lx.toNat ∧ 1 ≤ s.aspect.ly.toNat)

/-- A step is safe if the machine goes on (R161, R175: "The engine is never stuck"). -/
def State.GoesOn (s : State) : Prop := ∃ t, step s = .next t

end Sys2Proof.Machine
end

