-- ==== Sys2Proof/Safety/Reference.lean ====
section
/-! DEFINITION. The reference instance of `NUM` as the spec words it: "exact real arithmetic: `S` is the
real numbers, `cos` the real cosine, `pi` the real constant" (00_scope.md R11), and the transforms of
the spec as sums of real numbers. The machine computes with Machine/Exact.lean; statements speak of
the real numbers, and only statements do. -/

namespace Sys2Proof.Machine

/-- `round` of R12 on the real numbers: half away from zero. -/
noncomputable def roundReal (v : ℝ) : ℤ := if 0 ≤ v then ⌊v + 1 / 2⌋ else -⌊-v + 1 / 2⌋

/-- The reference instance of R11. -/
noncomputable def realNum : Num ℝ where
  zero := 0
  one := 1
  pi := Real.pi
  ofInt i := (i : ℝ)
  add a b := a + b
  sub a b := a - b
  mul a b := a * b
  div a b := a / b
  cos a := Real.cos a
  abs a := |a|
  max a b := max a b
  min a b := min a b
  lt a b := decide (a < b)
  round a := roundReal a

/-- `round(255 * clamp01(v))` as an 8-bit member (R125, R127, R132). -/
noncomputable def realMember (v : ℝ) : Byte :=
  BitVec.ofNat 8 (roundReal (255 * max 0 (min 1 v))).toNat

/-- `Proj(F, W, H, cx, cy)` of R89, for a field given by column and row. -/
noncomputable def dctForward (w h : ℕ) (f : ℕ → ℕ → ℝ) (cx cy : ℕ) : ℝ :=
  (∑ y ∈ Finset.range h, ∑ x ∈ Finset.range w,
    f x y * Real.cos (Real.pi / w * cx * (x + 1 / 2)) * Real.cos (Real.pi / h * cy * (y + 1 / 2)))
    / (w * h)

/-- `Eval(dc, ac, nx, ny)` of R123 at pixel `(x, y)` of a `w` by `h` image, the terms numbered as in
R87. -/
noncomputable def dctInverse (w h nx ny : ℕ) (dc : ℝ) (ac : ℕ → ℝ) (x y : ℕ) : ℝ :=
  dc + ∑ j ∈ Finset.range (termCount nx ny),
    ac j * Real.cos (Real.pi / w * (x + 1 / 2) * ((terms nx ny).getD j (0, 0)).1)
      * Real.cos (Real.pi / h * (y + 1 / 2) * ((terms nx ny).getD j (0, 0)).2) * 2

end Sys2Proof.Machine
end

