-- ==== Sys2Proof/Certificates/Slice0/Obligations.lean ====
section
/-! DEFINITION. The statements about the engine, from the numbered rules of the spec. `HASH[k]` is
the byte at offset `0x40 + k`, `PIX[i]` the four bytes from `0x10000 + 4 * i`, `OUT[i]` those from
`0x1000 + 4 * i` (20_memory.md R41). A hypothesis `Memory.wf s.mem = true` is the model's canonical
form of a memory, an invariant of every step (`Obligations.StepKeepsInvariant`). -/

section
open Sys2Proof Sys2Proof.Machine

/-! ## Command words -/

/-- R57: the opcode map, and a word selects a command exactly when all 32 bits match; decoding what the
encoder lays out in memory gives the command back and leaves the rest. -/
def Obligations.DecodeEncodeAgree : Prop :=
  (encode .nop = 0x00000000#32 ∧ encode .encode = 0x00000001#32 ∧ encode .decode = 0x00000002#32 ∧
      encode .avgcol = 0x00000003#32 ∧ encode .aspect = 0x00000004#32) ∧
    (∀ (w : Word) (i : Instr), decodeCommand w = .ok i ↔ w = encode i) ∧
    ∀ (i : Instr) (rest : List Byte), decodeBytes (encodeBytes i ++ rest) = .ok (i, rest)

/-- R58: every word other than the five is reserved, and refused under the name of what is wrong
with it: a non-zero bit in 31:8, or an opcode of 0x05 to 0xFF. -/
def Obligations.ReservedWordsRefused : Prop :=
  ∀ w : Word,
    (commandOf w = none ↔ 4 < w.toNat) ∧
    (CommandWord.wellFormed w = true ↔ ∃ i, decodeCommand w = .ok i) ∧
    (256 ≤ w.toNat → decodeCommand w = .error .reservedBits) ∧
    (4 < w.toNat → w.toNat < 256 →
      decodeCommand w = .error (.reservedOpcode (BitVec.ofNat 8 w.toNat)))

/-- R57: the five rows of the opcode map, each decoded from its bytes in memory order. -/
def Obligations.CommandWordsDecode : Prop :=
  decodeBytes [0x00#8, 0x00#8, 0x00#8, 0x00#8] = .ok (.nop, []) ∧
    decodeBytes [0x01#8, 0x00#8, 0x00#8, 0x00#8] = .ok (.encode, []) ∧
    decodeBytes [0x02#8, 0x00#8, 0x00#8, 0x00#8] = .ok (.decode, []) ∧
    decodeBytes [0x03#8, 0x00#8, 0x00#8, 0x00#8] = .ok (.avgcol, []) ∧
    decodeBytes [0x04#8, 0x00#8, 0x00#8, 0x00#8] = .ok (.aspect, []) ∧
    decodeTableWord 32 0x00000004 = some .aspect ∧
    decodeTableWord 32 0x00000005 = none ∧
    decodeTableWord 32 0x00000101 = none

/-! ## Steps -/

/-- R144: while `BUSY = 1` the engine's one enabled step executes the command that `CMD_LATCH`
selects, and ends a reserved word with `ERR_BAD_CMD`; it takes place when the engine has the turn, or
when no turn is named (the turns are the model's, log entry 5, DESIGN CHOICE). The same of a command placed for
the very next step (the model's, log entry 8, DESIGN CHOICE). -/
def Obligations.StepRunsLatchedCommand : Prop :=
  (∀ (s : State) (i : Instr), s.status.busy = true → commandOf s.cmdLatch = some i →
    (s.turns = [] → step s = exec i s) ∧
    (∀ rest, s.turns = .engine :: rest → step s = exec i { s with turns := rest })) ∧
  (∀ s : State, s.status.busy = true → 4 < s.cmdLatch.toNat →
    (s.turns = [] → step s = .next { s with status := ⟨false, true, .badCmd⟩ }) ∧
    (∀ rest, s.turns = .engine :: rest →
      step s = .next { s with turns := rest, status := ⟨false, true, .badCmd⟩ })) ∧
  ∀ (s : State) (i : Instr), step (s.withFetchWord 32 (encode i).toNat) = exec i (s.start (encode i))

/-- R143, R58: the `CMD` write of a reserved word gets `OKAY` and starts a command, which completes with
`ERR_BAD_CMD` and writes nothing but `STATUS`. -/
def Obligations.ReservedWordCompletes : Prop :=
  ∀ (s : State) (w : Word), 4 < w.toNat →
    s.transact (.write 0x04 4 w) = (.write .okay, s.start w) ∧
    engineTurn (s.start w) = .next { s.start w with status := ⟨false, true, .badCmd⟩ }

/-- R175, R144, R161: the engine is never stuck. Every step answers a next state, and the engine's
step while `BUSY = 1` ends the command: `BUSY = 0` and `DONE = 1` after it. That a step with no turn
named is the busy engine's is the model's choice (log entry 5, DESIGN CHOICE); the step at a turn
`.engine` is in `Obligations.StepRunsLatchedCommand`. -/
def Obligations.EveryCommandEnds : Prop :=
  (∀ s : State, ∃ t, step s = .next t) ∧
    ∀ s : State, s.status.busy = true → s.turns = [] →
      ∃ t, step s = .next t ∧ t.status.busy = false ∧ t.status.done = true

/-- R144, R167: while `BUSY = 0` the engine has no enabled step. In the model its turn is then a step
that only uses up its entry of `turns`, and with no turn named and no transaction to complete a step
leaves the machine as it is: both are the model's choice (log entry 5, DESIGN CHOICE). -/
def Obligations.IdleEngineDoesNothing : Prop :=
  ∀ s : State, s.status.busy = false →
    (∀ rest, s.turns = .engine :: rest → step s = .next { s with turns := rest }) ∧
    (s.turns = [] → s.port = [] → step s = .next s)

/-- R152: the codes each command can store in `STATUS.ERR`. -/
def Obligations.ErrorCodesPerCommand : Prop :=
  ∀ s t : State,
    (exec .nop s = .next t → t.status.err = .ok) ∧
    (exec .encode s = .next t →
      t.status.err = .ok ∨ t.status.err = .tooLarge ∨ t.status.err = .emptyImage) ∧
    (exec .decode s = .next t →
      t.status.err = .ok ∨ t.status.err = .malformedLen ∨ t.status.err = .malformedGeom) ∧
    (exec .avgcol s = .next t → t.status.err = .ok ∨ t.status.err = .malformedLen) ∧
    (exec .aspect s = .next t →
      t.status.err = .ok ∨ t.status.err = .malformedLen ∨ t.status.err = .malformedGeom)

/-! ## NOP -/

/-- R138: NOP completes with `ERR = 0` and changes nothing else. -/
def Obligations.NopCompletes : Prop :=
  ∀ s : State, exec .nop s = .next { s with status := ⟨false, true, .ok⟩ }

/-! ## ASPECT -/

/-- R134, R142: ASPECT tests the length of 5 bytes, then the geometry; on either error `ASPECT` is
cleared, on success it holds the unfloored pair `(lx, ly)`, and nothing else is written. -/
def Obligations.AspectIsRule : Prop :=
  ∀ (s : State) (alpha landscape : Bool) (g limit : ℕ), Memory.wf s.mem = true →
    alpha = (s.readByte 0x42).getLsbD 7 → landscape = (s.readByte 0x44).getLsbD 7 →
    g = (s.readByte 0x43).toNat % 8 → limit = (if alpha then 5 else 7) →
    (5 ≤ s.hashLen.toNat → 1 ≤ g → g ≤ limit →
      exec .aspect s = .next
        { s with
          aspect := ⟨BitVec.ofNat 3 (if landscape then limit else g),
            BitVec.ofNat 3 (if landscape then g else limit)⟩
          status := ⟨false, true, .ok⟩ }) ∧
    (s.hashLen.toNat < 5 →
      exec .aspect s = .next { s with aspect := .zero, status := ⟨false, true, .malformedLen⟩ }) ∧
    (5 ≤ s.hashLen.toNat → g = 0 ∨ limit < g →
      exec .aspect s = .next { s with aspect := .zero, status := ⟨false, true, .malformedGeom⟩ })

/-! ## AVGCOL -/

/-- R132: AVGCOL computes, on the real numbers, the colour of the header's DC values by the inverse
matrix, clamp and rounding, stores it in `AVG_RGBA` and changes nothing else. -/
def Obligations.AvgcolResult : Prop :=
  ∀ (s : State) (alpha : Bool) (h24 : ℕ) (l p q a r g b : ℝ), Memory.wf s.mem = true →
    alpha = (s.readByte 0x42).getLsbD 7 →
    h24 = (s.readByte 0x40).toNat + 2 ^ 8 * (s.readByte 0x41).toNat
      + 2 ^ 16 * (s.readByte 0x42).toNat →
    (if alpha then 6 else 5) ≤ s.hashLen.toNat →
    l = (h24 % 64 : ℕ) / 63 → p = (h24 / 2 ^ 6 % 64 : ℕ) / (63 / 2) - 1 →
    q = (h24 / 2 ^ 12 % 64 : ℕ) / (63 / 2) - 1 →
    a = (if alpha then (((s.readByte 0x45).toNat % 16 : ℕ) : ℝ) / 15 else 1) →
    b = l - 2 / 3 * p → r = (3 * l - b + q) / 2 → g = r - q →
    exec .avgcol s = .next
      { s with
        avgRgba := ⟨realMember r, realMember g, realMember b, realMember a⟩
        status := ⟨false, true, .ok⟩ }

/-- R131, R155: with fewer than 5 bytes, or 6 when the alpha flag is set, AVGCOL clears `AVG_RGBA`,
completes with `ERR_MALFORMED_LEN` and changes nothing else; the geometry is not looked at. -/
def Obligations.AvgcolErrors : Prop :=
  ∀ (s : State) (alpha : Bool), Memory.wf s.mem = true → alpha = (s.readByte 0x42).getLsbD 7 →
    s.hashLen.toNat < (if alpha then 6 else 5) →
    exec .avgcol s = .next { s with avgRgba := .zero, status := ⟨false, true, .malformedLen⟩ }

/-- R133 (a): AVGCOL's result and `STATUS` are the same in two states that agree on `HASH_LEN`, on
`HASH[0]` to `HASH[2]` and, with the alpha flag, on `HASH[5]`, whatever else differs. -/
def Obligations.AvgcolReadsDcOnly : Prop :=
  ∀ s s' t t' : State, Memory.wf s.mem = true → Memory.wf s'.mem = true →
    s.hashLen = s'.hashLen →
    (∀ k < 3, s.readByte (0x40 + k) = s'.readByte (0x40 + k)) →
    ((s.readByte 0x42).getLsbD 7 = true → s.readByte 0x45 = s'.readByte 0x45) →
    exec .avgcol s = .next t → exec .avgcol s' = .next t' →
    t.avgRgba = t'.avgRgba ∧ t.status = t'.status

/-- R141, R142, R145: the frame of NOP, AVGCOL and ASPECT. Every byte of memory and every register is
unchanged but `STATUS` and, for AVGCOL, `AVG_RGBA`, for ASPECT, `ASPECT`. -/
def Obligations.HeaderCommandsFrame : Prop :=
  ∀ (i : Instr) (s t : State), i = .nop ∨ i = .avgcol ∨ i = .aspect → exec i s = .next t →
    (∀ k, t.readByte k = s.readByte k) ∧ t.cmdLatch = s.cmdLatch ∧ t.width = s.width ∧
      t.height = s.height ∧ t.hashLen = s.hashLen ∧ t.geom = s.geom ∧ t.counts = s.counts ∧
      t.outDim = s.outDim ∧ (i ≠ .avgcol → t.avgRgba = s.avgRgba) ∧
      (i ≠ .aspect → t.aspect = s.aspect) ∧ t.epoch = s.epoch ∧ t.port = s.port ∧
      t.turns = s.turns ∧ t.replies = s.replies

/-! ## ENCODE -/

/-- R139, R153 to R155: ENCODE on a size over 100, else on an empty image, completes with the code of
the first test that fails; `HASH` is zeroed, `HASH_LEN`, `GEOM` and `COUNTS` are cleared. -/
def Obligations.EncodeErrors : Prop :=
  ∀ s : State,
    s.width.toNat > 100 ∨ s.height.toNat > 100 ∨ s.width.toNat = 0 ∨ s.height.toNat = 0 →
    ∃ t, exec .encode s = .next t ∧
      t.status = ⟨false, true,
        if s.width.toNat > 100 ∨ s.height.toNat > 100 then .tooLarge else .emptyImage⟩ ∧
      (∀ k < 32, t.readByte (0x40 + k) = 0) ∧ t.hashLen = 0 ∧ t.geom = .zero ∧ t.counts = .zero

/-- R139, R157, R81, R83, R105: ENCODE completes on every image of 1 to 100 by 1 to 100 pixels, with
the geometry, the counts and the hash length those rules give. The alpha flag is stated as R81 does:
some pixel has `p.a != 255`. -/
def Obligations.EncodeCompletes : Prop :=
  ∀ (s : State) (w h limit lx ly cntL acTotal : ℕ) (alpha : Bool), Memory.wf s.mem = true →
    w = s.width.toNat → h = s.height.toNat → 1 ≤ w → w ≤ 100 → 1 ≤ h → h ≤ 100 →
    (alpha = true ↔ ∃ i < w * h, s.readByte (0x10000 + 4 * i + 3) ≠ 255) →
    limit = (if alpha then 5 else 7) →
    (lx : ℤ) = max 1 (roundReal ((limit * w : ℕ) / (max w h : ℕ))) →
    (ly : ℤ) = max 1 (roundReal ((limit * h : ℕ) / (max w h : ℕ))) →
    cntL = termCount (max 3 lx) (max 3 ly) →
    acTotal = cntL + 5 + 5 + (if alpha then 14 else 0) →
    ∃ t, exec .encode s = .next t ∧ t.status = ⟨false, true, .ok⟩ ∧
      t.geom = ⟨BitVec.ofNat 3 lx, BitVec.ofNat 3 ly, alpha, decide (w > h),
        BitVec.ofNat 3 (max 3 lx), BitVec.ofNat 3 (max 3 ly)⟩ ∧
      t.counts = ⟨BitVec.ofNat 6 acTotal, BitVec.ofNat 5 cntL⟩ ∧
      t.hashLen.toNat = (if alpha then 6 else 5) + ceilDiv acTotal 2

/-- R11, R139: ENCODE, computed by the machine's exact scalars, is ENCODE over the real numbers: the
reference instance of `NUM`, in every state. -/
def Obligations.EncodeIsReference : Prop :=
  ∀ s : State, exec .encode s = .next (encodeWith realNum s)

/-- R107, R84: the header bytes after a successful ENCODE hold the rounded DC values and scales of the
four channels, the geometry and the flags, in the places of R61 to R63. Each channel is that of its own
field of the real-number colour transform, with the bounds of R84: L floored at 3, P and Q 3 by 3, A,
only with alpha, 5 by 5. -/
def Obligations.EncodeHeaderFields : Prop :=
  ∀ (s t : State) (w h lx ly : ℕ) (alpha : Bool) (fields : List (Lpqa ℝ)) (ch : Channels ℝ)
    (b : ℕ → ℕ),
    Memory.wf s.mem = true → w = s.width.toNat → h = s.height.toNat →
    1 ≤ w → w ≤ 100 → 1 ≤ h → h ≤ 100 →
    alpha = imageHasAlpha w h (s.image (w * h)) → (lx, ly) = geometry w h alpha →
    fields = colorTransform realNum (s.image (w * h)) →
    ch.l = channelEncode realNum w h (fields.map (·.l)) (max 3 lx) (max 3 ly) →
    ch.p = channelEncode realNum w h (fields.map (·.p)) 3 3 →
    ch.q = channelEncode realNum w h (fields.map (·.q)) 3 3 →
    (alpha = true → ch.a = channelEncode realNum w h (fields.map (·.a)) 5 5) →
    exec .encode s = .next t → (∀ k, b k = (t.readByte (0x40 + k)).toNat) →
    ((b 0 + 2 ^ 8 * b 1 + 2 ^ 16 * b 2 : ℕ) : ℤ) =
        roundReal (63 * ch.l.dc) + 2 ^ 6 * roundReal (63 / 2 + 63 / 2 * ch.p.dc)
          + 2 ^ 12 * roundReal (63 / 2 + 63 / 2 * ch.q.dc) + 2 ^ 18 * roundReal (31 * ch.l.scale)
          + 2 ^ 23 * (if alpha then 1 else 0) ∧
      ((b 3 + 2 ^ 8 * b 4 : ℕ) : ℤ) =
        ((if w > h then ly else lx : ℕ) : ℤ) + 2 ^ 3 * roundReal (63 * ch.p.scale)
          + 2 ^ 9 * roundReal (63 * ch.q.scale) + 2 ^ 15 * (if w > h then 1 else 0) ∧
      (alpha = true → (b 5 : ℤ) = roundReal (15 * ch.a.dc) + 2 ^ 4 * roundReal (15 * ch.a.scale))

/-- R64, R84, R97 to R99, R139: the payload after a successful ENCODE is one nibble stream,
`round(15 * v)` for the normalised terms of L, P, Q and, with alpha, A, low nibble first; the pad nibble
of R65 and every byte at and above the hash length are zero. Each channel is that of its own field of the
real-number colour transform, with the bounds of R84. -/
def Obligations.EncodeNibbleStream : Prop :=
  ∀ (s t : State) (w h lx ly start : ℕ) (alpha : Bool) (fields : List (Lpqa ℝ)) (ch : Channels ℝ)
    (vs : List ℝ) (nib : ℕ → ℕ),
    Memory.wf s.mem = true → w = s.width.toNat → h = s.height.toNat →
    1 ≤ w → w ≤ 100 → 1 ≤ h → h ≤ 100 →
    alpha = imageHasAlpha w h (s.image (w * h)) → (lx, ly) = geometry w h alpha →
    fields = colorTransform realNum (s.image (w * h)) →
    ch.l = channelEncode realNum w h (fields.map (·.l)) (max 3 lx) (max 3 ly) →
    ch.p = channelEncode realNum w h (fields.map (·.p)) 3 3 →
    ch.q = channelEncode realNum w h (fields.map (·.q)) 3 3 →
    (alpha = true → ch.a = channelEncode realNum w h (fields.map (·.a)) 5 5) →
    vs = ch.l.ac ++ ch.p.ac ++ ch.q.ac ++ (if alpha then ch.a.ac else []) →
    start = (if alpha then 6 else 5) → exec .encode s = .next t →
    (∀ j, nib j = (t.readByte (0x40 + start + j / 2)).toNat / 16 ^ (j % 2) % 16) →
    (∀ (j : ℕ) (hj : j < vs.length), (nib j : ℤ) = roundReal (15 * vs[j])) ∧
      ∀ j, vs.length ≤ j → start + j / 2 < 32 → nib j = 0

/-- R139, R145: the frame of ENCODE, on success and on failure. Every byte outside `HASH` and every
register is unchanged but `HASH_LEN`, `GEOM`, `COUNTS` and `STATUS`. -/
def Obligations.EncodeFrame : Prop :=
  ∀ s t : State, exec .encode s = .next t →
    (∀ k, k < 0x40 ∨ 0x60 ≤ k → t.readByte k = s.readByte k) ∧ t.cmdLatch = s.cmdLatch ∧
      t.width = s.width ∧ t.height = s.height ∧ t.outDim = s.outDim ∧ t.avgRgba = s.avgRgba ∧
      t.aspect = s.aspect ∧ t.epoch = s.epoch ∧ t.port = s.port ∧ t.turns = s.turns ∧
      t.replies = s.replies

/-- R150: ENCODE's results are a function of its operands. Two states that agree on `WIDTH`, `HEIGHT`
and the first `WIDTH * HEIGHT` pixels give the same hash, registers and `STATUS`. Pixels of alpha 0
need agree on their alpha only (R82). -/
def Obligations.EncodeIsPure : Prop :=
  ∀ s s' t t' : State, Memory.wf s.mem = true → Memory.wf s'.mem = true →
    s.width = s'.width → s.height = s'.height →
    (∀ i < s.width.toNat * s.height.toNat,
      s.readByte (0x10000 + 4 * i + 3) = s'.readByte (0x10000 + 4 * i + 3) ∧
      (s.readByte (0x10000 + 4 * i + 3) ≠ 0 →
        ∀ k < 3, s.readByte (0x10000 + 4 * i + k) = s'.readByte (0x10000 + 4 * i + k))) →
    exec .encode s = .next t → exec .encode s' = .next t' →
    (∀ k < 32, t.readByte (0x40 + k) = t'.readByte (0x40 + k)) ∧ t.hashLen = t'.hashLen ∧
      t.geom = t'.geom ∧ t.counts = t'.counts ∧ t.status = t'.status

/-! ## DECODE -/

/-- R113, R154, R155: DECODE's three tests in their order, each with its code; on an error `OUT_DIM`,
`GEOM` and `COUNTS` are cleared and nothing else is written, `OUT` included. -/
def Obligations.DecodeErrors : Prop :=
  ∀ (s : State) (alpha landscape : Bool) (g limit need : ℕ), Memory.wf s.mem = true →
    alpha = (s.readByte 0x42).getLsbD 7 → landscape = (s.readByte 0x44).getLsbD 7 →
    g = (s.readByte 0x43).toNat % 8 → limit = (if alpha then 5 else 7) →
    need = (if alpha then 6 else 5) + ceilDiv
      (termCount (max 3 (if landscape then limit else g)) (max 3 (if landscape then g else limit))
        + 10 + (if alpha then 14 else 0)) 2 →
    (s.hashLen.toNat < 5 → exec .decode s = .next
      { s with
        outDim := .zero, geom := .zero, counts := .zero, status := ⟨false, true, .malformedLen⟩ }) ∧
    (5 ≤ s.hashLen.toNat → g = 0 ∨ limit < g → exec .decode s = .next
      { s with
        outDim := .zero, geom := .zero, counts := .zero, status := ⟨false, true, .malformedGeom⟩ }) ∧
    (5 ≤ s.hashLen.toNat → 1 ≤ g → g ≤ limit → s.hashLen.toNat < need → exec .decode s = .next
      { s with
        outDim := .zero, geom := .zero, counts := .zero, status := ⟨false, true, .malformedLen⟩ })

/-- R140, R111, R121: DECODE completes on every hash that passes the tests, with the output size
`round(32 * s / limit)` on the short side and 32 on the other, and the geometry and counts of the
header. -/
def Obligations.DecodeCompletes : Prop :=
  ∀ (s : State) (alpha landscape : Bool) (g limit lx ly cntL acTotal short : ℕ),
    Memory.wf s.mem = true →
    alpha = (s.readByte 0x42).getLsbD 7 → landscape = (s.readByte 0x44).getLsbD 7 →
    g = (s.readByte 0x43).toNat % 8 → limit = (if alpha then 5 else 7) →
    lx = (if landscape then limit else g) → ly = (if landscape then g else limit) →
    cntL = termCount (max 3 lx) (max 3 ly) → acTotal = cntL + 10 + (if alpha then 14 else 0) →
    1 ≤ g → g ≤ limit → (if alpha then 6 else 5) + ceilDiv acTotal 2 ≤ s.hashLen.toNat →
    (short : ℤ) = roundReal (32 * g / limit) →
    ∃ t, exec .decode s = .next t ∧ t.status = ⟨false, true, .ok⟩ ∧
      t.outDim = (if landscape then ⟨32, BitVec.ofNat 6 short⟩ else ⟨BitVec.ofNat 6 short, 32⟩) ∧
      t.geom = ⟨BitVec.ofNat 3 lx, BitVec.ofNat 3 ly, alpha, landscape,
        BitVec.ofNat 3 (max 3 lx), BitVec.ofNat 3 (max 3 ly)⟩ ∧
      t.counts = ⟨BitVec.ofNat 6 acTotal, BitVec.ofNat 5 cntL⟩

/-- R11, R140, R141: DECODE and AVGCOL, computed by the machine's exact scalars, are DECODE and AVGCOL
over the real numbers, in every state. -/
def Obligations.DecodeIsReference : Prop :=
  ∀ s : State, exec .decode s = .next (decodeWith realNum s) ∧
    exec .avgcol s = .next (avgcolWith realNum s)

/-- R112, R100, R101, R123 to R127: every pixel of the decoded image, as real-number formulas of the
bytes of `HASH`: the dequantised header and nibbles, the inverse DCT of each channel, the inverse
colour matrix, clamp and rounding. -/
def Obligations.DecodePixelIsRule : Prop :=
  ∀ (s t : State) (b : ℕ → ℕ) (alpha landscape : Bool) (h24 h16 g limit lx ly cntL start ow oh : ℕ)
    (nib : ℕ → ℕ) (lDc pDc qDc lSc pSc qSc aDc aSc : ℝ),
    Memory.wf s.mem = true → exec .decode s = .next t → t.status.err = .ok →
    (∀ k, b k = (s.readByte (0x40 + k)).toNat) →
    h24 = b 0 + 2 ^ 8 * b 1 + 2 ^ 16 * b 2 → h16 = b 3 + 2 ^ 8 * b 4 →
    (alpha = true ↔ h24 / 2 ^ 23 % 2 = 1) → (landscape = true ↔ h16 / 2 ^ 15 % 2 = 1) →
    g = h16 % 8 → limit = (if alpha then 5 else 7) →
    lx = (if landscape then limit else g) → ly = (if landscape then g else limit) →
    cntL = termCount (max 3 lx) (max 3 ly) → start = (if alpha then 6 else 5) →
    ow = t.outDim.w.toNat → oh = t.outDim.h.toNat →
    (∀ j, nib j = b (start + j / 2) / 16 ^ (j % 2) % 16) →
    lDc = (h24 % 64 : ℕ) / 63 → pDc = (h24 / 2 ^ 6 % 64 : ℕ) / (63 / 2) - 1 →
    qDc = (h24 / 2 ^ 12 % 64 : ℕ) / (63 / 2) - 1 → lSc = (h24 / 2 ^ 18 % 32 : ℕ) / 31 →
    pSc = (h16 / 2 ^ 3 % 64 : ℕ) / 63 → qSc = (h16 / 2 ^ 9 % 64 : ℕ) / 63 →
    aDc = (b 5 % 16 : ℕ) / 15 → aSc = (b 5 / 16 : ℕ) / 15 →
    ∀ x < ow, ∀ y < oh, ∀ l p q a r g' bl : ℝ,
      l = dctInverse ow oh (max 3 lx) (max 3 ly) lDc (fun j => (nib j / (15 / 2) - 1) * lSc) x y →
      p = dctInverse ow oh 3 3 pDc
        (fun j => (nib (cntL + j) / (15 / 2) - 1) * (pSc * (5 / 4))) x y →
      q = dctInverse ow oh 3 3 qDc
        (fun j => (nib (cntL + 5 + j) / (15 / 2) - 1) * (qSc * (5 / 4))) x y →
      a = (if alpha then dctInverse ow oh 5 5 aDc
        (fun j => (nib (cntL + 10 + j) / (15 / 2) - 1) * aSc) x y else 1) →
      bl = l - 2 / 3 * p → r = (3 * l - bl + q) / 2 → g' = r - q →
      t.outPixel (x + y * ow) = ⟨realMember r, realMember g', realMember bl, realMember a⟩

/-- R140, R145, R32, R128: the frame of DECODE, on success and on failure. `OUT` from element
`OUT_W * OUT_H` on, every other byte of memory and every register is unchanged but `OUT_DIM`, `GEOM`,
`COUNTS` and `STATUS`; a failed DECODE leaves all of `OUT` unchanged. -/
def Obligations.DecodeFrame : Prop :=
  ∀ s t : State, exec .decode s = .next t →
    (∀ k, k < 0x1000 ∨ 0x1000 + 4 * (t.outDim.w.toNat * t.outDim.h.toNat) ≤ k →
      t.readByte k = s.readByte k) ∧
      (t.status.err ≠ .ok → ∀ k, t.readByte k = s.readByte k) ∧
      t.cmdLatch = s.cmdLatch ∧ t.width = s.width ∧ t.height = s.height ∧ t.hashLen = s.hashLen ∧
      t.avgRgba = s.avgRgba ∧ t.aspect = s.aspect ∧ t.epoch = s.epoch ∧ t.port = s.port ∧
      t.turns = s.turns ∧ t.replies = s.replies

/-- R67, R113, R65: two hashes that DECODE accepts and that agree below `need` decode alike, whatever
their lengths and the bytes from `need` on; nor does the pad nibble count (R65). -/
def Obligations.DecodeIgnoresTrailingBytes : Prop :=
  ∀ (s s' t t' : State) (need : ℕ), Memory.wf s.mem = true → Memory.wf s'.mem = true →
    exec .decode s = .next t → exec .decode s' = .next t' →
    t.status.err = .ok → t'.status.err = .ok →
    need = (if t.geom.hasAlpha then 6 else 5) + ceilDiv t.counts.acTotal.toNat 2 →
    (∀ k < need - 1, s.readByte (0x40 + k) = s'.readByte (0x40 + k)) →
    (s.readByte (0x40 + (need - 1))).toNat % (if t.counts.acTotal.toNat % 2 = 1 then 16 else 256)
      = (s'.readByte (0x40 + (need - 1))).toNat
        % (if t.counts.acTotal.toNat % 2 = 1 then 16 else 256) →
    t.outDim = t'.outDim ∧ t.geom = t'.geom ∧ t.counts = t'.counts ∧
      ∀ i < t.outDim.w.toNat * t.outDim.h.toNat, t.outPixel i = t'.outPixel i

/-- R126: without the alpha flag every pixel of the decoded image has `.a = 255`. -/
def Obligations.DecodeOpaqueWithoutAlpha : Prop :=
  ∀ (s t : State), Memory.wf s.mem = true → exec .decode s = .next t → t.status.err = .ok →
    (s.readByte 0x42).getLsbD 7 = false →
    ∀ i < t.outDim.w.toNat * t.outDim.h.toNat, (t.outPixel i).a = 255

/-- R129 (a), R133 (b): when the scales of L, P, Q and, with alpha, A are stored as 0, every pixel of
the decoded image is the colour AVGCOL gives for the same hash. -/
def Obligations.FlatHashDecodesToAverage : Prop :=
  ∀ (s t u : State), Memory.wf s.mem = true → exec .decode s = .next t →
    exec .avgcol s = .next u → t.status.err = .ok →
    (s.readByte 0x42).toNat / 4 % 32 = 0 → (s.readByte 0x43).toNat / 8 = 0 →
    (s.readByte 0x44).toNat % 128 = 0 →
    ((s.readByte 0x42).getLsbD 7 = true → (s.readByte 0x45).toNat / 16 = 0) →
    ∀ i < t.outDim.w.toNat * t.outDim.h.toNat, t.outPixel i = u.avgRgba

/-- R149: after a successful ENCODE, DECODE succeeds, with the same `GEOM` and `COUNTS`, and gives an
image whose longer side is exactly 32 pixels. -/
def Obligations.EncodeThenDecodeSucceeds : Prop :=
  ∀ s t : State, Memory.wf s.mem = true → exec .encode s = .next t → t.status.err = .ok →
    ∃ u, exec .decode t = .next u ∧ u.status.err = .ok ∧ u.geom = t.geom ∧ u.counts = t.counts ∧
      max u.outDim.w.toNat u.outDim.h.toNat = 32

/-! ## Units: colour transform and geometry -/

/-- R77 to R80: the four channel values of every pixel, as real-number formulas: the average colour
weighted twice by alpha, the blend toward it, and the LPQA matrix. -/
def Obligations.ColorTransformIsRule : Prop :=
  ∀ (ps : List Pixel) (al : Pixel → ℝ) (mean : (Pixel → Byte) → ℝ)
    (mix : (Pixel → Byte) → Pixel → ℝ) (tot : ℝ),
    (∀ p, al p = p.a.toNat / 255) → tot = (ps.map al).sum →
    (∀ c, mean c = if 0 < tot
      then (ps.map fun p => al p * al p * (c p).toNat / 255).sum / tot
      else (ps.map fun p => al p * al p * (c p).toNat / 255).sum) →
    (∀ c p, mix c p = mean c * (1 - al p) + al p / 255 * (c p).toNat) →
    colorTransform realNum ps = ps.map fun p =>
      { l := (mix (·.r) p + mix (·.g) p + mix (·.b) p) / 3
        p := (mix (·.r) p + mix (·.g) p) / 2 - mix (·.b) p
        q := mix (·.r) p - mix (·.g) p
        a := al p }

/-- R82: the ranges of the channel values in the reference instance. -/
def Obligations.ColorRanges : Prop :=
  ∀ (ps : List Pixel) (v : Lpqa ℝ), v ∈ colorTransform realNum ps →
    0 ≤ v.l ∧ v.l ≤ 1 ∧ -1 ≤ v.p ∧ v.p ≤ 1 ∧ -1 ≤ v.q ∧ v.q ≤ 1 ∧ 0 ≤ v.a ∧ v.a ≤ 1

/-- R83: the truncation geometry is the rounding, half away from zero, of the real quotient, at least
1, which the integer expression of the rule computes; the longer side gets the limit exactly, neither
exceeds it, and a square image is not landscape. -/
def Obligations.GeometryIsRule : Prop :=
  ∀ (w h limit m : ℕ) (alpha : Bool), 1 ≤ w → 1 ≤ h → limit = (if alpha then 5 else 7) →
    m = max w h →
    ((geometry w h alpha).1 : ℤ) = max 1 (roundReal ((limit * w : ℕ) / m)) ∧
      ((geometry w h alpha).2 : ℤ) = max 1 (roundReal ((limit * h : ℕ) / m)) ∧
      roundReal ((limit * w : ℕ) / m) = ((2 * limit * w + m) / (2 * m) : ℕ) ∧
      (imageIsLandscape w h = true ↔ h < w) ∧
      (h ≤ w → (geometry w h alpha).1 = limit) ∧ (w ≤ h → (geometry w h alpha).2 = limit) ∧
      (geometry w h alpha).1 ≤ limit ∧ (geometry w h alpha).2 ≤ limit

/-! ## Units: forward DCT -/

/-- R87: the term set. A pair is emitted exactly when it is not `(0, 0)` and lies under the triangle,
and the pairs come with `cy` outer and `cx` inner, each once. -/
def Obligations.TermsAreTriangle : Prop :=
  ∀ nx ny : ℕ,
    (∀ cx cy : ℕ, (cx, cy) ∈ terms nx ny ↔
      cy < ny ∧ (cx, cy) ≠ (0, 0) ∧ cx * ny < nx * (ny - cy)) ∧
    (terms nx ny).Pairwise fun c d => c.2 < d.2 ∨ (c.2 = d.2 ∧ c.1 < d.1)

/-- R88: the table of counts, rows `nx` and columns `ny` from 3 to 7, and the sequences the engine uses
most. -/
def Obligations.TermCountTable : Prop :=
  ([3, 4, 5, 6, 7].map fun nx => [3, 4, 5, 6, 7].map fun ny => termCount nx ny) =
    [[5, 8, 10, 11, 14], [8, 9, 13, 15, 18], [10, 13, 14, 19, 22], [11, 15, 19, 20, 26],
      [14, 18, 22, 26, 27]] ∧
  (∀ nx ny, termCount nx ny = (terms nx ny).length) ∧
  terms 3 3 = [(1, 0), (2, 0), (0, 1), (1, 1), (0, 2)] ∧
  terms 5 5 = [(1, 0), (2, 0), (3, 0), (4, 0), (0, 1), (1, 1), (2, 1), (3, 1), (0, 2), (1, 2), (2, 2),
    (0, 3), (1, 3), (0, 4)] ∧
  terms 7 4 = [(1, 0), (2, 0), (3, 0), (4, 0), (5, 0), (6, 0), (0, 1), (1, 1), (2, 1), (3, 1), (4, 1),
    (5, 1), (0, 2), (1, 2), (2, 2), (3, 2), (0, 3), (1, 3)] ∧
  terms 4 7 = [(1, 0), (2, 0), (3, 0), (0, 1), (1, 1), (2, 1), (3, 1), (0, 2), (1, 2), (2, 2), (0, 3),
    (1, 3), (2, 3), (0, 4), (1, 4), (0, 5), (1, 5), (0, 6)] ∧
  ([0, 1, 2, 3, 4, 5, 6].map fun cy => (termRow 7 7 cy).length) = [6, 6, 5, 4, 3, 2, 1]

/-- R89: the projection over the real numbers is the double sum of the rule. -/
def Obligations.ProjectionIsDct : Prop :=
  ∀ (w h : ℕ) (f : List ℝ) (cx cy : ℕ), f.length = w * h →
    proj realNum w h (fieldRows w h f) (cx, cy)
      = dctForward w h (fun x y => f.getD (x + y * w) 0) cx cy

/-- R90 to R92: the channel of a field of real numbers. DC is its mean, the raw terms are its
projections in scan order, `scale` is their largest magnitude and 0 exactly when all are 0, and the
normalised terms are the remapped ones if `scale > 0`. -/
def Obligations.ChannelEncodeIsRule : Prop :=
  ∀ (w h nx ny : ℕ) (f : List ℝ) (raw : List ℝ) (ch : Channel ℝ), 1 ≤ w → 1 ≤ h →
    f.length = w * h → ch = channelEncode realNum w h f nx ny →
    raw = (terms nx ny).map (fun c => dctForward w h (fun x y => f.getD (x + y * w) 0) c.1 c.2) →
    ch.dc = dctForward w h (fun x y => f.getD (x + y * w) 0) 0 0 ∧ ch.dc = f.sum / (w * h) ∧
      ch.ac.length = termCount nx ny ∧ (∀ v ∈ raw, |v| ≤ ch.scale) ∧
      (raw = [] ∨ ∃ v ∈ raw, |v| = ch.scale) ∧ (ch.scale = 0 ↔ ∀ v ∈ raw, v = 0) ∧
      ch.ac = (if 0 < ch.scale then raw.map (fun v => 1 / 2 + 1 / 2 * v / ch.scale) else raw) ∧
      ∀ v ∈ ch.ac, 0 ≤ v ∧ v ≤ 1

/-- R94 (a): on an image of at least 4 by 4 a constant field has only zero AC terms within the bounds
of 7: `scale = 0`, nothing is normalised, and DC is the constant. -/
def Obligations.ConstantFieldHasNoTerms : Prop :=
  ∀ (w h nx ny : ℕ) (c : ℝ), 4 ≤ w → 4 ≤ h → nx ≤ 7 → ny ≤ 7 →
    (channelEncode realNum w h (List.replicate (w * h) c) nx ny).dc = c ∧
      (channelEncode realNum w h (List.replicate (w * h) c) nx ny).scale = 0 ∧
      ∀ v ∈ (channelEncode realNum w h (List.replicate (w * h) c) nx ny).ac, v = 0

/-! ## Units: nibbles and header -/

/-- R96 to R98: nibbles ORed into zero slots are read back in order, and no other slot changes. -/
def Obligations.NibblesReadBack : Prop :=
  ∀ (b : List Byte) (start idx : ℕ) (ds : List ℕ), (∀ d ∈ ds, d < 16) →
    start + (idx + ds.length + 1) / 2 ≤ b.length →
    (∀ j < ds.length, nibbleAt b start (idx + j) = 0) →
    (∀ (j : ℕ) (hj : j < ds.length),
      nibbleAt (writeNibbles b start idx ds) start (idx + j) = ds[j]) ∧
    (∀ j, j < idx ∨ idx + ds.length ≤ j →
      nibbleAt (writeNibbles b start idx ds) start j = nibbleAt b start j) ∧
    ∀ k < start, hashByte (writeNibbles b start idx ds) k = hashByte b k

/-- R99: the AC quantiser over the real numbers is `round(15 * v)`, without a saturation, with the cut
points of the rule; R12's tie at one half gives 8. -/
def Obligations.AcQuantiserCutPoints : Prop :=
  ∀ v : ℝ, 0 ≤ v → v ≤ 1 →
    ((quantiseAc realNum v : ℕ) : ℤ) = roundReal (15 * v) ∧
    (quantiseAc realNum v = 0 ↔ v < 1 / 30) ∧
    (∀ k : ℕ, 1 ≤ k → k ≤ 14 →
      (quantiseAc realNum v = k ↔ (2 * k - 1) / 30 ≤ v ∧ v < (2 * k + 1) / 30)) ∧
    (quantiseAc realNum v = 15 ↔ 29 / 30 ≤ v)

/-- R102: the dequantiser gives the 16 multiples `(2 d - 15) / 15` of the scale, none of them 0 for a
positive scale, all between `-s` and `s`, and it is undone by the quantiser on the normalised
value. -/
def Obligations.AcDequantiserValues : Prop :=
  ∀ (s : ℝ) (d : ℕ), 0 ≤ s → d ≤ 15 →
    dequantiseAc realNum s d = (2 * d - 15) / 15 * s ∧ |dequantiseAc realNum s d| ≤ s ∧
      (0 < s → dequantiseAc realNum s d ≠ 0) ∧
      (0 < s → quantiseAc realNum (1 / 2 + 1 / 2 * dequantiseAc realNum s d / s) = d)

/-- R107, R112, R60 to R63: parsing the packed header gives back every field. -/
def Obligations.HeaderPackParse : Prop :=
  ∀ (f : HeaderFields) (rest : List Byte) (b : List Byte), f.lDc < 64 → f.pDc < 64 → f.qDc < 64 →
    f.lScale < 32 → f.geo3 < 8 → f.pScale < 64 → f.qScale < 64 → f.aDc < 16 → f.aScale < 16 →
    b = f.toBytes ++ rest →
    field (h24Of b) 0 6 = f.lDc ∧ field (h24Of b) 6 6 = f.pDc ∧ field (h24Of b) 12 6 = f.qDc ∧
      field (h24Of b) 18 5 = f.lScale ∧ (hashShape b).hasAlpha = f.hasAlpha ∧
      (hashShape b).geo3 = f.geo3 ∧ (hashShape b).isLandscape = f.isLandscape ∧
      field (h16Of b) 3 6 = f.pScale ∧ field (h16Of b) 9 6 = f.qScale ∧
      (f.hasAlpha = true → field (hashByte b 5).toNat 0 4 = f.aDc ∧
        field (hashByte b 5).toNat 4 4 = f.aScale)

/-- R93, R106: over the real numbers every DC and scale of an image of `w * h` pixels is in its range,
so that every quantised header field fits its width and the saturation of D36 does nothing. -/
def Obligations.HeaderFieldsFit : Prop :=
  ∀ (w h lx ly : ℕ) (ps : List Pixel) (ch : Channels ℝ), 1 ≤ w → 1 ≤ h → ps.length = w * h →
    ch = encodeChannels realNum w h ps lx ly →
    (0 ≤ ch.l.dc ∧ ch.l.dc ≤ 1) ∧ (-1 ≤ ch.p.dc ∧ ch.p.dc ≤ 1) ∧ (-1 ≤ ch.q.dc ∧ ch.q.dc ≤ 1) ∧
      (0 ≤ ch.a.dc ∧ ch.a.dc ≤ 1) ∧ (0 ≤ ch.l.scale ∧ ch.l.scale ≤ 1) ∧
      (0 ≤ ch.p.scale ∧ ch.p.scale ≤ 1) ∧ (0 ≤ ch.q.scale ∧ ch.q.scale ≤ 1) ∧
      (0 ≤ ch.a.scale ∧ ch.a.scale ≤ 1) ∧
      ((quantiseField realNum 63 ch.l.dc : ℕ) : ℤ) = roundReal (63 * ch.l.dc) ∧
      ((quantiseChromaDc realNum ch.p.dc : ℕ) : ℤ) = roundReal (63 / 2 + 63 / 2 * ch.p.dc) ∧
      ((quantiseChromaDc realNum ch.q.dc : ℕ) : ℤ) = roundReal (63 / 2 + 63 / 2 * ch.q.dc) ∧
      ((quantiseField realNum 31 ch.l.scale : ℕ) : ℤ) = roundReal (31 * ch.l.scale) ∧
      ((quantiseField realNum 63 ch.p.scale : ℕ) : ℤ) = roundReal (63 * ch.p.scale) ∧
      ((quantiseField realNum 63 ch.q.scale : ℕ) : ℤ) = roundReal (63 * ch.q.scale) ∧
      ((quantiseField realNum 15 ch.a.dc : ℕ) : ℤ) = roundReal (15 * ch.a.dc) ∧
      ((quantiseField realNum 15 ch.a.scale : ℕ) : ℤ) = roundReal (15 * ch.a.scale)

/-- R66: every legal hash length. For each alpha flag and `GEO3`, in either orientation: `CNT_L`,
`AC_TOTAL`, the payload bytes and the hash length. -/
def Obligations.HashLengthTable : Prop :=
  ∀ row ∈ ([(false, 1, 14, 24, 12, 17), (false, 2, 14, 24, 12, 17), (false, 3, 14, 24, 12, 17),
      (false, 4, 18, 28, 14, 19), (false, 5, 22, 32, 16, 21), (false, 6, 26, 36, 18, 23),
      (false, 7, 27, 37, 19, 24), (true, 1, 10, 34, 17, 23), (true, 2, 10, 34, 17, 23),
      (true, 3, 10, 34, 17, 23), (true, 4, 13, 37, 19, 25), (true, 5, 14, 38, 19, 25)] :
      List (Bool × ℕ × ℕ × ℕ × ℕ × ℕ)),
    ∀ landscape : Bool, ∀ lxy : ℕ × ℕ, lxy = hashGeometry row.1 landscape row.2.1 →
      termCount (max 3 lxy.1) (max 3 lxy.2) = row.2.2.1 ∧
      acTotalOf row.1 row.2.2.1 = row.2.2.2.1 ∧
      ceilDiv row.2.2.2.1 2 = row.2.2.2.2.1 ∧ hashLenFor row.1 lxy.1 lxy.2 = row.2.2.2.2.2 ∧
      hdrLen row.1 + row.2.2.2.2.1 = row.2.2.2.2.2

/-- R121: the output size is that of the real ratio `lx / ly`, rounded, and its table; no tie occurs on
the way, and the image fits `OUT`. -/
def Obligations.OutputSizeIsRule : Prop :=
  (∀ (alpha landscape : Bool) (g lx ly limit : ℕ) (ratio : ℝ), limit = (if alpha then 5 else 7) →
    1 ≤ g → g ≤ limit → lx = (if landscape then limit else g) →
    ly = (if landscape then g else limit) → ratio = lx / ly →
    (((outSize ⟨alpha, landscape, g, lx, ly⟩).1 : ℤ), ((outSize ⟨alpha, landscape, g, lx, ly⟩).2 : ℤ))
        = (if 1 < ratio then ((32 : ℤ), roundReal (32 / ratio)) else (roundReal (32 * ratio), 32)) ∧
      roundReal (32 * g / limit) = ((64 * g + limit) / (2 * limit) : ℕ) ∧
      (∀ k : ℤ, (32 * g / limit : ℝ) ≠ k + 1 / 2) ∧
      (outSize ⟨alpha, landscape, g, lx, ly⟩).1 * (outSize ⟨alpha, landscape, g, lx, ly⟩).2 ≤ 1024) ∧
  ([1, 2, 3, 4, 5, 6, 7].map (shortSide false) = [5, 9, 14, 18, 23, 27, 32] ∧
    [1, 2, 3, 4, 5].map (shortSide true) = [6, 13, 19, 26, 32])

/-! ## The slave port -/

/-- R45: a transaction of another width or at a misaligned offset answers `ERROR`, a read returns 0,
and nothing changes. -/
def Obligations.MisalignedRefused : Prop :=
  ∀ (s : State) (a : BitVec 20) (n : ℕ) (v : Word), n ≠ 4 ∨ a.toNat % 4 ≠ 0 →
    s.transact (.read a n) = (.read .error 0, s) ∧ s.transact (.write a n v) = (.write .error, s)

/-- R46: an unmapped offset answers `ERROR` to both, a write to a read-only region answers `ERROR`,
a read of `CMD` answers `OKAY` with 0; nothing changes in any of these. -/
def Obligations.UnmappedAndReadOnly : Prop :=
  ∀ (s : State) (a : BitVec 20) (v : Word), a.toNat % 4 = 0 →
    ((0x2C ≤ a.toNat ∧ a.toNat < 0x40) ∨ (0x60 ≤ a.toNat ∧ a.toNat < 0x1000) ∨
        (0x2000 ≤ a.toNat ∧ a.toNat < 0x10000) ∨ 0x19C40 ≤ a.toNat →
      s.transact (.read a 4) = (.read .error 0, s) ∧
      s.transact (.write a 4 v) = (.write .error, s)) ∧
    (a.toNat = 0x00 ∨ a.toNat = 0x08 ∨ (0x18 ≤ a.toNat ∧ a.toNat ≤ 0x28) ∨
        (0x1000 ≤ a.toNat ∧ a.toNat < 0x2000) →
      s.transact (.write a 4 v) = (.write .error, s)) ∧
    (a.toNat = 0x04 → s.transact (.read a 4) = (.read .okay 0, s))

/-- R23, R24, R47: a write to `WIDTH` or `HEIGHT` stores bits 15:0, a write to `HASH_LEN` the value or
32 if it exceeds 32, and nothing else; the registers read back as stored. -/
def Obligations.RegisterWritesStore : Prop :=
  ∀ (s : State) (v : Word),
    s.transact (.write 0x0C 4 v) = (.write .okay, { s with width := BitVec.ofNat 16 v.toNat }) ∧
    s.transact (.write 0x10 4 v) = (.write .okay, { s with height := BitVec.ofNat 16 v.toNat }) ∧
    s.transact (.write 0x14 4 v) = (.write .okay,
      { s with hashLen := if 32 < v.toNat then 32 else BitVec.ofNat 6 v.toNat }) ∧
    s.transact (.read 0x0C 4) = (.read .okay (BitVec.ofNat 32 s.width.toNat), s) ∧
    s.transact (.read 0x10 4) = (.read .okay (BitVec.ofNat 32 s.height.toNat), s) ∧
    s.transact (.read 0x14 4) = (.read .okay (BitVec.ofNat 32 s.hashLen.toNat), s)

/-- R20, R22, R25 to R29: what the read-only registers read as, bit by bit. -/
def Obligations.RegisterWords : Prop :=
  ∀ s : State, ∃ wStatus wGeom wCounts wOutDim wAvg wAspect : Word,
    s.transact (.read 0x00 4) = (.read .okay 0x54480107, s) ∧
    s.transact (.read 0x08 4) = (.read .okay wStatus, s) ∧
    s.transact (.read 0x18 4) = (.read .okay wGeom, s) ∧
    s.transact (.read 0x1C 4) = (.read .okay wCounts, s) ∧
    s.transact (.read 0x20 4) = (.read .okay wOutDim, s) ∧
    s.transact (.read 0x24 4) = (.read .okay wAvg, s) ∧
    s.transact (.read 0x28 4) = (.read .okay wAspect, s) ∧
    wStatus.toNat = s.status.busy.toNat + 2 * s.status.done.toNat + 2 ^ 4 *
      (match s.status.err with
        | .ok => 0 | .tooLarge => 1 | .malformedLen => 2 | .malformedGeom => 3 | .emptyImage => 4
        | .badCmd => 5) ∧
    wGeom.toNat = s.geom.lx.toNat + 2 ^ 4 * s.geom.ly.toNat + 2 ^ 8 * s.geom.hasAlpha.toNat
      + 2 ^ 9 * s.geom.isLandscape.toNat + 2 ^ 12 * s.geom.nxL.toNat + 2 ^ 16 * s.geom.nyL.toNat ∧
    wCounts.toNat = s.counts.acTotal.toNat + 2 ^ 8 * s.counts.cntL.toNat ∧
    wOutDim.toNat = s.outDim.w.toNat + 2 ^ 8 * s.outDim.h.toNat ∧
    wAvg.toNat = s.avgRgba.r.toNat + 2 ^ 8 * s.avgRgba.g.toNat + 2 ^ 16 * s.avgRgba.b.toNat
      + 2 ^ 24 * s.avgRgba.a.toNat ∧
    wAspect.toNat = s.aspect.lx.toNat + 2 ^ 4 * s.aspect.ly.toNat

/-- R42 to R44, R47: a word written to `HASH` or `PIX` is stored little-endian in its four bytes and
nowhere else, and reads back; `OUT` reads as the four bytes of its pixel. -/
def Obligations.BufferWords : Prop :=
  ∀ (s : State) (a : BitVec 20) (v : Word), a.toNat % 4 = 0 →
    ((0x40 ≤ a.toNat ∧ a.toNat < 0x60) ∨ (0x10000 ≤ a.toNat ∧ a.toNat < 0x19C40) →
      ∃ t, s.transact (.write a 4 v) = (.write .okay, t) ∧
        t.transact (.read a 4) = (.read .okay v, t) ∧
        (∀ k < 4, (t.readByte (a.toNat + k)).toNat = v.toNat / 2 ^ (8 * k) % 256) ∧
        (∀ x, x < a.toNat ∨ a.toNat + 4 ≤ x → t.readByte x = s.readByte x) ∧
        { t with mem := s.mem } = s) ∧
    ((0x40 ≤ a.toNat ∧ a.toNat < 0x60) ∨ (0x1000 ≤ a.toNat ∧ a.toNat < 0x2000) ∨
        (0x10000 ≤ a.toNat ∧ a.toNat < 0x19C40) →
      ∃ w, s.transact (.read a 4) = (.read .okay w, s) ∧
        w.toNat = (s.readByte a.toNat).toNat + 2 ^ 8 * (s.readByte (a.toNat + 1)).toNat
          + 2 ^ 16 * (s.readByte (a.toNat + 2)).toNat + 2 ^ 24 * (s.readByte (a.toNat + 3)).toNat)

/-- R43: the word of a pixel holds `r` in bits 7:0, `g` in 15:8, `b` in 23:16, `a` in 31:24; it is what
`OUT[i]` and `PIX[i]` read as, and what ENCODE takes as pixel `i` of an image. -/
def Obligations.PixelWords : Prop :=
  (∀ p : Pixel, p.toWord.toNat = p.r.toNat + 2 ^ 8 * p.g.toNat + 2 ^ 16 * p.b.toNat
    + 2 ^ 24 * p.a.toNat) ∧
  (∀ (s : State) (i : ℕ), i < 1024 →
    s.transact (.read (BitVec.ofNat 20 (0x1000 + 4 * i)) 4)
      = (.read .okay (s.outPixel i).toWord, s)) ∧
  ∀ (s : State) (i n : ℕ), Memory.wf s.mem = true → i < n → n ≤ 10000 →
    ∃ p, (s.image n)[i]? = some p ∧
      s.transact (.read (BitVec.ofNat 20 (0x10000 + 4 * i)) 4) = (.read .okay p.toWord, s)

/-- R137: the write to `CMD` completes when `BUSY = 0`, whatever else the state holds; it latches the
word, sets `BUSY`, clears `DONE`, keeps `ERR` and changes nothing else. While `BUSY = 1` it has no
effect. -/
def Obligations.CmdWriteStartsCommand : Prop :=
  ∀ (s : State) (w : Word) (rest : List Transaction), s.port = .write 0x04 4 w :: rest →
    (s.status.busy = false → s.hostMove =
      { s with
        cmdLatch := w, status := ⟨true, false, s.status.err⟩, port := rest
        replies := .write .okay :: s.replies }) ∧
    (s.status.busy = true → s.hostMove = s)

/-- R48: while `BUSY = 1` the port's move completes a `STATUS` read at once with the current value, and
holds every other transaction without effect; when the engine has completed the command, the held
transaction completes as if it had been issued at that moment. -/
def Obligations.BusyStall : Prop :=
  ∀ (s : State) (tr : Transaction) (rest : List Transaction), s.status.busy = true →
    s.port = tr :: rest →
    (tr = .read 0x08 4 → s.hostMove =
      { s with port := rest, replies := .read .okay s.status.toWord :: s.replies }) ∧
    (tr ≠ .read 0x08 4 → s.hostMove = s) ∧
    ∃ t, engineTurn s = .next t ∧ t.status.busy = false ∧
      t.hostMove = { (t.transact tr).2 with port := rest, replies := (t.transact tr).1 :: s.replies }

/-- R49: with `BUSY = 0` the oldest transaction completes at a step of the host, entirely, and the next
ones wait in their order. Whose step it is, and the lists `port` and `replies`, are the model's choice
(log entries 5 and 6, DESIGN CHOICE). -/
def Obligations.TransactionsCompleteInOrder : Prop :=
  ∀ (s : State) (tr : Transaction) (rest : List Transaction), s.status.busy = false →
    s.port = tr :: rest →
    (s.turns = [] → step s = .next
      { (s.transact tr).2 with port := rest, replies := (s.transact tr).1 :: s.replies }) ∧
    (∀ later, s.turns = .host :: later → step s = .next
      { (s.transact tr).2 with
        turns := later, port := rest, replies := (s.transact tr).1 :: s.replies })

/-- R16, R32, R46, R47: no transaction changes a result register, a byte of `OUT` or `STATUS.ERR`, and
a read changes nothing at all. -/
def Obligations.HostCannotWriteResults : Prop :=
  ∀ (s : State) (tr : Transaction),
    (s.transact tr).2.geom = s.geom ∧ (s.transact tr).2.counts = s.counts ∧
      (s.transact tr).2.outDim = s.outDim ∧ (s.transact tr).2.avgRgba = s.avgRgba ∧
      (s.transact tr).2.aspect = s.aspect ∧ (s.transact tr).2.status.err = s.status.err ∧
      (∀ k, 0x1000 ≤ k → k < 0x2000 → (s.transact tr).2.readByte k = s.readByte k) ∧
      ∀ a n, tr = .read a n → (s.transact tr).2 = s

/-! ## Reset -/

/-- R38: the state after reset. `CMD_LATCH` is unspecified and not stated. `PIX` and `OUT` hold fixed
unknown bytes, a parameter of the reset state; that the parameter is the free value `Config.resetByte`
at reset number 0 is the model's choice (log entry 3, DESIGN CHOICE). -/
def Obligations.ResetValues : Prop :=
  State.reset.status = ⟨false, false, .ok⟩ ∧ State.reset.width = 0 ∧ State.reset.height = 0 ∧
    State.reset.hashLen = 0 ∧ State.reset.geom.toWord = 0 ∧ State.reset.counts.toWord = 0 ∧
    State.reset.outDim.toWord = 0 ∧ State.reset.avgRgba.toWord = 0 ∧
    State.reset.aspect.toWord = 0 ∧ (∀ k < 32, State.reset.readByte (0x40 + k) = 0) ∧
    State.reset.transact (.read 0x00 4) = (.read .okay 0x54480107, State.reset) ∧
    ∀ k, (0x1000 ≤ k ∧ k < 0x2000) ∨ (0x10000 ≤ k ∧ k < 0x19C40) →
      State.reset.readByte k = Config.resetByte 0 k

/-- R166, R168: reset asserted at any time, during a command too, abandons it: the registers and
`HASH` take their reset values and the engine is idle, with no `DONE`. The model's choice (DESIGN
CHOICE): that reset comes as an entry of `turns`, used up by the step (log entry 5); that `replies` and
`port` are kept, but for the oldest transaction when the entry says drop and the busy stall holds it
(every one but a `STATUS` read while `BUSY = 1`, R48), which is then dropped alone (log entry 6); that
assertion and release are one step (log entry 15). -/
def Obligations.ResetInputAbandons : Prop :=
  ∀ (s : State) (drop : Bool) (later : List Turn), s.turns = .reset drop :: later →
    ∃ t, step s = .next t ∧ t.status = ⟨false, false, .ok⟩ ∧ t.width = 0 ∧ t.height = 0 ∧
      t.hashLen = 0 ∧ t.geom = .zero ∧ t.counts = .zero ∧ t.outDim = .zero ∧ t.avgRgba = .zero ∧
      t.aspect = .zero ∧ (∀ k < 32, t.readByte (0x40 + k) = 0) ∧ t.turns = later ∧
      t.replies = s.replies ∧
      (s.port = [] → t.port = []) ∧
      ∀ tr rest, s.port = tr :: rest →
        (s.held tr = true ↔ s.status.busy = true ∧ tr ≠ .read 0x08 4) ∧
        t.port = if drop = true ∧ s.held tr = true then rest else tr :: rest

/-- R167: after reset the engine is idle; a command issued on the reset state is defined: NOP succeeds,
ENCODE gives `ERR_EMPTY_IMAGE`, DECODE, AVGCOL and ASPECT give `ERR_MALFORMED_LEN`. That a step of the
reset state, with no turn named and nothing in `port`, is that state again is the model's choice (log
entries 5 and 6, DESIGN CHOICE). -/
def Obligations.CommandsOnReset : Prop :=
  State.reset.status.busy = false ∧ step State.reset = .next State.reset ∧
    ∀ (i : Instr), ∃ t, exec i (State.reset.start (encode i)) = .next t ∧
      t.status = ⟨false, true, match i with
        | .nop => .ok
        | .encode => .emptyImage
        | .decode => .malformedLen
        | .avgcol => .malformedLen
        | .aspect => .malformedLen⟩

/-! ## The invariant -/

/-- R39, R22 and the canonical form of the memory hold after every step from a state where they hold.
The canonical form is the model's own (log entry 12, DESIGN CHOICE). -/
def Obligations.StepKeepsInvariant : Prop :=
  ∀ s t : State, s.Inv → step s = .next t → t.Inv

/-- R39 holds at reset. -/
def Obligations.ResetHasInvariant : Prop := State.reset.Inv

end
end

