-- ==== Sys2Proof/Laws/Cosine.lean ====
section
/-! SUPPORT. The error bounds of Machine/Cosine.lean: `piFix p` is within 2 of `2^p * pi`, and
`cosFix p k b` within 2 of `2^p * cos(pi * k / b)`. -/

namespace Sys2Proof.Machine.Exact

/-- A partial sum of an alternating series is within its next term of the limit. -/
theorem alternating_bound {f : ℕ → ℝ} {l : ℝ}
    (hl : Filter.Tendsto (fun n => ∑ i ∈ Finset.range n, (-1) ^ i * f i) Filter.atTop (nhds l))
    (hf : Antitone f) (n : ℕ) : |l - ∑ i ∈ Finset.range n, (-1) ^ i * f i| ≤ f n := by
  rcases Nat.even_or_odd' n with ⟨k, rfl | rfl⟩
  · have h1 := hf.alternating_series_le_tendsto hl k
    have h2 := hf.tendsto_le_alternating_series hl k
    rw [Finset.sum_range_succ, pow_mul] at h2
    rw [abs_le]
    constructor <;> norm_num at * <;> linarith [hf (Nat.le_succ (2 * k)), h1, h2]
  · have h1 := hf.alternating_series_le_tendsto hl (k + 1)
    have h2 := hf.tendsto_le_alternating_series hl k
    have e : 2 * (k + 1) = (2 * k + 1) + 1 := by ring
    rw [e, Finset.sum_range_succ] at h1
    have : ((-1 : ℝ)) ^ (2 * k + 1) = -1 := by rw [pow_succ, pow_mul]; norm_num
    rw [this] at h1
    rw [abs_le]
    constructor <;> linarith

/-! ## pi -/

/-- The terms of the series of `arctan (1/x)`. -/
noncomputable def arctanTerm (x : ℝ) (k : ℕ) : ℝ := (1 / x) ^ (2 * k + 1) / ((2 * k + 1 : ℕ) : ℝ)

theorem arctanTerm_antitone {x : ℝ} (hx : 1 ≤ x) : Antitone (arctanTerm x) := by
  refine antitone_nat_of_succ_le fun k => ?_
  unfold arctanTerm
  have h0 : (0 : ℝ) ≤ 1 / x := by positivity
  have h1 : 1 / x ≤ 1 := by rw [div_le_one (by linarith)]; exact hx
  refine div_le_div₀ (by positivity) (pow_le_pow_of_le_one h0 h1 (by omega)) (by positivity) ?_
  exact_mod_cast (by omega : 2 * k + 1 ≤ 2 * (k + 1) + 1)

theorem arctan_partial {x : ℝ} (hx : 1 < x) (n : ℕ) :
    |Real.arctan (1 / x) - ∑ i ∈ Finset.range n, (-1) ^ i * arctanTerm x i| ≤ arctanTerm x n := by
  refine alternating_bound ?_ (arctanTerm_antitone hx.le) n
  have hn : ‖(1 / x : ℝ)‖ < 1 := by
    rw [Real.norm_of_nonneg (by positivity), div_lt_one (by linarith)]; exact hx
  refine (Real.hasSum_arctan hn).tendsto_sum_nat.congr fun n => Finset.sum_congr rfl fun i _ => ?_
  simp only [arctanTerm, mul_div_assoc]

theorem natDiv_error (a b : ℕ) : |((a / b : ℕ) : ℝ) - (a : ℝ) / b| ≤ 1 := by
  rcases Nat.eq_zero_or_pos b with rfl | hb
  · simp
  · have h1 : ((a / b : ℕ) : ℝ) ≤ (a : ℝ) / b := Nat.cast_div_le
    have h2 : (a : ℝ) / b < ((a / b : ℕ) : ℝ) + 1 := by
      rw [div_lt_iff₀ (by exact_mod_cast hb)]
      have := Nat.lt_div_mul_add (a := a) hb
      have h3 : a < (a / b + 1) * b := by rw [Nat.add_mul, Nat.one_mul]; exact this
      exact_mod_cast h3
    rw [abs_le]; constructor <;> linarith

theorem arctanInv_error (q x n k pow : ℕ) (hx : 0 < x) (hp : pow = x ^ (2 * k + 1)) :
    |(arctanInv q x n k pow : ℝ)
      - 2 ^ q * ∑ i ∈ Finset.range n, (-1) ^ i * arctanTerm x (k + i)| ≤ n := by
  induction n generalizing k pow with
  | zero => simp [arctanInv]
  | succ n ih =>
    have ih' := ih (k + 1) (pow * (x * x)) (by rw [hp]; ring)
    have hd := natDiv_error (2 ^ q) ((2 * k + 1) * pow)
    have ht : ((2 ^ q : ℕ) : ℝ) / (((2 * k + 1) * pow : ℕ) : ℝ) = 2 ^ q * arctanTerm x k := by
      have hx' : (x : ℝ) ≠ 0 := by exact_mod_cast hx.ne'
      rw [hp, arctanTerm, one_div, inv_pow]; push_cast; field_simp
    rw [ht] at hd
    rw [Finset.sum_range_succ']
    have hs : ∑ i ∈ Finset.range n, (-1 : ℝ) ^ (i + 1) * arctanTerm x (k + (i + 1))
        = -∑ i ∈ Finset.range n, (-1) ^ i * arctanTerm x (k + 1 + i) := by
      rw [← Finset.sum_neg_distrib]
      refine Finset.sum_congr rfl fun i _ => ?_
      rw [show k + (i + 1) = k + 1 + i by omega, pow_succ]; ring
    rw [hs, arctanInv, Int.cast_sub, Int.cast_natCast, Nat.cast_succ]
    have : (((2 ^ q / ((2 * k + 1) * pow) : ℕ) : ℝ) - arctanInv q x n (k + 1) (pow * (x * x)))
        - 2 ^ q * (-∑ i ∈ Finset.range n, (-1) ^ i * arctanTerm x (k + 1 + i)
            + (-1) ^ 0 * arctanTerm x (k + 0))
        = (((2 ^ q / ((2 * k + 1) * pow) : ℕ) : ℝ) - 2 ^ q * arctanTerm x k)
          - (arctanInv q x n (k + 1) (pow * (x * x))
              - 2 ^ q * ∑ i ∈ Finset.range n, (-1) ^ i * arctanTerm x (k + 1 + i)) := by
      simp only [pow_zero, add_zero]; ring
    rw [this]
    exact (abs_sub _ _).trans (by linarith)

theorem arctanInv_spec (q x n : ℕ) (hx : 1 < x) :
    |(arctanInv q x n 0 x : ℝ) - 2 ^ q * Real.arctan (1 / x)| ≤ n + 2 ^ q * arctanTerm x n := by
  have h1 := arctanInv_error q x n 0 x (by omega) (by simp)
  have h2 := arctan_partial (x := x) (by exact_mod_cast hx) n
  simp only [zero_add] at h1
  have h3 : |(2 : ℝ) ^ q * ∑ i ∈ Finset.range n, (-1) ^ i * arctanTerm x i
      - 2 ^ q * Real.arctan (1 / x)| ≤ 2 ^ q * arctanTerm x n := by
    rw [← mul_sub, abs_mul, abs_of_pos (by positivity : (0 : ℝ) < 2 ^ q), abs_sub_comm]
    exact mul_le_mul_of_nonneg_left h2 (by positivity)
  exact (abs_sub_le _ _ _).trans (add_le_add h1 h3)

theorem machin_spec (q n : ℕ) :
    |(machin q n : ℝ) - 2 ^ q * Real.pi| ≤ 20 * (n + 2 ^ q / 25 ^ n) := by
  have h5 := arctanInv_spec q 5 n (by norm_num)
  have h239 := arctanInv_spec q 239 n (by norm_num)
  have hpi := Real.four_mul_arctan_inv_5_sub_arctan_inv_239
  have ht : ∀ x : ℕ, 5 ≤ x → arctanTerm x n ≤ 1 / 25 ^ n := by
    intro x hx
    have hx' : (5 : ℝ) ≤ x := by exact_mod_cast hx
    have h0 : (1 / (x : ℝ)) ≤ 1 / 5 := one_div_le_one_div_of_le (by norm_num) hx'
    have h1 : (1 / (x : ℝ)) ^ (2 * n + 1) ≤ (1 / 5) ^ (2 * n + 1) :=
      pow_le_pow_left₀ (by positivity) h0 _
    have h2 : ((1 : ℝ) / 5) ^ (2 * n + 1) ≤ 1 / 25 ^ n := by
      rw [pow_succ, pow_mul, div_pow, one_pow]
      norm_num
      rw [div_pow, one_pow, ← one_div]
      nlinarith [show (0 : ℝ) < 1 / 25 ^ n by positivity]
    unfold arctanTerm
    refine (div_le_self (by positivity) ?_).trans (h1.trans h2)
    exact_mod_cast (by omega : 1 ≤ 2 * n + 1)
  have hq : (0 : ℝ) < 2 ^ q := by positivity
  have e5 := mul_le_mul_of_nonneg_left (ht 5 le_rfl) hq.le
  have e239 := mul_le_mul_of_nonneg_left (ht 239 (by norm_num)) hq.le
  have e : (2 : ℝ) ^ q * (1 / 25 ^ n) = 2 ^ q / 25 ^ n := by ring
  rw [e] at e5 e239
  push_cast at h5 h239 e5 e239
  rw [abs_le] at *
  rw [← one_div, ← one_div] at hpi
  have hpi' : (2 : ℝ) ^ q * Real.pi
      = 16 * (2 ^ q * Real.arctan (1 / 5)) - 4 * (2 ^ q * Real.arctan (1 / 239)) := by
    have : Real.pi = 4 * (4 * Real.arctan (1 / 5) - Real.arctan (1 / 239)) := by rw [hpi]; ring
    conv_lhs => rw [this]
    ring
  unfold machin
  push_cast
  rw [hpi']
  constructor <;> linarith

theorem intDiv_error (a : ℤ) {b : ℕ} (hb : 0 < b) :
    ((a / (b : ℤ) : ℤ) : ℝ) ≤ (a : ℝ) / b ∧ (a : ℝ) / b < ((a / (b : ℤ) : ℤ) : ℝ) + 1 := by
  have hb' : (0 : ℝ) < b := by exact_mod_cast hb
  have hbz : (0 : ℤ) < b := by exact_mod_cast hb
  constructor
  · rw [le_div_iff₀ hb']
    exact_mod_cast Int.ediv_mul_le a hbz.ne'
  · rw [div_lt_iff₀ hb']
    exact_mod_cast Int.lt_ediv_add_one_mul_self a hbz

theorem piFix_spec (p : ℕ) : |(piFix p : ℝ) - 2 ^ p * Real.pi| ≤ 2 := by
  set n := p / 4 + 8 with hn
  set m := machin (2 * p + 16) n with hm
  have hs := machin_spec (2 * p + 16) n
  rw [← hm] at hs
  obtain ⟨hd1, hd2⟩ := intDiv_error m (b := 2 ^ (p + 16)) (by positivity)
  have hP : (1 : ℝ) ≤ 2 ^ p := one_le_pow₀ (by norm_num)
  -- the error of Machin's formula, cut down, is below 1
  have hB : (20 * ((n : ℝ) + 2 ^ (2 * p + 16) / 25 ^ n)) / 2 ^ (p + 16) ≤ 1 / 2 := by
    have hlin : (n : ℝ) ≤ 9 * 2 ^ p := by
      have h1 : p < 2 ^ p := Nat.lt_two_pow_self
      have h2 : n ≤ 9 * 2 ^ p := by omega
      exact_mod_cast h2
    have hpow : (2 : ℝ) ^ p ≤ 8 * 25 ^ (p / 4) := by
      have : p ≤ 4 * (p / 4) + 3 := by omega
      calc (2 : ℝ) ^ p ≤ 2 ^ (4 * (p / 4) + 3) := pow_le_pow_right₀ (by norm_num) this
        _ = 8 * 16 ^ (p / 4) := by rw [pow_add, pow_mul]; norm_num; ring
        _ ≤ 8 * 25 ^ (p / 4) := by gcongr; norm_num
    have h25 : (25 : ℝ) ^ n = 25 ^ (p / 4) * 25 ^ 8 := by rw [hn, pow_add]
    have hq : (2 : ℝ) ^ (2 * p + 16) / 25 ^ n ≤ 2 ^ (p + 16) * (8 / 25 ^ 8) := by
      rw [h25, div_le_iff₀ (by positivity)]
      have : (2 : ℝ) ^ (2 * p + 16) = 2 ^ (p + 16) * 2 ^ p := by rw [← pow_add]; congr 1; omega
      rw [this]
      calc (2 : ℝ) ^ (p + 16) * 2 ^ p ≤ 2 ^ (p + 16) * (8 * 25 ^ (p / 4)) := by gcongr
        _ = 2 ^ (p + 16) * (8 / 25 ^ 8) * (25 ^ (p / 4) * 25 ^ 8) := by field_simp
    rw [div_le_iff₀ (by positivity)]
    have e : (2 : ℝ) ^ (p + 16) = 2 ^ p * 65536 := by rw [pow_add]; norm_num
    rw [e] at hq ⊢
    norm_num at hq
    linarith
  have hpos : (0 : ℝ) < 2 ^ (p + 16) := by positivity
  have hm2 : |(m : ℝ) / 2 ^ (p + 16) - 2 ^ p * Real.pi| ≤ 1 / 2 := by
    have : (m : ℝ) / 2 ^ (p + 16) - 2 ^ p * Real.pi
        = ((m : ℝ) - 2 ^ (2 * p + 16) * Real.pi) / 2 ^ (p + 16) := by
      have : (2 : ℝ) ^ (2 * p + 16) = 2 ^ (p + 16) * 2 ^ p := by rw [← pow_add]; congr 1; omega
      rw [this]; field_simp
    rw [this, abs_div, abs_of_pos hpos]
    exact (div_le_div_of_nonneg_right hs hpos.le).trans hB
  push_cast at hd1 hd2
  have hpi3 := Real.pi_gt_three
  have hge : (0 : ℤ) ≤ m / ((2 ^ (p + 16) : ℕ) : ℤ) := by
    have : (-1 : ℝ) < ((m / ((2 ^ (p + 16) : ℕ) : ℤ) : ℤ) : ℝ) := by
      push_cast
      rw [abs_le] at hm2
      nlinarith
    have : (-1 : ℤ) < m / ((2 ^ (p + 16) : ℕ) : ℤ) := by exact_mod_cast this
    omega
  have hcast : (piFix p : ℝ) = ((m / ((2 ^ (p + 16) : ℕ) : ℤ) : ℤ) : ℝ) := by
    unfold piFix
    rw [← hn, ← hm]
    have := Int.toNat_of_nonneg hge
    exact_mod_cast this
  rw [hcast]
  push_cast
  rw [abs_le] at *
  constructor <;> linarith

/-! ## cos -/

/-- Horner's scheme in the reals. -/
noncomputable def realHorner (t : ℝ) (n j : ℕ) : ℝ :=
  match n with
  | 0 => 1
  | n + 1 => 1 - t * realHorner t n (j + 1) / ((2 * j + 1) * (2 * j + 2))

theorem realHorner_eq (t : ℝ) (n j : ℕ) :
    realHorner t n j
      = ∑ k ∈ Finset.range (n + 1), (-1) ^ k * (t ^ k * (2 * j).factorial / (2 * (j + k)).factorial) := by
  induction n generalizing j with
  | zero => simp [realHorner, Nat.factorial_ne_zero]
  | succ n ih =>
    rw [realHorner, ih, Finset.sum_range_succ' _ (n + 1)]
    have h0 : ((2 * (j + 0)).factorial : ℝ) ≠ 0 := by exact_mod_cast Nat.factorial_ne_zero _
    simp only [pow_zero, one_mul, add_zero]
    rw [div_self (by simpa using h0), Finset.mul_sum, Finset.sum_div, sub_eq_add_neg,
      ← Finset.sum_neg_distrib, add_comm (1 : ℝ)]
    refine congrArg (· + (1 : ℝ)) (Finset.sum_congr rfl fun k _ => ?_)
    have hf : ((2 * (j + 1)).factorial : ℝ) = (2 * j + 2) * ((2 * j + 1) * (2 * j).factorial) := by
      rw [show 2 * (j + 1) = 2 * j + 1 + 1 by ring, Nat.factorial_succ, Nat.factorial_succ]
      push_cast; ring
    rw [hf, show j + 1 + k = j + (k + 1) by ring]
    have h1 : ((2 * (j + (k + 1))).factorial : ℝ) ≠ 0 := by exact_mod_cast Nat.factorial_ne_zero _
    have h2 : (2 * (j : ℝ) + 1) ≠ 0 := by positivity
    have h3 : (2 * (j : ℝ) + 2) ≠ 0 := by positivity
    field_simp
    ring

theorem cos_partial {x : ℝ} (hx : x ^ 2 ≤ 1) (n : ℕ) :
    |Real.cos x - realHorner (x ^ 2) n 0| ≤ 1 / (2 * (n + 1)).factorial := by
  have hanti : Antitone fun k : ℕ => (x ^ 2) ^ k / ((2 * k).factorial : ℝ) := by
    refine antitone_nat_of_succ_le fun k => ?_
    refine div_le_div₀ (by positivity) (pow_le_pow_of_le_one (by positivity) hx (by omega))
      (by exact_mod_cast Nat.factorial_pos _) ?_
    exact_mod_cast Nat.factorial_le (by omega)
  have hsum := (Real.hasSum_cos x).tendsto_sum_nat
  have hsum' : Filter.Tendsto
      (fun n => ∑ i ∈ Finset.range n, (-1) ^ i * ((x ^ 2) ^ i / ((2 * i).factorial : ℝ)))
      Filter.atTop (nhds (Real.cos x)) := by
    refine hsum.congr fun n => Finset.sum_congr rfl fun i _ => ?_
    rw [pow_mul]; ring
  have h := alternating_bound hsum' hanti (n + 1)
  rw [realHorner_eq]
  simp only [Nat.mul_zero, Nat.factorial_zero, Nat.cast_one, mul_one, zero_add]
  refine h.trans ?_
  refine div_le_div_of_nonneg_right ?_ (by exact_mod_cast (Nat.factorial_pos _).le)
  exact pow_le_one₀ (by positivity) hx

theorem realHorner_mem {t : ℝ} (h0 : 0 ≤ t) (h1 : t ≤ 1) (n j : ℕ) :
    0 ≤ realHorner t n j ∧ realHorner t n j ≤ 1 := by
  induction n generalizing j with
  | zero => simp [realHorner]
  | succ n ih =>
    obtain ⟨ha, hb⟩ := ih (j + 1)
    have hm : (1 : ℝ) ≤ (2 * j + 1) * (2 * j + 2) := by
      have : (0 : ℝ) ≤ j := by positivity
      nlinarith
    have hp : 0 ≤ t * realHorner t n (j + 1) := mul_nonneg h0 ha
    have hle : t * realHorner t n (j + 1) ≤ 1 := mul_le_one₀ h1 ha hb
    rw [realHorner]
    constructor
    · have := div_le_one_of_le₀ (hle.trans hm) (by positivity)
      linarith
    · have := div_nonneg hp (by linarith : (0 : ℝ) ≤ (2 * j + 1) * (2 * j + 2))
      linarith

theorem cosHorner_le (q t n j : ℕ) : cosHorner q t n j ≤ 2 ^ q := by
  cases n with
  | zero => exact le_rfl
  | succ n => exact Nat.sub_le _ _

/-- The fixed-point scheme is within 6 of the real one, for `t` within 5 of `2^q * τ`. -/
theorem cosHorner_error {q t : ℕ} {τ : ℝ} (h0 : 0 ≤ τ) (h1 : τ ≤ 2 / 3) (ht : t ≤ 2 ^ q)
    (he : |(t : ℝ) - 2 ^ q * τ| ≤ 5) (n j : ℕ) :
    |(cosHorner q t n j : ℝ) - 2 ^ q * realHorner τ n j| ≤ 6 := by
  induction n generalizing j with
  | zero => simp [cosHorner, realHorner]
  | succ n ih =>
    have ih' := ih (j + 1)
    obtain ⟨hr0, hr1⟩ := realHorner_mem h0 (by linarith) n (j + 1)
    set h := cosHorner q t n (j + 1) with hh
    set r := realHorner τ n (j + 1) with hrdef
    set m : ℕ := (2 * j + 1) * (2 * j + 2) with hm
    have hm2 : 2 ≤ m := by rw [hm]; nlinarith
    have hQ : 0 < 2 ^ q := by positivity
    have hle : t * h / (2 ^ q * m) ≤ 2 ^ q := by
      refine Nat.div_le_of_le_mul ?_
      calc t * h ≤ 2 ^ q * 2 ^ q := Nat.mul_le_mul ht (cosHorner_le _ _ _ _)
        _ ≤ 2 ^ q * m * 2 ^ q := by nlinarith
    have hd := natDiv_error (t * h) (2 ^ q * m)
    have hcast : (cosHorner q t (n + 1) j : ℝ)
        = 2 ^ q - ((t * h / (2 ^ q * m) : ℕ) : ℝ) := by
      rw [cosHorner, ← hm, Nat.cast_sub hle]; push_cast; rfl
    have hreal : realHorner τ (n + 1) j = 1 - τ * r / m := by
      rw [realHorner, hm]; push_cast; rfl
    have hQr : (0 : ℝ) < 2 ^ q := by positivity
    have hmr : (2 : ℝ) ≤ m := by exact_mod_cast hm2
    -- the product's error
    have hprod : |((t * h : ℕ) : ℝ) / ((2 ^ q * m : ℕ) : ℝ) - 2 ^ q * (τ * r / m)| ≤ 5 := by
      have e : ((t * h : ℕ) : ℝ) / ((2 ^ q * m : ℕ) : ℝ) - 2 ^ q * (τ * r / m)
          = (((t : ℝ) - 2 ^ q * τ) * h + 2 ^ q * τ * (h - 2 ^ q * r)) / (2 ^ q * m) := by
        push_cast; field_simp; ring
      have hhle : (h : ℝ) ≤ 2 ^ q := by exact_mod_cast cosHorner_le q t n (j + 1)
      have hb : |((t : ℝ) - 2 ^ q * τ) * h + 2 ^ q * τ * (h - 2 ^ q * r)| ≤ 2 ^ q * 9 := by
        refine (abs_add_le _ _).trans ?_
        rw [abs_mul, abs_mul, abs_of_nonneg (by positivity : (0 : ℝ) ≤ h),
          abs_of_nonneg (by positivity : (0 : ℝ) ≤ 2 ^ q * τ)]
        have b1 : |(t : ℝ) - 2 ^ q * τ| * h ≤ 5 * 2 ^ q :=
          mul_le_mul he hhle (by positivity) (by norm_num)
        have b2 : 2 ^ q * τ * |(h : ℝ) - 2 ^ q * r| ≤ 2 ^ q * (2 / 3) * 6 := by
          gcongr
        linarith
      rw [e, abs_div, abs_of_pos (by positivity : (0 : ℝ) < 2 ^ q * m), div_le_iff₀ (by positivity)]
      nlinarith
    rw [hcast, hreal]
    have e2 : (2 : ℝ) ^ q - ((t * h / (2 ^ q * m) : ℕ) : ℝ) - 2 ^ q * (1 - τ * r / m)
        = -((((t * h / (2 ^ q * m) : ℕ) : ℝ) - ((t * h : ℕ) : ℝ) / ((2 ^ q * m : ℕ) : ℝ))
          + (((t * h : ℕ) : ℝ) / ((2 ^ q * m : ℕ) : ℝ) - 2 ^ q * (τ * r / m))) := by ring
    rw [e2, abs_neg]
    exact (abs_add_le _ _).trans (by linarith)

theorem factorial_large (q : ℕ) : (2 : ℝ) ^ q ≤ (2 * (q / 8 + 9 + 1)).factorial := by
  have key : ∀ m : ℕ, 16 ^ m ≤ (m + 18).factorial := by
    intro m
    induction m with
    | zero => exact Nat.one_le_iff_ne_zero.mpr (Nat.factorial_ne_zero _)
    | succ m ih =>
      rw [show m + 1 + 18 = (m + 18) + 1 by ring, Nat.factorial_succ, pow_succ]
      nlinarith
  have h1 : q ≤ 4 * (2 * (q / 8) + 2) := by omega
  have h2 : 2 ^ q ≤ 16 ^ (2 * (q / 8) + 2) := by
    calc 2 ^ q ≤ 2 ^ (4 * (2 * (q / 8) + 2)) := Nat.pow_le_pow_right (by norm_num) h1
      _ = 16 ^ (2 * (q / 8) + 2) := by rw [pow_mul]; norm_num
  have h3 := key (2 * (q / 8) + 2)
  have e : 2 * (q / 8) + 2 + 18 = 2 * (q / 8 + 9 + 1) := by ring
  rw [e] at h3
  exact_mod_cast h2.trans h3

/-- `cosSmall q u` is within 7 of `2^q * cos x`, for `u` within 2 of `2^q * x`. -/
theorem cosSmall_error {q u : ℕ} {x : ℝ} (hq : 8 ≤ q) (h0 : 0 ≤ x) (h1 : x ≤ 4 / 5)
    (hu : |(u : ℝ) - 2 ^ q * x| ≤ 2) : |(cosSmall q u : ℝ) - 2 ^ q * Real.cos x| ≤ 7 := by
  have hQ : (256 : ℝ) ≤ 2 ^ q := by
    calc (256 : ℝ) = 2 ^ 8 := by norm_num
      _ ≤ 2 ^ q := pow_le_pow_right₀ (by norm_num) hq
  have hu' := abs_le.mp hu
  have hule : (u : ℝ) ≤ 2 ^ q * (4 / 5) + 2 := by nlinarith
  have hu1 : u ≤ 2 ^ q := by
    have : (u : ℝ) ≤ 2 ^ q := by linarith
    exact_mod_cast this
  have ht : u * u / 2 ^ q ≤ 2 ^ q :=
    Nat.div_le_of_le_mul (Nat.mul_le_mul hu1 hu1)
  have he : |((u * u / 2 ^ q : ℕ) : ℝ) - 2 ^ q * x ^ 2| ≤ 5 := by
    have hd := natDiv_error (u * u) (2 ^ q)
    have e : ((u * u : ℕ) : ℝ) / ((2 ^ q : ℕ) : ℝ) - 2 ^ q * x ^ 2
        = ((u : ℝ) - 2 ^ q * x) * (u + 2 ^ q * x) / 2 ^ q := by
      push_cast; field_simp; ring
    have hb : |((u * u : ℕ) : ℝ) / ((2 ^ q : ℕ) : ℝ) - 2 ^ q * x ^ 2| ≤ 4 := by
      rw [e, abs_div, abs_of_pos (by positivity : (0 : ℝ) < 2 ^ q), div_le_iff₀ (by positivity),
        abs_mul, abs_of_nonneg (by positivity : (0 : ℝ) ≤ u + 2 ^ q * x)]
      have : (u : ℝ) + 2 ^ q * x ≤ 2 * 2 ^ q := by nlinarith
      calc _ ≤ 2 * (2 * 2 ^ q) := mul_le_mul hu this (by positivity) (by norm_num)
        _ = 4 * 2 ^ q := by ring
    calc _ ≤ _ := abs_sub_le _ (((u * u : ℕ) : ℝ) / ((2 ^ q : ℕ) : ℝ)) _
      _ ≤ 1 + 4 := add_le_add hd hb
      _ = 5 := by norm_num
  have hx2 : x ^ 2 ≤ 2 / 3 := by nlinarith
  have hH := cosHorner_error (by positivity) hx2 ht he (q / 8 + 9) 0
  have hC := cos_partial (x := x) (by linarith) (q / 8 + 9)
  have hF := factorial_large q
  have hC' : |2 ^ q * realHorner (x ^ 2) (q / 8 + 9) 0 - 2 ^ q * Real.cos x| ≤ 1 := by
    rw [← mul_sub, abs_mul, abs_of_pos (by positivity : (0 : ℝ) < 2 ^ q), abs_sub_comm]
    calc (2 : ℝ) ^ q * _ ≤ 2 ^ q * (1 / (2 * (q / 8 + 9 + 1)).factorial) := by gcongr
      _ ≤ 1 := by
        rw [mul_one_div]
        exact div_le_one_of_le₀ hF (by positivity)
  unfold cosSmall
  calc _ ≤ _ := abs_sub_le _ (2 ^ q * realHorner (x ^ 2) (q / 8 + 9) 0) _
    _ ≤ 6 + 1 := add_le_add hH hC'
    _ = 7 := by norm_num

theorem pi_small : Real.pi / 4 ≤ 4 / 5 := by linarith [Real.pi_lt_d2]

/-- `cosQuarter` is within 31 of `2^q * cos(pi * k / b)`. -/
theorem cosQuarter_error {q pi k b : ℕ} (hq : 8 ≤ q) (hpi : |(pi : ℝ) - 2 ^ q * Real.pi| ≤ 2)
    (hb : 0 < b) (hk : 2 * k ≤ b) :
    |(cosQuarter q pi k b : ℝ) - 2 ^ q * Real.cos (Real.pi * k / b)| ≤ 31 := by
  have hbr : (0 : ℝ) < b := by exact_mod_cast hb
  have hkb : (k : ℝ) / b ≤ 1 / 2 := by
    rw [div_le_iff₀ hbr]
    have : (2 : ℝ) * k ≤ b := by exact_mod_cast hk
    linarith
  set x : ℝ := Real.pi * k / (2 * b) with hx
  have hx0 : 0 ≤ x := by positivity
  have hx1 : x ≤ 4 / 5 := by
    have e : x = Real.pi / 2 * (k / b) := by rw [hx]; field_simp
    rw [e]
    calc _ ≤ Real.pi / 2 * (1 / 2) := by gcongr
      _ = Real.pi / 4 := by ring
      _ ≤ 4 / 5 := pi_small
  have hu : |((pi * k / (2 * b) : ℕ) : ℝ) - 2 ^ q * x| ≤ 2 := by
    have hd := natDiv_error (pi * k) (2 * b)
    have e : ((pi * k : ℕ) : ℝ) / ((2 * b : ℕ) : ℝ) - 2 ^ q * x
        = ((pi : ℝ) - 2 ^ q * Real.pi) * (k / (2 * b)) := by
      rw [hx]; push_cast; field_simp
    have hk4 : (k : ℝ) / (2 * b) ≤ 1 / 4 := by
      have : (k : ℝ) / (2 * b) = (k / b) / 2 := by field_simp
      rw [this]; linarith
    have hb' : |((pi * k : ℕ) : ℝ) / ((2 * b : ℕ) : ℝ) - 2 ^ q * x| ≤ 1 := by
      rw [e, abs_mul, abs_of_nonneg (by positivity : (0 : ℝ) ≤ (k : ℝ) / (2 * b))]
      calc _ ≤ 2 * (1 / 4 : ℝ) := mul_le_mul hpi hk4 (by positivity) (by norm_num)
        _ ≤ 1 := by norm_num
    calc _ ≤ _ := abs_sub_le _ (((pi * k : ℕ) : ℝ) / ((2 * b : ℕ) : ℝ)) _
      _ ≤ 1 + 1 := add_le_add hd hb'
      _ = 2 := by norm_num
  have hc := cosSmall_error hq hx0 hx1 hu
  set c := cosSmall q (pi * k / (2 * b)) with hcdef
  have hcle : (c : ℝ) ≤ 2 ^ q := by exact_mod_cast cosHorner_le q _ _ _
  have hcos1 := Real.cos_le_one x
  have hcos0 : 0 ≤ Real.cos x :=
    Real.cos_nonneg_of_neg_pi_div_two_le_of_le (by linarith [Real.pi_pos]) (by linarith [Real.pi_gt_three])
  have hdouble : Real.cos (Real.pi * k / b) = 2 * Real.cos x ^ 2 - 1 := by
    rw [← Real.cos_two_mul]; congr 1; rw [hx]; field_simp
  have hd := natDiv_error (2 * (c * c)) (2 ^ q)
  have e : ((2 * (c * c) : ℕ) : ℝ) / ((2 ^ q : ℕ) : ℝ) - 2 ^ q * (2 * Real.cos x ^ 2)
      = 2 * ((c : ℝ) - 2 ^ q * Real.cos x) * (c + 2 ^ q * Real.cos x) / 2 ^ q := by
    push_cast; field_simp; ring
  have hb2 : |((2 * (c * c) : ℕ) : ℝ) / ((2 ^ q : ℕ) : ℝ) - 2 ^ q * (2 * Real.cos x ^ 2)| ≤ 28 := by
    rw [e, abs_div, abs_of_pos (by positivity : (0 : ℝ) < 2 ^ q), div_le_iff₀ (by positivity),
      abs_mul, abs_mul, abs_of_nonneg (by positivity : (0 : ℝ) ≤ c + 2 ^ q * Real.cos x)]
    have hsum : (c : ℝ) + 2 ^ q * Real.cos x ≤ 2 * 2 ^ q := by
      nlinarith [show (0 : ℝ) < 2 ^ q by positivity]
    calc _ ≤ |(2 : ℝ)| * 7 * (2 * 2 ^ q) := by gcongr
      _ = 28 * 2 ^ q := by norm_num; ring
  unfold cosQuarter
  simp only [← hcdef]
  rw [hdouble, Int.cast_sub, Int.cast_natCast, Int.cast_natCast, Nat.cast_pow, Nat.cast_ofNat]
  have e3 : ((2 * (c * c) / 2 ^ q : ℕ) : ℝ) - 2 ^ q - 2 ^ q * (2 * Real.cos x ^ 2 - 1)
      = (((2 * (c * c) / 2 ^ q : ℕ) : ℝ) - ((2 * (c * c) : ℕ) : ℝ) / ((2 ^ q : ℕ) : ℝ))
        + (((2 * (c * c) : ℕ) : ℝ) / ((2 ^ q : ℕ) : ℝ) - 2 ^ q * (2 * Real.cos x ^ 2)) := by ring
  rw [e3]
  calc _ ≤ _ := abs_add_le _ _
    _ ≤ 1 + 28 := add_le_add hd hb2
    _ ≤ 31 := by norm_num

theorem cutDown_error {p : ℕ} {a : ℤ} {y : ℝ} (h : |(a : ℝ) - 2 ^ (p + 8) * y| ≤ 31) :
    |((a / 2 ^ 8 : ℤ) : ℝ) - 2 ^ p * y| ≤ 2 := by
  obtain ⟨h1, h2⟩ := intDiv_error a (b := 2 ^ 8) (by norm_num)
  push_cast at h1 h2
  have e : (2 : ℝ) ^ (p + 8) = 2 ^ p * 256 := by rw [pow_add]; norm_num
  rw [e] at h
  norm_num at h1 h2 ⊢
  rw [abs_le] at *
  constructor <;> linarith

theorem cosHalf_error {p pi k b : ℕ} (hpi : |(pi : ℝ) - 2 ^ (p + 8) * Real.pi| ≤ 2)
    (hb : 0 < b) (hk : k ≤ b) :
    |(cosHalf p pi k b : ℝ) - 2 ^ p * Real.cos (Real.pi * k / b)| ≤ 2 := by
  have hbr : (b : ℝ) ≠ 0 := by exact_mod_cast hb.ne'
  unfold cosHalf
  split_ifs with h
  · exact cutDown_error (cosQuarter_error (by omega) hpi hb h)
  · have hq := cosQuarter_error (q := p + 8) (by omega) hpi hb (k := b - k) (by omega)
    have hc : Real.cos (Real.pi * ((b - k : ℕ) : ℝ) / b) = -Real.cos (Real.pi * k / b) := by
      rw [Nat.cast_sub hk, ← Real.cos_pi_sub]; congr 1; field_simp
    rw [hc] at hq
    have := cutDown_error hq
    push_cast
    rw [← abs_neg]
    convert this using 2
    push_cast
    ring

/-- The fixed-point cosine is within 2 of `2^p` times the cosine. -/
theorem cosFixWith_spec {p pi : ℕ} (hpi : |(pi : ℝ) - 2 ^ (p + 8) * Real.pi| ≤ 2) (k : ℤ) {b : ℕ}
    (hb : 0 < b) : |(cosFixWith p pi k b : ℝ) - 2 ^ p * Real.cos (Real.pi * k / b)| ≤ 2 := by
  have hbr : (b : ℝ) ≠ 0 := by exact_mod_cast hb.ne'
  have hpos : (0 : ℤ) < ((2 * b : ℕ) : ℤ) := by exact_mod_cast (by omega : 0 < 2 * b)
  have hr0 := Int.emod_nonneg k hpos.ne'
  have hr1 := Int.emod_lt_of_pos k hpos
  set r := (k % ((2 * b : ℕ) : ℤ)).toNat with hr
  have hrz : (r : ℤ) = k % ((2 * b : ℕ) : ℤ) := Int.toNat_of_nonneg hr0
  have hkr : Real.cos (Real.pi * k / b) = Real.cos (Real.pi * r / b) := by
    have hk : (k : ℝ) = r + (k / ((2 * b : ℕ) : ℤ) : ℤ) * (2 * b) := by
      have := Int.emod_add_mul_ediv k ((2 * b : ℕ) : ℤ)
      rw [← hrz] at this
      have h2 : (k : ℝ) = ((r : ℤ) + ((2 * b : ℕ) : ℤ) * (k / ((2 * b : ℕ) : ℤ)) : ℤ) := by
        exact_mod_cast this.symm
      rw [h2]; push_cast; ring
    have : Real.pi * k / b = Real.pi * r / b + (k / ((2 * b : ℕ) : ℤ) : ℤ) * (2 * Real.pi) := by
      rw [hk]; field_simp
    rw [this, Real.cos_add_int_mul_two_pi]
  have hrlt : r < 2 * b := by
    have : (r : ℤ) < ((2 * b : ℕ) : ℤ) := by rw [hrz]; exact hr1
    exact_mod_cast this
  unfold cosFixWith
  simp only [← hr]
  rw [hkr]
  split_ifs with h
  · exact cosHalf_error hpi hb h
  · have := cosHalf_error hpi hb (k := 2 * b - r) (by omega)
    have hc : Real.cos (Real.pi * ((2 * b - r : ℕ) : ℝ) / b) = Real.cos (Real.pi * r / b) := by
      rw [Nat.cast_sub hrlt.le, ← Real.cos_two_pi_sub]; congr 1; push_cast; field_simp; ring
    rwa [hc] at this

theorem cosFix_spec (p : ℕ) (k : ℤ) {b : ℕ} (hb : 0 < b) :
    |(cosFix p k b : ℝ) - 2 ^ p * Real.cos (Real.pi * k / b)| ≤ 2 :=
  cosFixWith_spec (piFix_spec _) k hb

theorem cosBase_spec (k : ℤ) {b : ℕ} (hb : 0 < b) :
    |(cosBase k b : ℝ) - 2 ^ baseBits * Real.cos (Real.pi * k / b)| ≤ 2 :=
  cosFixWith_spec (piFix_spec _) k hb

end Sys2Proof.Machine.Exact
end

