-- ==== Sys2Proof/Laws/Ball.lean ====
section
/-! SUPPORT. Every operation on enclosures encloses the operation's result. -/

namespace Sys2Proof.Machine.Exact

/-- The number `2^64` by which enclosures are scaled. -/
noncomputable abbrev unit : ℝ := 2 ^ baseBits

theorem unit_pos : 0 < unit := by unfold unit; positivity

/-- `x` lies in the enclosure. -/
def Ball.Mem (b : Ball) (x : ℝ) : Prop := |unit * x - b.mid| ≤ b.rad

/-- `x` lies in the enclosure, where there is one. -/
def ballMem (b : Option Ball) (x : ℝ) : Prop :=
  match b with
  | some b => b.Mem x
  | none => True

theorem Ball.mem_ofRat (q : Rat) : (Ball.ofRat q).Mem q := by
  have hd : (0 : ℝ) < q.den := by exact_mod_cast q.den_pos
  obtain ⟨h1, h2⟩ := intDiv_error (q.num * 2 ^ baseBits) q.den_pos
  have hq : unit * (q : ℝ) = ((q.num * 2 ^ baseBits : ℤ) : ℝ) / q.den := by
    rw [Rat.cast_def]; unfold unit; push_cast; ring
  unfold Ball.Mem Ball.ofRat
  rw [hq]
  split_ifs with h
  · simp [h]
  · rw [abs_le]; push_cast at *; constructor <;> linarith

theorem Ball.mem_cosPi (q : Rat) : (Ball.cosPi q).Mem (Real.cos (q * Real.pi)) := by
  have h := cosBase_spec q.num q.den_pos
  unfold Ball.Mem Ball.cosPi unit
  rw [abs_sub_comm] at h
  have e : (q : ℝ) * Real.pi = Real.pi * q.num / q.den := by
    conv_lhs => rw [Rat.cast_def]
    ring
  rw [e]
  exact_mod_cast h

theorem Ball.mem_cosAny (x : ℝ) : Ball.cosAny.Mem (Real.cos x) := by
  unfold Ball.Mem Ball.cosAny unit
  have := abs_le.mp (Real.abs_cos_le_one x)
  have h2 : (0 : ℝ) < 2 ^ baseBits := by positivity
  rw [abs_le]; push_cast
  constructor <;> nlinarith

theorem Ball.mem_add {a b : Ball} {x y : ℝ} (ha : a.Mem x) (hb : b.Mem y) :
    (a.add b).Mem (x + y) := by
  unfold Ball.Mem Ball.add at *
  push_cast
  rw [abs_le] at *
  constructor <;> linarith

theorem Ball.mem_sub {a b : Ball} {x y : ℝ} (ha : a.Mem x) (hb : b.Mem y) :
    (a.sub b).Mem (x - y) := by
  unfold Ball.Mem Ball.sub at *
  push_cast
  rw [abs_le] at *
  constructor <;> linarith

theorem Ball.mem_mul {a b : Ball} {x y : ℝ} (ha : a.Mem x) (hb : b.Mem y) :
    (a.mul b).Mem (x * y) := by
  have hu := unit_pos
  unfold Ball.Mem at ha hb ⊢
  obtain ⟨h1, h2⟩ := intDiv_error (a.mid * b.mid) (b := 2 ^ baseBits) (by positivity)
  set α := unit * x - a.mid with hα
  set β := unit * y - b.mid with hβ
  have hx : x = (a.mid + α) / unit := by rw [hα]; field_simp; ring
  have hy : y = (b.mid + β) / unit := by rw [hβ]; field_simp; ring
  set num := a.mid.natAbs * b.rad + b.mid.natAbs * a.rad + a.rad * b.rad with hnum
  have hA : (a.mid.natAbs : ℝ) = |(a.mid : ℝ)| := by rw [Nat.cast_natAbs, Int.cast_abs]
  have hB : (b.mid.natAbs : ℝ) = |(b.mid : ℝ)| := by rw [Nat.cast_natAbs, Int.cast_abs]
  have hbound : |(a.mid : ℝ) * β + b.mid * α + α * β| ≤ (num : ℝ) := by
    rw [hnum]; push_cast; rw [hA, hB]
    refine (abs_add_le _ _).trans (add_le_add ((abs_add_le _ _).trans (add_le_add ?_ ?_)) ?_)
    · rw [abs_mul]; exact mul_le_mul_of_nonneg_left hb (abs_nonneg _)
    · rw [abs_mul]; exact mul_le_mul_of_nonneg_left ha (abs_nonneg _)
    · rw [abs_mul]; exact mul_le_mul ha hb (abs_nonneg _) (Nat.cast_nonneg _)
  have hdiv := natDiv_error num (2 ^ baseBits)
  have e : unit * (x * y) - (a.mid * b.mid : ℤ) / unit
      = (a.mid * β + b.mid * α + α * β) / unit := by
    rw [hx, hy]; push_cast; field_simp; ring
  have h3 : |unit * (x * y) - (a.mid * b.mid : ℤ) / unit| ≤ num / unit := by
    rw [e, abs_div, abs_of_pos hu]
    exact div_le_div_of_nonneg_right hbound hu.le
  have hunit : ((2 ^ baseBits : ℕ) : ℝ) = unit := by rw [Nat.cast_pow, Nat.cast_ofNat]
  rw [hunit] at h1 h2 hdiv
  have ez : ((2 ^ baseBits : ℕ) : ℤ) = 2 ^ baseBits := by rw [Nat.cast_pow, Nat.cast_ofNat]
  rw [ez] at h1 h2
  show |unit * (x * y) - ((a.mid * b.mid / 2 ^ baseBits : ℤ) : ℝ)| ≤ ((num / 2 ^ baseBits + 2 : ℕ) : ℝ)
  rw [Nat.cast_add]
  rw [abs_le] at *
  push_cast at *
  constructor <;> linarith

theorem intDiv_error_abs (a b : ℤ) (hb : b ≠ 0) : |((a / b : ℤ) : ℝ) - (a : ℝ) / b| ≤ 1 := by
  rcases lt_or_gt_of_ne hb with h | h
  · obtain ⟨n, hn⟩ := Int.eq_ofNat_of_zero_le (by omega : (0 : ℤ) ≤ -b)
    have hn0 : 0 < n := by omega
    have hb' : b = -(n : ℤ) := by omega
    obtain ⟨h1, h2⟩ := intDiv_error a hn0
    rw [hb', Int.ediv_neg]
    push_cast
    rw [div_neg, abs_le]
    constructor <;> linarith
  · obtain ⟨n, hn⟩ := Int.eq_ofNat_of_zero_le h.le
    have hn0 : 0 < n := by omega
    subst hn
    obtain ⟨h1, h2⟩ := intDiv_error a hn0
    push_cast
    rw [abs_le]
    constructor <;> linarith

theorem Ball.mem_div {a b c : Ball} {x y : ℝ} (hc : a.div b = some c) (ha : a.Mem x)
    (hb : b.Mem y) : c.Mem (x / y) := by
  have hu := unit_pos
  unfold Ball.div at hc
  split_ifs at hc with h
  obtain rfl := Option.some.inj hc
  unfold Ball.Mem at ha hb ⊢
  set α := unit * x - a.mid with hα
  set β := unit * y - b.mid with hβ
  have hx : x = (a.mid + α) / unit := by rw [hα]; field_simp; ring
  have hy : y = (b.mid + β) / unit := by rw [hβ]; field_simp; ring
  have hA : (a.mid.natAbs : ℝ) = |(a.mid : ℝ)| := by rw [Nat.cast_natAbs, Int.cast_abs]
  have hB : (b.mid.natAbs : ℝ) = |(b.mid : ℝ)| := by rw [Nat.cast_natAbs, Int.cast_abs]
  have hlt : b.rad < b.mid.natAbs := by omega
  have hltR : (b.rad : ℝ) < |(b.mid : ℝ)| := by rw [← hB]; exact_mod_cast hlt
  have hb0 : b.mid ≠ 0 := by
    intro h0; rw [h0] at hlt; simp at hlt
  have hbr : (b.mid : ℝ) ≠ 0 := by exact_mod_cast hb0
  have hden : |(b.mid : ℝ)| - b.rad ≤ |(b.mid : ℝ) + β| := by
    have := abs_sub_abs_le_abs_sub (b.mid : ℝ) (-β)
    rw [abs_neg, sub_neg_eq_add] at this
    linarith
  have hbβ : (b.mid : ℝ) + β ≠ 0 := by
    intro h0; rw [h0, abs_zero] at hden; linarith
  set num := (a.mid.natAbs * b.rad + b.mid.natAbs * a.rad) * 2 ^ baseBits with hnum
  set den := b.mid.natAbs * (b.mid.natAbs - b.rad) with hdenN
  have hdenR : (den : ℝ) = |(b.mid : ℝ)| * (|(b.mid : ℝ)| - b.rad) := by
    rw [hdenN, Nat.cast_mul, Nat.cast_sub hlt.le, hB]
  have hdenpos : (0 : ℝ) < |(b.mid : ℝ)| * (|(b.mid : ℝ)| - b.rad) := by
    have : (0 : ℝ) < |(b.mid : ℝ)| := abs_pos.mpr hbr
    have : 0 < |(b.mid : ℝ)| - b.rad := by linarith
    positivity
  have e : unit * (x / y) - ((a.mid * 2 ^ baseBits : ℤ) : ℝ) / b.mid
      = unit * (α * b.mid - a.mid * β) / (b.mid * (b.mid + β)) := by
    rw [hx, hy]; push_cast; unfold unit; field_simp; ring
  have h3 : |unit * (x / y) - ((a.mid * 2 ^ baseBits : ℤ) : ℝ) / b.mid| ≤ num / den := by
    rw [e, abs_div, abs_mul, abs_mul, abs_of_pos hu, hdenR]
    refine div_le_div₀ (by positivity) ?_ hdenpos (mul_le_mul_of_nonneg_left hden (abs_nonneg _))
    rw [hnum]; push_cast; rw [hA, hB, mul_comm unit]
    refine mul_le_mul_of_nonneg_right ?_ hu.le
    refine (abs_sub _ _).trans ?_
    rw [abs_mul, abs_mul, add_comm, mul_comm |α|]
    gcongr
  have h4 := intDiv_error_abs (a.mid * 2 ^ baseBits) b.mid hb0
  have h5 := natDiv_error num den
  show |unit * (x / y) - ((a.mid * 2 ^ baseBits / b.mid : ℤ) : ℝ)| ≤ ((num / den + 2 : ℕ) : ℝ)
  rw [Nat.cast_add]
  rw [abs_le] at *
  push_cast at *
  constructor <;> linarith

theorem ballMem_map2 {f : Ball → Ball → Option Ball} {g : ℝ → ℝ → ℝ}
    (hf : ∀ {a b c x y}, f a b = some c → a.Mem x → b.Mem y → c.Mem (g x y))
    {a b : Option Ball} {x y : ℝ} (ha : ballMem a x) (hb : ballMem b y) :
    ballMem (Ball.map2 f a b) (g x y) := by
  cases a with
  | none => trivial
  | some a =>
    cases b with
    | none => trivial
    | some b =>
      show ballMem (f a b) (g x y)
      cases h : f a b with
      | none => trivial
      | some c => exact hf h ha hb

/-- The enclosure's lower and upper end. -/
theorem Ball.Mem.bounds {b : Ball} {x : ℝ} (h : b.Mem x) :
    ((b.mid - b.rad : ℤ) : ℝ) ≤ unit * x ∧ unit * x ≤ ((b.mid + b.rad : ℤ) : ℝ) := by
  unfold Ball.Mem at h
  rw [abs_le] at h
  push_cast
  constructor <;> linarith

end Sys2Proof.Machine.Exact
end

