-- ==== Sys2Proof/Laws/Memory.lean ====
section
/-! SUPPORT. The memory: a write is read back and leaves every other byte alone; a write inside the
buffers keeps the canonical form; reading many bytes in one pass is reading each of them. -/

namespace Sys2Proof.Machine

/-! ## Lookup -/

theorem Memory.lookup_append (m₁ m₂ : List Host.Cell) (x : Nat) :
    Memory.lookup (m₁ ++ m₂) x = (Memory.lookup m₁ x).or (Memory.lookup m₂ x) := by
  induction m₁ with
  | nil => simp [Memory.lookup]
  | cons c rest ih =>
    obtain ⟨k, b⟩ := c
    by_cases h : k = x <;> simp [Memory.lookup, h, ih]

/-- Filtering by the offset alone drops or keeps the entry of an offset as a whole. -/
theorem Memory.lookup_filter (m : List Host.Cell) (p : Nat → Bool) (x : Nat) :
    Memory.lookup (m.filter fun c => p c.1) x = if p x then Memory.lookup m x else none := by
  induction m with
  | nil => simp [Memory.lookup]
  | cons c rest ih =>
    obtain ⟨k, b⟩ := c
    by_cases hk : k = x
    · subst hk
      by_cases hp : p k <;> simp [Memory.lookup, hp, ih]
    · by_cases hp : p k <;> simp [Memory.lookup, hp, ih, hk]

/-- The entry of an offset among the entries of written bytes. -/
theorem Memory.lookup_cells (bs : List Byte) (a x : Nat) :
    Memory.lookup (Memory.cells a bs) x =
      if h : a ≤ x ∧ x < a + bs.length then
        if Memory.unlisted x = some (bs[x - a]'(by omega)) then none else some (bs[x - a]'(by omega))
      else none := by
  induction bs generalizing a with
  | nil => simp [Memory.cells, Memory.lookup]
  | cons b rest ih =>
    have hrest : ∀ h : a + 1 ≤ x ∧ x < a + 1 + rest.length,
        rest[x - (a + 1)]'(by omega) = (b :: rest)[x - a]'(by simp; omega) := by
      intro h
      have : x - a = x - (a + 1) + 1 := by omega
      simp [this]
    by_cases hx : x = a
    · subst hx
      by_cases hu : Memory.unlisted x = some b <;> simp [Memory.cells, hu, Memory.lookup, ih]
    · have hax : ¬a = x := fun e => hx e.symm
      have step : Memory.lookup (Memory.cells a (b :: rest)) x
          = Memory.lookup (Memory.cells (a + 1) rest) x := by
        by_cases hu : Memory.unlisted a = some b <;> simp [Memory.cells, hu, Memory.lookup, hax]
      rw [step, ih]
      by_cases h : a + 1 ≤ x ∧ x < a + 1 + rest.length
      · have h' : a ≤ x ∧ x < a + (b :: rest).length := by simp only [List.length_cons]; omega
        rw [dif_pos h, dif_pos h', hrest h]
      · have h' : ¬(a ≤ x ∧ x < a + (b :: rest).length) := by simp only [List.length_cons]; omega
        rw [dif_neg h, dif_neg h']

theorem Memory.unlistedByte_of_some {epoch a : Nat} {b : Byte} (h : Memory.unlisted a = some b) :
    Memory.unlistedByte epoch a = b := by
  simp [Memory.unlistedByte, h]

/-- THE memory law: a byte written is read back, every other byte reads as before. -/
theorem Memory.readByte_writeBytes (epoch : Nat) (m : List Host.Cell) (a : Nat) (bs : List Byte)
    (x : Nat) :
    Memory.readByte epoch (Memory.writeBytes m a bs) x =
      if h : a ≤ x ∧ x < a + bs.length then bs[x - a]'(by omega) else Memory.readByte epoch m x := by
  unfold Memory.readByte Memory.writeBytes
  rw [Memory.lookup_append, Memory.lookup_append,
    Memory.lookup_filter m (fun k => decide (k < a)), Memory.lookup_cells,
    Memory.lookup_filter m (fun k => decide (a + bs.length ≤ k))]
  by_cases h1 : x < a
  · have h : ¬(a ≤ x ∧ x < a + bs.length) := by omega
    have h2 : ¬(a + bs.length ≤ x) := by omega
    simp [h, h1, h2]
  · by_cases h2 : a + bs.length ≤ x
    · have h : ¬(a ≤ x ∧ x < a + bs.length) := by omega
      simp [h, h1, h2]
    · have h : a ≤ x ∧ x < a + bs.length := by omega
      by_cases hu : Memory.unlisted x = some (bs[x - a]'(by omega))
      · simp [h, h1, h2, hu, Memory.unlistedByte_of_some hu]
      · simp [h, h1, h2, hu]

/-! ## The canonical form -/

theorem Memory.wfFrom_mono {lo lo' : Nat} (h : lo' ≤ lo) {m : List Host.Cell}
    (hm : Memory.wfFrom lo m = true) : Memory.wfFrom lo' m = true := by
  cases m with
  | nil => rfl
  | cons c rest =>
    obtain ⟨k, b⟩ := c
    simp only [Memory.wfFrom, Bool.and_eq_true, decide_eq_true_eq] at hm ⊢
    exact ⟨⟨⟨by omega, hm.1.1.2⟩, hm.1.2⟩, hm.2⟩

/-- Filtering keeps the form. -/
theorem Memory.wfFrom_filter (p : Host.Cell → Bool) {lo : Nat} {m : List Host.Cell}
    (hm : Memory.wfFrom lo m = true) : Memory.wfFrom lo (m.filter p) = true := by
  induction m generalizing lo with
  | nil => rfl
  | cons c rest ih =>
    obtain ⟨k, b⟩ := c
    simp only [Memory.wfFrom, Bool.and_eq_true, decide_eq_true_eq] at hm
    by_cases hp : p (k, b)
    · simp only [List.filter_cons, hp, if_true, Memory.wfFrom, Bool.and_eq_true, decide_eq_true_eq]
      exact ⟨⟨⟨hm.1.1.1, hm.1.1.2⟩, hm.1.2⟩, ih hm.2⟩
    · simp only [List.filter_cons, hp, if_false, Bool.false_eq_true]
      exact Memory.wfFrom_mono (by omega) (ih hm.2)

/-- What the form says of each entry, from `lo` on. -/
theorem Memory.wfFrom_iff (lo : Nat) (m : List Host.Cell) :
    Memory.wfFrom lo m = true ↔
      m.Pairwise (fun c d => c.1 < d.1) ∧
        ∀ c ∈ m, lo ≤ c.1 ∧ Memory.isBuffer c.1 = true ∧ Memory.unlisted c.1 ≠ some c.2 := by
  induction m generalizing lo with
  | nil => simp [Memory.wfFrom]
  | cons c rest ih =>
    obtain ⟨k, b⟩ := c
    simp only [Memory.wfFrom, Bool.and_eq_true, decide_eq_true_eq, ih, List.pairwise_cons,
      List.mem_cons, forall_eq_or_imp]
    constructor
    · rintro ⟨⟨⟨h1, h2⟩, h3⟩, h4, h5⟩
      exact ⟨⟨fun d hd => by have := (h5 d hd).1; omega, h4⟩, ⟨h1, h2, h3⟩,
        fun d hd => ⟨by have := (h5 d hd).1; omega, (h5 d hd).2⟩⟩
    · rintro ⟨⟨h1, h2⟩, ⟨h3, h4, h5⟩, h6⟩
      exact ⟨⟨⟨h3, h4⟩, h5⟩, h2, fun d hd => ⟨h1 d hd, (h6 d hd).2⟩⟩

/-- The entries of written bytes: each inside the range, none redundant. -/
theorem Memory.mem_cells {bs : List Byte} {a : Nat} {c : Host.Cell} (h : c ∈ Memory.cells a bs) :
    a ≤ c.1 ∧ c.1 < a + bs.length ∧ Memory.unlisted c.1 ≠ some c.2 := by
  induction bs generalizing a with
  | nil => simp [Memory.cells] at h
  | cons b rest ih =>
    simp only [Memory.cells, List.length_cons] at h ⊢
    split_ifs at h with hu
    · have := ih h
      exact ⟨by omega, by omega, this.2.2⟩
    · rcases List.mem_cons.mp h with rfl | h
      · exact ⟨le_rfl, by omega, hu⟩
      · have := ih h
        exact ⟨by omega, by omega, this.2.2⟩

theorem Memory.cells_pairwise (bs : List Byte) (a : Nat) :
    (Memory.cells a bs).Pairwise fun c d => c.1 < d.1 := by
  induction bs generalizing a with
  | nil => exact List.Pairwise.nil
  | cons b rest ih =>
    simp only [Memory.cells]
    split_ifs
    · exact ih _
    · exact List.pairwise_cons.mpr ⟨fun d hd => by have := (Memory.mem_cells hd).1; simp only; omega,
        ih _⟩

/-- A write inside the buffers keeps the canonical form. -/
theorem Memory.wf_writeBytes {m : List Host.Cell} {a : Nat} {bs : List Byte}
    (hm : Memory.wf m = true) (hb : ∀ x, a ≤ x → x < a + bs.length → Memory.isBuffer x = true) :
    Memory.wf (Memory.writeBytes m a bs) = true := by
  unfold Memory.wf at hm ⊢
  rw [Memory.wfFrom_iff] at hm ⊢
  obtain ⟨hp, he⟩ := hm
  unfold Memory.writeBytes
  refine ⟨?_, ?_⟩
  · rw [List.pairwise_append, List.pairwise_append]
    refine ⟨⟨hp.filter _, Memory.cells_pairwise _ _, ?_⟩, hp.filter _, ?_⟩
    · intro c hc d hd
      have h1 := (List.mem_filter.mp hc).2
      have h2 := (Memory.mem_cells hd).1
      simp only [decide_eq_true_eq] at h1
      omega
    · intro c hc d hd
      have h2 := (List.mem_filter.mp hd).2
      simp only [decide_eq_true_eq] at h2
      rcases List.mem_append.mp hc with hc | hc
      · have h1 := (List.mem_filter.mp hc).2
        simp only [decide_eq_true_eq] at h1
        omega
      · have h1 := (Memory.mem_cells hc).2.1
        omega
  · intro c hc
    rcases List.mem_append.mp hc with hc | hc
    · rcases List.mem_append.mp hc with hc | hc
      · exact he c (List.mem_filter.mp hc).1
      · obtain ⟨h1, h2, h3⟩ := Memory.mem_cells hc
        exact ⟨Nat.zero_le _, hb _ h1 h2, h3⟩
    · exact he c (List.mem_filter.mp hc).1

/-- Two memories in canonical form that read alike are the same list, whatever the free values are. -/
theorem Memory.lookup_injective {m₁ m₂ : List Host.Cell} (h₁ : Memory.wf m₁ = true)
    (h₂ : Memory.wf m₂ = true) (h : ∀ x, Memory.lookup m₁ x = Memory.lookup m₂ x) : m₁ = m₂ := by
  have below : ∀ {lo : Nat} {m : List Host.Cell}, Memory.wfFrom lo m = true →
      ∀ x, x < lo → Memory.lookup m x = none := by
    intro lo m
    induction m generalizing lo with
    | nil => intro _ x _; rfl
    | cons c rest ih =>
      obtain ⟨k, b⟩ := c
      intro hm x hx
      simp only [Memory.wfFrom, Bool.and_eq_true, decide_eq_true_eq] at hm
      have hk : ¬k = x := by omega
      simp only [Memory.lookup, hk, if_false]
      exact ih hm.2 x (by omega)
  unfold Memory.wf at h₁ h₂
  generalize 0 = lo at h₁ h₂
  induction m₁ generalizing m₂ lo with
  | nil =>
    cases m₂ with
    | nil => rfl
    | cons d rest => have := h d.1; simp [Memory.lookup] at this
  | cons c rest ih =>
    obtain ⟨k, b⟩ := c
    cases m₂ with
    | nil => have := h k; simp [Memory.lookup] at this
    | cons d rest₂ =>
      obtain ⟨k₂, b₂⟩ := d
      simp only [Memory.wfFrom, Bool.and_eq_true, decide_eq_true_eq] at h₁ h₂
      have hkk : k = k₂ := by
        rcases Nat.lt_trichotomy k k₂ with hlt | rfl | hlt
        · have := h k
          rw [Memory.lookup, if_pos rfl, Memory.lookup, if_neg (by omega),
            below h₂.2 k (by omega)] at this
          cases this
        · rfl
        · have := h k₂
          rw [Memory.lookup, if_neg (by omega), below h₁.2 k₂ (by omega), Memory.lookup,
            if_pos rfl] at this
          cases this
      subst hkk
      have hb := h k
      simp only [Memory.lookup, if_true, Option.some.injEq] at hb
      subst hb
      congr 1
      refine ih ?_ (k + 1) h₁.2 h₂.2
      intro x
      by_cases hx : k = x
      · subst hx
        rw [below h₁.2 k (by omega), below h₂.2 k (by omega)]
      · have := h x
        simpa only [Memory.lookup, hx, if_false] using this

/-! ## Reading many bytes -/

theorem Memory.readFrom_eq (epoch : Nat) (n : Nat) (m : List Host.Cell) (a : Nat)
    (hm : Memory.wfFrom a m = true) :
    Memory.readFrom epoch m a n = (List.range n).map fun i => Memory.readByte epoch m (a + i) := by
  induction n generalizing m a with
  | zero => rfl
  | succ n ih =>
    rw [List.range_succ_eq_map, List.map_cons, List.map_map]
    have shift : ∀ m', (List.range n).map ((fun i => Memory.readByte epoch m' (a + i)) ∘ Nat.succ)
        = (List.range n).map fun i => Memory.readByte epoch m' (a + 1 + i) := by
      intro m'
      refine List.map_congr_left fun i _ => ?_
      simp only [Function.comp_apply, Nat.succ_eq_add_one]
      congr 1
      omega
    rw [shift]
    cases m with
    | nil =>
      rw [Memory.readFrom, ih [] (a + 1) rfl]
      rfl
    | cons c rest =>
      obtain ⟨k, b⟩ := c
      have hm' := hm
      simp only [Memory.wfFrom, Bool.and_eq_true, decide_eq_true_eq] at hm
      rw [Memory.readFrom]
      by_cases hk : k = a
      · subst hk
        rw [if_pos rfl, ih rest (k + 1) hm.2]
        congr 1
        · simp [Memory.readByte, Memory.lookup]
        · refine List.map_congr_left fun i _ => ?_
          have : ¬k = k + 1 + i := by omega
          simp [Memory.readByte, Memory.lookup, this]
      · have hwf : Memory.wfFrom (a + 1) ((k, b) :: rest) = true := by
          simp only [Memory.wfFrom, Bool.and_eq_true, decide_eq_true_eq]
          exact ⟨⟨⟨by omega, hm.1.1.2⟩, hm.1.2⟩, hm.2⟩
        rw [if_neg hk, ih _ (a + 1) hwf]
        congr 1
        have hnone : Memory.lookup ((k, b) :: rest) a = none := by
          have hne : ∀ c ∈ (k, b) :: rest, a + 1 ≤ c.1 := fun c hc =>
            (((Memory.wfFrom_iff _ _).mp hwf).2 c hc).1
          revert hne
          generalize (k, b) :: rest = l
          intro hne
          induction l with
          | nil => rfl
          | cons d l ihl =>
            obtain ⟨k', b'⟩ := d
            have : ¬k' = a := by have := hne (k', b') (List.mem_cons_self ..); simp only at this; omega
            simp only [Memory.lookup, this, if_false]
            exact ihl fun c hc => hne c (List.mem_cons_of_mem _ hc)
        simp [Memory.readByte, hnone]

/-- Reading `n` bytes in one pass is reading each of them, on a memory in canonical form. -/
theorem Memory.readBytes_eq {m : List Host.Cell} (hm : Memory.wf m = true) (epoch a n : Nat) :
    Memory.readBytes epoch m a n = (List.range n).map fun i => Memory.readByte epoch m (a + i) := by
  unfold Memory.readBytes
  have hwf : Memory.wfFrom a (m.filter fun c => decide (a ≤ c.1)) = true := by
    unfold Memory.wf at hm
    rw [Memory.wfFrom_iff] at hm ⊢
    refine ⟨hm.1.filter _, fun c hc => ?_⟩
    have h := List.mem_filter.mp hc
    exact ⟨by simpa using h.2, (hm.2 c h.1).2⟩
  rw [Memory.readFrom_eq _ _ _ _ hwf]
  refine List.map_congr_left fun i _ => ?_
  unfold Memory.readByte
  rw [Memory.lookup_filter m (fun k => decide (a ≤ k))]
  simp

theorem Memory.readFrom_length (epoch : Nat) (n : Nat) (m : List Host.Cell) (a : Nat) :
    (Memory.readFrom epoch m a n).length = n := by
  induction n generalizing m a with
  | zero => rfl
  | succ n ih =>
    cases m with
    | nil => simp [Memory.readFrom, ih]
    | cons c rest =>
      obtain ⟨k, b⟩ := c
      by_cases hk : k = a <;> simp [Memory.readFrom, hk, ih]

@[simp] theorem State.readBytes_length (s : State) (a n : Nat) : (s.readBytes a n).length = n :=
  Memory.readFrom_length _ _ _ _

/-! ## State -/

/-- A byte written is read back, every other byte reads as before. -/
theorem State.readByte_writeBytes (s : State) (a : Nat) (bs : List Byte) (x : Nat) :
    (s.writeBytes a bs).readByte x =
      if h : a ≤ x ∧ x < a + bs.length then bs[x - a]'(by omega) else s.readByte x :=
  Memory.readByte_writeBytes s.epoch s.mem a bs x

theorem State.readByte_writeBytes_of_not_mem (s : State) {a : Nat} {bs : List Byte} {x : Nat}
    (h : x < a ∨ a + bs.length ≤ x) : (s.writeBytes a bs).readByte x = s.readByte x := by
  rw [State.readByte_writeBytes, dif_neg (by omega)]

theorem State.readByte_writeBytes_at (s : State) {a : Nat} {bs : List Byte} {i : Nat}
    (h : i < bs.length) : (s.writeBytes a bs).readByte (a + i) = bs[i] := by
  rw [State.readByte_writeBytes, dif_pos (by omega)]
  congr 1
  omega

theorem State.readBytes_eq {s : State} (hm : Memory.wf s.mem = true) (a n : Nat) :
    s.readBytes a n = (List.range n).map fun i => s.readByte (a + i) := Memory.readBytes_eq hm _ _ _

/-- Reading exactly the bytes just written. -/
theorem State.readBytes_writeBytes {s : State} (hm : Memory.wf s.mem = true) {a : Nat}
    {bs : List Byte} (hb : ∀ x, a ≤ x → x < a + bs.length → Memory.isBuffer x = true) :
    (s.writeBytes a bs).readBytes a bs.length = bs := by
  rw [State.readBytes_eq (Memory.wf_writeBytes hm hb)]
  refine List.ext_getElem (by simp) fun i h1 h2 => ?_
  simp only [List.getElem_map, List.getElem_range]
  exact State.readByte_writeBytes_at s h2

theorem bytesOfWord_length (v : Word) : (bytesOfWord v).length = 4 := rfl

/-- A word is its four bytes, lowest offset first. -/
theorem wordOfBytes_bytesOfWord (v : Word) :
    wordOfBytes (byteOfWord v 0) (byteOfWord v 1) (byteOfWord v 2) (byteOfWord v 3) = v := by
  refine BitVec.eq_of_getLsbD_eq fun i hi => ?_
  simp only [wordOfBytes, byteOfWord, BitVec.getLsbD_append, BitVec.getLsbD_extractLsb']
  by_cases h0 : i < 8
  · simp [h0]
  by_cases h1 : i < 16
  · have e : i - 8 < 8 := by omega
    have f : 8 + (i - 8) = i := by omega
    simp [h0, e, f]
  by_cases h2 : i < 24
  · have e : i - 8 - 8 < 8 := by omega
    have e' : ¬i - 8 < 8 := by omega
    have f : 16 + (i - 8 - 8) = i := by omega
    simp [h0, e, e', f]
  · have e : i - 8 - 8 - 8 < 8 := by omega
    have e' : ¬i - 8 < 8 := by omega
    have e'' : ¬i - 8 - 8 < 8 := by omega
    have f : 24 + (i - 8 - 8 - 8) = i := by omega
    simp [h0, e, e', e'', f]

theorem byteOfWord_wordOfBytes (b0 b1 b2 b3 : Byte) :
    byteOfWord (wordOfBytes b0 b1 b2 b3) 0 = b0 ∧ byteOfWord (wordOfBytes b0 b1 b2 b3) 1 = b1 ∧
      byteOfWord (wordOfBytes b0 b1 b2 b3) 2 = b2 ∧ byteOfWord (wordOfBytes b0 b1 b2 b3) 3 = b3 := by
  refine ⟨?_, ?_, ?_, ?_⟩ <;> refine BitVec.eq_of_getLsbD_eq fun i hi => ?_ <;>
    simp only [wordOfBytes, byteOfWord, BitVec.getLsbD_append, BitVec.getLsbD_extractLsb']
  · simp [hi]
  · have e : ¬8 + i < 8 := by omega
    simp [hi, e]
  · have e : ¬16 + i < 8 := by omega
    have e' : ¬16 + i - 8 < 8 := by omega
    have f : 16 + i - 8 - 8 = i := by omega
    simp [hi, e, e', f]
  · have e : ¬24 + i < 8 := by omega
    have e' : ¬24 + i - 8 < 8 := by omega
    have e'' : ¬24 + i - 8 - 8 < 8 := by omega
    have f : 24 + i - 8 - 8 - 8 = i := by omega
    simp [hi, e, e', e'', f]

/-- A word written is read back (R42). -/
theorem State.readWord_writeWord (s : State) (a : Nat) (v : Word) :
    (s.writeWord a v).readWord a = v := by
  have h : ∀ k (hk : k < 4), (s.writeWord a v).readByte (a + k) = (bytesOfWord v)[k]'hk := fun k hk =>
    State.readByte_writeBytes_at s (bs := bytesOfWord v) hk
  have h0 := h 0 (by omega)
  rw [Nat.add_zero] at h0
  unfold State.readWord
  rw [h0, h 1 (by omega), h 2 (by omega), h 3 (by omega)]
  exact wordOfBytes_bytesOfWord v

/-- A word written leaves every byte outside it alone. -/
theorem State.readByte_writeWord_of_not_mem (s : State) {a x : Nat} (v : Word)
    (h : x < a ∨ a + 4 ≤ x) : (s.writeWord a v).readByte x = s.readByte x :=
  State.readByte_writeBytes_of_not_mem s (by rw [bytesOfWord_length]; exact h)

/-- A word written leaves every other aligned word alone. -/
theorem State.readWord_writeWord_of_ne (s : State) {a x : Nat} (v : Word)
    (h : x + 4 ≤ a ∨ a + 4 ≤ x) : (s.writeWord a v).readWord x = s.readWord x := by
  unfold State.readWord
  rw [State.readByte_writeWord_of_not_mem s v (by omega),
    State.readByte_writeWord_of_not_mem s v (by omega),
    State.readByte_writeWord_of_not_mem s v (by omega),
    State.readByte_writeWord_of_not_mem s v (by omega)]

end Sys2Proof.Machine
end

