-- ==== Sys2Proof/Laws/State.lean ====
section
/-! SUPPORT. One lemma per field of State and per update of it, so that no proof unfolds a record
update; and what reading memory gives after an update that does not touch it. -/

namespace Sys2Proof.Machine

/-! ## State.writeBytes -/

@[simp] theorem State.writeBytes_cmdLatch (s : State) (a : Nat) (bs : List Byte) :
    (s.writeBytes a bs).cmdLatch = s.cmdLatch := rfl
@[simp] theorem State.writeBytes_status (s : State) (a : Nat) (bs : List Byte) :
    (s.writeBytes a bs).status = s.status := rfl
@[simp] theorem State.writeBytes_width (s : State) (a : Nat) (bs : List Byte) :
    (s.writeBytes a bs).width = s.width := rfl
@[simp] theorem State.writeBytes_height (s : State) (a : Nat) (bs : List Byte) :
    (s.writeBytes a bs).height = s.height := rfl
@[simp] theorem State.writeBytes_hashLen (s : State) (a : Nat) (bs : List Byte) :
    (s.writeBytes a bs).hashLen = s.hashLen := rfl
@[simp] theorem State.writeBytes_geom (s : State) (a : Nat) (bs : List Byte) :
    (s.writeBytes a bs).geom = s.geom := rfl
@[simp] theorem State.writeBytes_counts (s : State) (a : Nat) (bs : List Byte) :
    (s.writeBytes a bs).counts = s.counts := rfl
@[simp] theorem State.writeBytes_outDim (s : State) (a : Nat) (bs : List Byte) :
    (s.writeBytes a bs).outDim = s.outDim := rfl
@[simp] theorem State.writeBytes_avgRgba (s : State) (a : Nat) (bs : List Byte) :
    (s.writeBytes a bs).avgRgba = s.avgRgba := rfl
@[simp] theorem State.writeBytes_aspect (s : State) (a : Nat) (bs : List Byte) :
    (s.writeBytes a bs).aspect = s.aspect := rfl
@[simp] theorem State.writeBytes_mem (s : State) (a : Nat) (bs : List Byte) :
    (s.writeBytes a bs).mem = Memory.writeBytes s.mem a bs := rfl
@[simp] theorem State.writeBytes_epoch (s : State) (a : Nat) (bs : List Byte) :
    (s.writeBytes a bs).epoch = s.epoch := rfl
@[simp] theorem State.writeBytes_port (s : State) (a : Nat) (bs : List Byte) :
    (s.writeBytes a bs).port = s.port := rfl
@[simp] theorem State.writeBytes_turns (s : State) (a : Nat) (bs : List Byte) :
    (s.writeBytes a bs).turns = s.turns := rfl
@[simp] theorem State.writeBytes_replies (s : State) (a : Nat) (bs : List Byte) :
    (s.writeBytes a bs).replies = s.replies := rfl

/-! ## State.writeWord -/

@[simp] theorem State.writeWord_cmdLatch (s : State) (a : Nat) (v : Word) :
    (s.writeWord a v).cmdLatch = s.cmdLatch := rfl
@[simp] theorem State.writeWord_status (s : State) (a : Nat) (v : Word) :
    (s.writeWord a v).status = s.status := rfl
@[simp] theorem State.writeWord_width (s : State) (a : Nat) (v : Word) :
    (s.writeWord a v).width = s.width := rfl
@[simp] theorem State.writeWord_height (s : State) (a : Nat) (v : Word) :
    (s.writeWord a v).height = s.height := rfl
@[simp] theorem State.writeWord_hashLen (s : State) (a : Nat) (v : Word) :
    (s.writeWord a v).hashLen = s.hashLen := rfl
@[simp] theorem State.writeWord_geom (s : State) (a : Nat) (v : Word) :
    (s.writeWord a v).geom = s.geom := rfl
@[simp] theorem State.writeWord_counts (s : State) (a : Nat) (v : Word) :
    (s.writeWord a v).counts = s.counts := rfl
@[simp] theorem State.writeWord_outDim (s : State) (a : Nat) (v : Word) :
    (s.writeWord a v).outDim = s.outDim := rfl
@[simp] theorem State.writeWord_avgRgba (s : State) (a : Nat) (v : Word) :
    (s.writeWord a v).avgRgba = s.avgRgba := rfl
@[simp] theorem State.writeWord_aspect (s : State) (a : Nat) (v : Word) :
    (s.writeWord a v).aspect = s.aspect := rfl
@[simp] theorem State.writeWord_mem (s : State) (a : Nat) (v : Word) :
    (s.writeWord a v).mem = Memory.writeBytes s.mem a (bytesOfWord v) := rfl
@[simp] theorem State.writeWord_epoch (s : State) (a : Nat) (v : Word) :
    (s.writeWord a v).epoch = s.epoch := rfl
@[simp] theorem State.writeWord_port (s : State) (a : Nat) (v : Word) :
    (s.writeWord a v).port = s.port := rfl
@[simp] theorem State.writeWord_turns (s : State) (a : Nat) (v : Word) :
    (s.writeWord a v).turns = s.turns := rfl
@[simp] theorem State.writeWord_replies (s : State) (a : Nat) (v : Word) :
    (s.writeWord a v).replies = s.replies := rfl

/-! ## State.setGeometry -/

@[simp] theorem State.setGeometry_cmdLatch (s : State) (g : Geom) (c : Counts) :
    (s.setGeometry g c).cmdLatch = s.cmdLatch := rfl
@[simp] theorem State.setGeometry_status (s : State) (g : Geom) (c : Counts) :
    (s.setGeometry g c).status = s.status := rfl
@[simp] theorem State.setGeometry_width (s : State) (g : Geom) (c : Counts) :
    (s.setGeometry g c).width = s.width := rfl
@[simp] theorem State.setGeometry_height (s : State) (g : Geom) (c : Counts) :
    (s.setGeometry g c).height = s.height := rfl
@[simp] theorem State.setGeometry_hashLen (s : State) (g : Geom) (c : Counts) :
    (s.setGeometry g c).hashLen = s.hashLen := rfl
@[simp] theorem State.setGeometry_geom (s : State) (g : Geom) (c : Counts) :
    (s.setGeometry g c).geom = g := rfl
@[simp] theorem State.setGeometry_counts (s : State) (g : Geom) (c : Counts) :
    (s.setGeometry g c).counts = c := rfl
@[simp] theorem State.setGeometry_outDim (s : State) (g : Geom) (c : Counts) :
    (s.setGeometry g c).outDim = s.outDim := rfl
@[simp] theorem State.setGeometry_avgRgba (s : State) (g : Geom) (c : Counts) :
    (s.setGeometry g c).avgRgba = s.avgRgba := rfl
@[simp] theorem State.setGeometry_aspect (s : State) (g : Geom) (c : Counts) :
    (s.setGeometry g c).aspect = s.aspect := rfl
@[simp] theorem State.setGeometry_mem (s : State) (g : Geom) (c : Counts) :
    (s.setGeometry g c).mem = s.mem := rfl
@[simp] theorem State.setGeometry_epoch (s : State) (g : Geom) (c : Counts) :
    (s.setGeometry g c).epoch = s.epoch := rfl
@[simp] theorem State.setGeometry_port (s : State) (g : Geom) (c : Counts) :
    (s.setGeometry g c).port = s.port := rfl
@[simp] theorem State.setGeometry_turns (s : State) (g : Geom) (c : Counts) :
    (s.setGeometry g c).turns = s.turns := rfl
@[simp] theorem State.setGeometry_replies (s : State) (g : Geom) (c : Counts) :
    (s.setGeometry g c).replies = s.replies := rfl

@[simp] theorem State.setGeometry_readByte (s : State) (g : Geom) (c : Counts) (k : Nat) :
    (s.setGeometry g c).readByte k = s.readByte k := rfl
@[simp] theorem State.setGeometry_readBytes (s : State) (g : Geom) (c : Counts) (k n' : Nat) :
    (s.setGeometry g c).readBytes k n' = s.readBytes k n' := rfl
@[simp] theorem State.setGeometry_hash (s : State) (g : Geom) (c : Counts) :
    (s.setGeometry g c).hash = s.hash := rfl

/-! ## State.setHashLen -/

@[simp] theorem State.setHashLen_cmdLatch (s : State) (n : BitVec 6) :
    (s.setHashLen n).cmdLatch = s.cmdLatch := rfl
@[simp] theorem State.setHashLen_status (s : State) (n : BitVec 6) :
    (s.setHashLen n).status = s.status := rfl
@[simp] theorem State.setHashLen_width (s : State) (n : BitVec 6) :
    (s.setHashLen n).width = s.width := rfl
@[simp] theorem State.setHashLen_height (s : State) (n : BitVec 6) :
    (s.setHashLen n).height = s.height := rfl
@[simp] theorem State.setHashLen_hashLen (s : State) (n : BitVec 6) :
    (s.setHashLen n).hashLen = n := rfl
@[simp] theorem State.setHashLen_geom (s : State) (n : BitVec 6) :
    (s.setHashLen n).geom = s.geom := rfl
@[simp] theorem State.setHashLen_counts (s : State) (n : BitVec 6) :
    (s.setHashLen n).counts = s.counts := rfl
@[simp] theorem State.setHashLen_outDim (s : State) (n : BitVec 6) :
    (s.setHashLen n).outDim = s.outDim := rfl
@[simp] theorem State.setHashLen_avgRgba (s : State) (n : BitVec 6) :
    (s.setHashLen n).avgRgba = s.avgRgba := rfl
@[simp] theorem State.setHashLen_aspect (s : State) (n : BitVec 6) :
    (s.setHashLen n).aspect = s.aspect := rfl
@[simp] theorem State.setHashLen_mem (s : State) (n : BitVec 6) :
    (s.setHashLen n).mem = s.mem := rfl
@[simp] theorem State.setHashLen_epoch (s : State) (n : BitVec 6) :
    (s.setHashLen n).epoch = s.epoch := rfl
@[simp] theorem State.setHashLen_port (s : State) (n : BitVec 6) :
    (s.setHashLen n).port = s.port := rfl
@[simp] theorem State.setHashLen_turns (s : State) (n : BitVec 6) :
    (s.setHashLen n).turns = s.turns := rfl
@[simp] theorem State.setHashLen_replies (s : State) (n : BitVec 6) :
    (s.setHashLen n).replies = s.replies := rfl

@[simp] theorem State.setHashLen_readByte (s : State) (n : BitVec 6) (k : Nat) :
    (s.setHashLen n).readByte k = s.readByte k := rfl
@[simp] theorem State.setHashLen_readBytes (s : State) (n : BitVec 6) (k n' : Nat) :
    (s.setHashLen n).readBytes k n' = s.readBytes k n' := rfl
@[simp] theorem State.setHashLen_hash (s : State) (n : BitVec 6) :
    (s.setHashLen n).hash = s.hash := rfl

/-! ## State.setOutDim -/

@[simp] theorem State.setOutDim_cmdLatch (s : State) (d : OutDim) :
    (s.setOutDim d).cmdLatch = s.cmdLatch := rfl
@[simp] theorem State.setOutDim_status (s : State) (d : OutDim) :
    (s.setOutDim d).status = s.status := rfl
@[simp] theorem State.setOutDim_width (s : State) (d : OutDim) :
    (s.setOutDim d).width = s.width := rfl
@[simp] theorem State.setOutDim_height (s : State) (d : OutDim) :
    (s.setOutDim d).height = s.height := rfl
@[simp] theorem State.setOutDim_hashLen (s : State) (d : OutDim) :
    (s.setOutDim d).hashLen = s.hashLen := rfl
@[simp] theorem State.setOutDim_geom (s : State) (d : OutDim) :
    (s.setOutDim d).geom = s.geom := rfl
@[simp] theorem State.setOutDim_counts (s : State) (d : OutDim) :
    (s.setOutDim d).counts = s.counts := rfl
@[simp] theorem State.setOutDim_outDim (s : State) (d : OutDim) :
    (s.setOutDim d).outDim = d := rfl
@[simp] theorem State.setOutDim_avgRgba (s : State) (d : OutDim) :
    (s.setOutDim d).avgRgba = s.avgRgba := rfl
@[simp] theorem State.setOutDim_aspect (s : State) (d : OutDim) :
    (s.setOutDim d).aspect = s.aspect := rfl
@[simp] theorem State.setOutDim_mem (s : State) (d : OutDim) :
    (s.setOutDim d).mem = s.mem := rfl
@[simp] theorem State.setOutDim_epoch (s : State) (d : OutDim) :
    (s.setOutDim d).epoch = s.epoch := rfl
@[simp] theorem State.setOutDim_port (s : State) (d : OutDim) :
    (s.setOutDim d).port = s.port := rfl
@[simp] theorem State.setOutDim_turns (s : State) (d : OutDim) :
    (s.setOutDim d).turns = s.turns := rfl
@[simp] theorem State.setOutDim_replies (s : State) (d : OutDim) :
    (s.setOutDim d).replies = s.replies := rfl

@[simp] theorem State.setOutDim_readByte (s : State) (d : OutDim) (k : Nat) :
    (s.setOutDim d).readByte k = s.readByte k := rfl
@[simp] theorem State.setOutDim_readBytes (s : State) (d : OutDim) (k n' : Nat) :
    (s.setOutDim d).readBytes k n' = s.readBytes k n' := rfl
@[simp] theorem State.setOutDim_hash (s : State) (d : OutDim) :
    (s.setOutDim d).hash = s.hash := rfl

/-! ## State.setAvgRgba -/

@[simp] theorem State.setAvgRgba_cmdLatch (s : State) (p : Pixel) :
    (s.setAvgRgba p).cmdLatch = s.cmdLatch := rfl
@[simp] theorem State.setAvgRgba_status (s : State) (p : Pixel) :
    (s.setAvgRgba p).status = s.status := rfl
@[simp] theorem State.setAvgRgba_width (s : State) (p : Pixel) :
    (s.setAvgRgba p).width = s.width := rfl
@[simp] theorem State.setAvgRgba_height (s : State) (p : Pixel) :
    (s.setAvgRgba p).height = s.height := rfl
@[simp] theorem State.setAvgRgba_hashLen (s : State) (p : Pixel) :
    (s.setAvgRgba p).hashLen = s.hashLen := rfl
@[simp] theorem State.setAvgRgba_geom (s : State) (p : Pixel) :
    (s.setAvgRgba p).geom = s.geom := rfl
@[simp] theorem State.setAvgRgba_counts (s : State) (p : Pixel) :
    (s.setAvgRgba p).counts = s.counts := rfl
@[simp] theorem State.setAvgRgba_outDim (s : State) (p : Pixel) :
    (s.setAvgRgba p).outDim = s.outDim := rfl
@[simp] theorem State.setAvgRgba_avgRgba (s : State) (p : Pixel) :
    (s.setAvgRgba p).avgRgba = p := rfl
@[simp] theorem State.setAvgRgba_aspect (s : State) (p : Pixel) :
    (s.setAvgRgba p).aspect = s.aspect := rfl
@[simp] theorem State.setAvgRgba_mem (s : State) (p : Pixel) :
    (s.setAvgRgba p).mem = s.mem := rfl
@[simp] theorem State.setAvgRgba_epoch (s : State) (p : Pixel) :
    (s.setAvgRgba p).epoch = s.epoch := rfl
@[simp] theorem State.setAvgRgba_port (s : State) (p : Pixel) :
    (s.setAvgRgba p).port = s.port := rfl
@[simp] theorem State.setAvgRgba_turns (s : State) (p : Pixel) :
    (s.setAvgRgba p).turns = s.turns := rfl
@[simp] theorem State.setAvgRgba_replies (s : State) (p : Pixel) :
    (s.setAvgRgba p).replies = s.replies := rfl

@[simp] theorem State.setAvgRgba_readByte (s : State) (p : Pixel) (k : Nat) :
    (s.setAvgRgba p).readByte k = s.readByte k := rfl
@[simp] theorem State.setAvgRgba_readBytes (s : State) (p : Pixel) (k n' : Nat) :
    (s.setAvgRgba p).readBytes k n' = s.readBytes k n' := rfl
@[simp] theorem State.setAvgRgba_hash (s : State) (p : Pixel) :
    (s.setAvgRgba p).hash = s.hash := rfl

/-! ## State.setAspect -/

@[simp] theorem State.setAspect_cmdLatch (s : State) (x : Aspect) :
    (s.setAspect x).cmdLatch = s.cmdLatch := rfl
@[simp] theorem State.setAspect_status (s : State) (x : Aspect) :
    (s.setAspect x).status = s.status := rfl
@[simp] theorem State.setAspect_width (s : State) (x : Aspect) :
    (s.setAspect x).width = s.width := rfl
@[simp] theorem State.setAspect_height (s : State) (x : Aspect) :
    (s.setAspect x).height = s.height := rfl
@[simp] theorem State.setAspect_hashLen (s : State) (x : Aspect) :
    (s.setAspect x).hashLen = s.hashLen := rfl
@[simp] theorem State.setAspect_geom (s : State) (x : Aspect) :
    (s.setAspect x).geom = s.geom := rfl
@[simp] theorem State.setAspect_counts (s : State) (x : Aspect) :
    (s.setAspect x).counts = s.counts := rfl
@[simp] theorem State.setAspect_outDim (s : State) (x : Aspect) :
    (s.setAspect x).outDim = s.outDim := rfl
@[simp] theorem State.setAspect_avgRgba (s : State) (x : Aspect) :
    (s.setAspect x).avgRgba = s.avgRgba := rfl
@[simp] theorem State.setAspect_aspect (s : State) (x : Aspect) :
    (s.setAspect x).aspect = x := rfl
@[simp] theorem State.setAspect_mem (s : State) (x : Aspect) :
    (s.setAspect x).mem = s.mem := rfl
@[simp] theorem State.setAspect_epoch (s : State) (x : Aspect) :
    (s.setAspect x).epoch = s.epoch := rfl
@[simp] theorem State.setAspect_port (s : State) (x : Aspect) :
    (s.setAspect x).port = s.port := rfl
@[simp] theorem State.setAspect_turns (s : State) (x : Aspect) :
    (s.setAspect x).turns = s.turns := rfl
@[simp] theorem State.setAspect_replies (s : State) (x : Aspect) :
    (s.setAspect x).replies = s.replies := rfl

@[simp] theorem State.setAspect_readByte (s : State) (x : Aspect) (k : Nat) :
    (s.setAspect x).readByte k = s.readByte k := rfl
@[simp] theorem State.setAspect_readBytes (s : State) (x : Aspect) (k n' : Nat) :
    (s.setAspect x).readBytes k n' = s.readBytes k n' := rfl
@[simp] theorem State.setAspect_hash (s : State) (x : Aspect) :
    (s.setAspect x).hash = s.hash := rfl

/-! ## State.setWidth -/

@[simp] theorem State.setWidth_cmdLatch (s : State) (v : BitVec 16) :
    (s.setWidth v).cmdLatch = s.cmdLatch := rfl
@[simp] theorem State.setWidth_status (s : State) (v : BitVec 16) :
    (s.setWidth v).status = s.status := rfl
@[simp] theorem State.setWidth_width (s : State) (v : BitVec 16) :
    (s.setWidth v).width = v := rfl
@[simp] theorem State.setWidth_height (s : State) (v : BitVec 16) :
    (s.setWidth v).height = s.height := rfl
@[simp] theorem State.setWidth_hashLen (s : State) (v : BitVec 16) :
    (s.setWidth v).hashLen = s.hashLen := rfl
@[simp] theorem State.setWidth_geom (s : State) (v : BitVec 16) :
    (s.setWidth v).geom = s.geom := rfl
@[simp] theorem State.setWidth_counts (s : State) (v : BitVec 16) :
    (s.setWidth v).counts = s.counts := rfl
@[simp] theorem State.setWidth_outDim (s : State) (v : BitVec 16) :
    (s.setWidth v).outDim = s.outDim := rfl
@[simp] theorem State.setWidth_avgRgba (s : State) (v : BitVec 16) :
    (s.setWidth v).avgRgba = s.avgRgba := rfl
@[simp] theorem State.setWidth_aspect (s : State) (v : BitVec 16) :
    (s.setWidth v).aspect = s.aspect := rfl
@[simp] theorem State.setWidth_mem (s : State) (v : BitVec 16) :
    (s.setWidth v).mem = s.mem := rfl
@[simp] theorem State.setWidth_epoch (s : State) (v : BitVec 16) :
    (s.setWidth v).epoch = s.epoch := rfl
@[simp] theorem State.setWidth_port (s : State) (v : BitVec 16) :
    (s.setWidth v).port = s.port := rfl
@[simp] theorem State.setWidth_turns (s : State) (v : BitVec 16) :
    (s.setWidth v).turns = s.turns := rfl
@[simp] theorem State.setWidth_replies (s : State) (v : BitVec 16) :
    (s.setWidth v).replies = s.replies := rfl

@[simp] theorem State.setWidth_readByte (s : State) (v : BitVec 16) (k : Nat) :
    (s.setWidth v).readByte k = s.readByte k := rfl
@[simp] theorem State.setWidth_readBytes (s : State) (v : BitVec 16) (k n' : Nat) :
    (s.setWidth v).readBytes k n' = s.readBytes k n' := rfl
@[simp] theorem State.setWidth_hash (s : State) (v : BitVec 16) :
    (s.setWidth v).hash = s.hash := rfl

/-! ## State.setHeight -/

@[simp] theorem State.setHeight_cmdLatch (s : State) (v : BitVec 16) :
    (s.setHeight v).cmdLatch = s.cmdLatch := rfl
@[simp] theorem State.setHeight_status (s : State) (v : BitVec 16) :
    (s.setHeight v).status = s.status := rfl
@[simp] theorem State.setHeight_width (s : State) (v : BitVec 16) :
    (s.setHeight v).width = s.width := rfl
@[simp] theorem State.setHeight_height (s : State) (v : BitVec 16) :
    (s.setHeight v).height = v := rfl
@[simp] theorem State.setHeight_hashLen (s : State) (v : BitVec 16) :
    (s.setHeight v).hashLen = s.hashLen := rfl
@[simp] theorem State.setHeight_geom (s : State) (v : BitVec 16) :
    (s.setHeight v).geom = s.geom := rfl
@[simp] theorem State.setHeight_counts (s : State) (v : BitVec 16) :
    (s.setHeight v).counts = s.counts := rfl
@[simp] theorem State.setHeight_outDim (s : State) (v : BitVec 16) :
    (s.setHeight v).outDim = s.outDim := rfl
@[simp] theorem State.setHeight_avgRgba (s : State) (v : BitVec 16) :
    (s.setHeight v).avgRgba = s.avgRgba := rfl
@[simp] theorem State.setHeight_aspect (s : State) (v : BitVec 16) :
    (s.setHeight v).aspect = s.aspect := rfl
@[simp] theorem State.setHeight_mem (s : State) (v : BitVec 16) :
    (s.setHeight v).mem = s.mem := rfl
@[simp] theorem State.setHeight_epoch (s : State) (v : BitVec 16) :
    (s.setHeight v).epoch = s.epoch := rfl
@[simp] theorem State.setHeight_port (s : State) (v : BitVec 16) :
    (s.setHeight v).port = s.port := rfl
@[simp] theorem State.setHeight_turns (s : State) (v : BitVec 16) :
    (s.setHeight v).turns = s.turns := rfl
@[simp] theorem State.setHeight_replies (s : State) (v : BitVec 16) :
    (s.setHeight v).replies = s.replies := rfl

@[simp] theorem State.setHeight_readByte (s : State) (v : BitVec 16) (k : Nat) :
    (s.setHeight v).readByte k = s.readByte k := rfl
@[simp] theorem State.setHeight_readBytes (s : State) (v : BitVec 16) (k n' : Nat) :
    (s.setHeight v).readBytes k n' = s.readBytes k n' := rfl
@[simp] theorem State.setHeight_hash (s : State) (v : BitVec 16) :
    (s.setHeight v).hash = s.hash := rfl

/-! ## State.start -/

@[simp] theorem State.start_cmdLatch (s : State) (w : Word) :
    (s.start w).cmdLatch = w := rfl
@[simp] theorem State.start_status (s : State) (w : Word) :
    (s.start w).status = ⟨true, false, s.status.err⟩ := rfl
@[simp] theorem State.start_width (s : State) (w : Word) :
    (s.start w).width = s.width := rfl
@[simp] theorem State.start_height (s : State) (w : Word) :
    (s.start w).height = s.height := rfl
@[simp] theorem State.start_hashLen (s : State) (w : Word) :
    (s.start w).hashLen = s.hashLen := rfl
@[simp] theorem State.start_geom (s : State) (w : Word) :
    (s.start w).geom = s.geom := rfl
@[simp] theorem State.start_counts (s : State) (w : Word) :
    (s.start w).counts = s.counts := rfl
@[simp] theorem State.start_outDim (s : State) (w : Word) :
    (s.start w).outDim = s.outDim := rfl
@[simp] theorem State.start_avgRgba (s : State) (w : Word) :
    (s.start w).avgRgba = s.avgRgba := rfl
@[simp] theorem State.start_aspect (s : State) (w : Word) :
    (s.start w).aspect = s.aspect := rfl
@[simp] theorem State.start_mem (s : State) (w : Word) :
    (s.start w).mem = s.mem := rfl
@[simp] theorem State.start_epoch (s : State) (w : Word) :
    (s.start w).epoch = s.epoch := rfl
@[simp] theorem State.start_port (s : State) (w : Word) :
    (s.start w).port = s.port := rfl
@[simp] theorem State.start_turns (s : State) (w : Word) :
    (s.start w).turns = s.turns := rfl
@[simp] theorem State.start_replies (s : State) (w : Word) :
    (s.start w).replies = s.replies := rfl

@[simp] theorem State.start_readByte (s : State) (w : Word) (k : Nat) :
    (s.start w).readByte k = s.readByte k := rfl
@[simp] theorem State.start_readBytes (s : State) (w : Word) (k n' : Nat) :
    (s.start w).readBytes k n' = s.readBytes k n' := rfl
@[simp] theorem State.start_hash (s : State) (w : Word) :
    (s.start w).hash = s.hash := rfl

/-! ## State.complete -/

@[simp] theorem State.complete_cmdLatch (s : State) (c : ErrCode) :
    (s.complete c).cmdLatch = s.cmdLatch := rfl
@[simp] theorem State.complete_status (s : State) (c : ErrCode) :
    (s.complete c).status = ⟨false, true, c⟩ := rfl
@[simp] theorem State.complete_width (s : State) (c : ErrCode) :
    (s.complete c).width = s.width := rfl
@[simp] theorem State.complete_height (s : State) (c : ErrCode) :
    (s.complete c).height = s.height := rfl
@[simp] theorem State.complete_hashLen (s : State) (c : ErrCode) :
    (s.complete c).hashLen = s.hashLen := rfl
@[simp] theorem State.complete_geom (s : State) (c : ErrCode) :
    (s.complete c).geom = s.geom := rfl
@[simp] theorem State.complete_counts (s : State) (c : ErrCode) :
    (s.complete c).counts = s.counts := rfl
@[simp] theorem State.complete_outDim (s : State) (c : ErrCode) :
    (s.complete c).outDim = s.outDim := rfl
@[simp] theorem State.complete_avgRgba (s : State) (c : ErrCode) :
    (s.complete c).avgRgba = s.avgRgba := rfl
@[simp] theorem State.complete_aspect (s : State) (c : ErrCode) :
    (s.complete c).aspect = s.aspect := rfl
@[simp] theorem State.complete_mem (s : State) (c : ErrCode) :
    (s.complete c).mem = s.mem := rfl
@[simp] theorem State.complete_epoch (s : State) (c : ErrCode) :
    (s.complete c).epoch = s.epoch := rfl
@[simp] theorem State.complete_port (s : State) (c : ErrCode) :
    (s.complete c).port = s.port := rfl
@[simp] theorem State.complete_turns (s : State) (c : ErrCode) :
    (s.complete c).turns = s.turns := rfl
@[simp] theorem State.complete_replies (s : State) (c : ErrCode) :
    (s.complete c).replies = s.replies := rfl

@[simp] theorem State.complete_readByte (s : State) (c : ErrCode) (k : Nat) :
    (s.complete c).readByte k = s.readByte k := rfl
@[simp] theorem State.complete_readBytes (s : State) (c : ErrCode) (k n' : Nat) :
    (s.complete c).readBytes k n' = s.readBytes k n' := rfl
@[simp] theorem State.complete_hash (s : State) (c : ErrCode) :
    (s.complete c).hash = s.hash := rfl

/-! ## State.withCommand -/

@[simp] theorem State.withCommand_cmdLatch (s : State) (w : Word) :
    (s.withCommand w).cmdLatch = w := rfl
@[simp] theorem State.withCommand_status (s : State) (w : Word) :
    (s.withCommand w).status = ⟨true, false, s.status.err⟩ := rfl
@[simp] theorem State.withCommand_width (s : State) (w : Word) :
    (s.withCommand w).width = s.width := rfl
@[simp] theorem State.withCommand_height (s : State) (w : Word) :
    (s.withCommand w).height = s.height := rfl
@[simp] theorem State.withCommand_hashLen (s : State) (w : Word) :
    (s.withCommand w).hashLen = s.hashLen := rfl
@[simp] theorem State.withCommand_geom (s : State) (w : Word) :
    (s.withCommand w).geom = s.geom := rfl
@[simp] theorem State.withCommand_counts (s : State) (w : Word) :
    (s.withCommand w).counts = s.counts := rfl
@[simp] theorem State.withCommand_outDim (s : State) (w : Word) :
    (s.withCommand w).outDim = s.outDim := rfl
@[simp] theorem State.withCommand_avgRgba (s : State) (w : Word) :
    (s.withCommand w).avgRgba = s.avgRgba := rfl
@[simp] theorem State.withCommand_aspect (s : State) (w : Word) :
    (s.withCommand w).aspect = s.aspect := rfl
@[simp] theorem State.withCommand_mem (s : State) (w : Word) :
    (s.withCommand w).mem = s.mem := rfl
@[simp] theorem State.withCommand_epoch (s : State) (w : Word) :
    (s.withCommand w).epoch = s.epoch := rfl
@[simp] theorem State.withCommand_port (s : State) (w : Word) :
    (s.withCommand w).port = s.port := rfl
@[simp] theorem State.withCommand_turns (s : State) (w : Word) :
    (s.withCommand w).turns = .engine :: s.turns := rfl
@[simp] theorem State.withCommand_replies (s : State) (w : Word) :
    (s.withCommand w).replies = s.replies := rfl

@[simp] theorem State.withCommand_readByte (s : State) (w : Word) (k : Nat) :
    (s.withCommand w).readByte k = s.readByte k := rfl
@[simp] theorem State.withCommand_readBytes (s : State) (w : Word) (k n' : Nat) :
    (s.withCommand w).readBytes k n' = s.readBytes k n' := rfl
@[simp] theorem State.withCommand_hash (s : State) (w : Word) :
    (s.withCommand w).hash = s.hash := rfl

/-! ## State.storeEncode -/

@[simp] theorem State.storeEncode_cmdLatch (s : State) (r : EncodeResult) :
    (s.storeEncode r).cmdLatch = s.cmdLatch := rfl
@[simp] theorem State.storeEncode_status (s : State) (r : EncodeResult) :
    (s.storeEncode r).status = s.status := rfl
@[simp] theorem State.storeEncode_width (s : State) (r : EncodeResult) :
    (s.storeEncode r).width = s.width := rfl
@[simp] theorem State.storeEncode_height (s : State) (r : EncodeResult) :
    (s.storeEncode r).height = s.height := rfl
@[simp] theorem State.storeEncode_hashLen (s : State) (r : EncodeResult) :
    (s.storeEncode r).hashLen = BitVec.ofNat 6 r.hashLen := rfl
@[simp] theorem State.storeEncode_geom (s : State) (r : EncodeResult) :
    (s.storeEncode r).geom = r.geom := rfl
@[simp] theorem State.storeEncode_counts (s : State) (r : EncodeResult) :
    (s.storeEncode r).counts = r.counts := rfl
@[simp] theorem State.storeEncode_outDim (s : State) (r : EncodeResult) :
    (s.storeEncode r).outDim = s.outDim := rfl
@[simp] theorem State.storeEncode_avgRgba (s : State) (r : EncodeResult) :
    (s.storeEncode r).avgRgba = s.avgRgba := rfl
@[simp] theorem State.storeEncode_aspect (s : State) (r : EncodeResult) :
    (s.storeEncode r).aspect = s.aspect := rfl
@[simp] theorem State.storeEncode_mem (s : State) (r : EncodeResult) :
    (s.storeEncode r).mem = Memory.writeBytes s.mem hashBase r.hash := rfl
@[simp] theorem State.storeEncode_epoch (s : State) (r : EncodeResult) :
    (s.storeEncode r).epoch = s.epoch := rfl
@[simp] theorem State.storeEncode_port (s : State) (r : EncodeResult) :
    (s.storeEncode r).port = s.port := rfl
@[simp] theorem State.storeEncode_turns (s : State) (r : EncodeResult) :
    (s.storeEncode r).turns = s.turns := rfl
@[simp] theorem State.storeEncode_replies (s : State) (r : EncodeResult) :
    (s.storeEncode r).replies = s.replies := rfl

/-! ## State.storeDecode -/

@[simp] theorem State.storeDecode_cmdLatch (s : State) (sh : HashShape) (ps : List Pixel) :
    (s.storeDecode sh ps).cmdLatch = s.cmdLatch := rfl
@[simp] theorem State.storeDecode_status (s : State) (sh : HashShape) (ps : List Pixel) :
    (s.storeDecode sh ps).status = s.status := rfl
@[simp] theorem State.storeDecode_width (s : State) (sh : HashShape) (ps : List Pixel) :
    (s.storeDecode sh ps).width = s.width := rfl
@[simp] theorem State.storeDecode_height (s : State) (sh : HashShape) (ps : List Pixel) :
    (s.storeDecode sh ps).height = s.height := rfl
@[simp] theorem State.storeDecode_hashLen (s : State) (sh : HashShape) (ps : List Pixel) :
    (s.storeDecode sh ps).hashLen = s.hashLen := rfl
@[simp] theorem State.storeDecode_geom (s : State) (sh : HashShape) (ps : List Pixel) :
    (s.storeDecode sh ps).geom =
      geomOf sh.lx sh.ly sh.hasAlpha sh.isLandscape := rfl
@[simp] theorem State.storeDecode_counts (s : State) (sh : HashShape) (ps : List Pixel) :
    (s.storeDecode sh ps).counts =
      countsOf (acTotalOf sh.hasAlpha (termCount (max minL sh.lx) (max minL sh.ly)))
        (termCount (max minL sh.lx) (max minL sh.ly)) := rfl
@[simp] theorem State.storeDecode_outDim (s : State) (sh : HashShape) (ps : List Pixel) :
    (s.storeDecode sh ps).outDim =
      ⟨BitVec.ofNat 6 (outSize sh).1, BitVec.ofNat 6 (outSize sh).2⟩ := rfl
@[simp] theorem State.storeDecode_avgRgba (s : State) (sh : HashShape) (ps : List Pixel) :
    (s.storeDecode sh ps).avgRgba = s.avgRgba := rfl
@[simp] theorem State.storeDecode_aspect (s : State) (sh : HashShape) (ps : List Pixel) :
    (s.storeDecode sh ps).aspect = s.aspect := rfl
@[simp] theorem State.storeDecode_mem (s : State) (sh : HashShape) (ps : List Pixel) :
    (s.storeDecode sh ps).mem =
      Memory.writeBytes s.mem outBase (bytesOfPixels ps) := rfl
@[simp] theorem State.storeDecode_epoch (s : State) (sh : HashShape) (ps : List Pixel) :
    (s.storeDecode sh ps).epoch = s.epoch := rfl
@[simp] theorem State.storeDecode_port (s : State) (sh : HashShape) (ps : List Pixel) :
    (s.storeDecode sh ps).port = s.port := rfl
@[simp] theorem State.storeDecode_turns (s : State) (sh : HashShape) (ps : List Pixel) :
    (s.storeDecode sh ps).turns = s.turns := rfl
@[simp] theorem State.storeDecode_replies (s : State) (sh : HashShape) (ps : List Pixel) :
    (s.storeDecode sh ps).replies = s.replies := rfl

end Sys2Proof.Machine
end

