-- ==== Sys2Proof/Laws/Operations.lean ====
section
/-! SUPPORT. What the shared operations can do, once: the operands in terms of single bytes, the
address map by its regions, raising an error, a transaction, a step. -/

namespace Sys2Proof.Machine

/-! ## Operands -/

theorem State.hash_length (s : State) : s.hash.length = 32 := State.readBytes_length _ _ _

/-- `HASH[k]` is the byte at offset `0x40 + k` (R44). -/
theorem State.hashByte_hash {s : State} (hm : Memory.wf s.mem = true) {k : ℕ} (hk : k < 32) :
    hashByte s.hash k = s.readByte (0x40 + k) := by
  unfold hashByte State.hash
  rw [State.readBytes_eq hm, List.getD_eq_getElem?_getD, List.getElem?_map,
    List.getElem?_range (show k < hashCap from hk)]
  rfl

/-- The pixel of the four bytes from an offset on (R43). -/
def State.pixelAt (s : State) (a : ℕ) : Pixel :=
  pixelOfBytes (s.readByte a) (s.readByte (a + 1)) (s.readByte (a + 2)) (s.readByte (a + 3))

theorem pixelsOfBytes_length (n : ℕ) (bs : List Byte) (h : bs.length = 4 * n) :
    (pixelsOfBytes bs).length = n := by
  induction n generalizing bs with
  | zero =>
    obtain rfl := List.eq_nil_of_length_eq_zero (by simpa using h)
    rfl
  | succ n ih =>
    match bs, h with
    | r :: g :: b :: a :: rest, h =>
      simp only [List.length_cons] at h
      simp only [pixelsOfBytes, List.length_cons, ih rest (by omega)]

theorem pixelsOfBytes_map (n : ℕ) (f : ℕ → Byte) :
    pixelsOfBytes ((List.range (4 * n)).map f) =
      (List.range n).map fun i => pixelOfBytes (f (4 * i)) (f (4 * i + 1)) (f (4 * i + 2)) (f (4 * i + 3)) := by
  induction n generalizing f with
  | zero => rfl
  | succ n ih =>
    have h4 : List.range (4 * (n + 1)) = 0 :: 1 :: 2 :: 3 :: (List.range (4 * n)).map (· + 4) := by
      rw [show 4 * (n + 1) = 4 + 4 * n by ring, List.range_add]
      simp [List.range_succ, Nat.add_comm]
    rw [h4, List.range_succ_eq_map]
    simp only [List.map_cons, List.map_map, pixelsOfBytes]
    congr 1
    have := ih (fun k => f (k + 4))
    simpa [Function.comp_def, Nat.mul_add, Nat.add_right_comm] using this

@[simp] theorem State.image_length (s : State) (n : ℕ) : (s.image n).length = n :=
  pixelsOfBytes_length n _ (State.readBytes_length _ _ _)

/-- The image is its pixels in index order (R30). -/
theorem State.image_eq {s : State} (hm : Memory.wf s.mem = true) (n : ℕ) :
    s.image n = (List.range n).map fun i => s.pixelAt (0x10000 + 4 * i) := by
  unfold State.image
  rw [State.readBytes_eq hm, pixelsOfBytes_map]
  rfl

/-! ## Command errors -/

theorem State.raiseErr_none (s : State) (c : ErrCode) :
    s.raiseErr none c = { s with status := ⟨false, true, c⟩ } := rfl

theorem State.raiseErr_decode (s : State) (c : ErrCode) :
    s.raiseErr (some .decode) c =
      { s with outDim := .zero, geom := .zero, counts := .zero, status := ⟨false, true, c⟩ } := rfl

theorem State.raiseErr_avgcol (s : State) (c : ErrCode) :
    s.raiseErr (some .avgcol) c = { s with avgRgba := .zero, status := ⟨false, true, c⟩ } := rfl

theorem State.raiseErr_aspect (s : State) (c : ErrCode) :
    s.raiseErr (some .aspect) c = { s with aspect := .zero, status := ⟨false, true, c⟩ } := rfl

theorem State.raiseErr_encode (s : State) (c : ErrCode) :
    s.raiseErr (some .encode) c =
      { s with
        mem := Memory.writeBytes s.mem hashBase (List.replicate hashCap 0), hashLen := 0
        geom := .zero, counts := .zero, status := ⟨false, true, c⟩ } := rfl

/-! ## The address map -/

theorem Memory.inHash_iff (a : ℕ) : Memory.inHash a = true ↔ 0x40 ≤ a ∧ a < 0x60 := decide_eq_true_iff

theorem Memory.inOut_iff (a : ℕ) : Memory.inOut a = true ↔ 0x1000 ≤ a ∧ a < 0x2000 :=
  decide_eq_true_iff

theorem Memory.inPix_iff (a : ℕ) : Memory.inPix a = true ↔ 0x10000 ≤ a ∧ a < 0x19C40 :=
  decide_eq_true_iff

/-- Above the registers the map is by the three buffers. -/
theorem locate_above {a : ℕ} (h : 0x2C ≤ a) :
    locate a = if Memory.inHash a then .hash a else if Memory.inOut a then .out a
      else if Memory.inPix a then .pix a else .unmapped := by
  unfold locate
  split <;> first | omega | rfl

theorem locate_hash {a : ℕ} (h1 : 0x40 ≤ a) (h2 : a < 0x60) : locate a = .hash a := by
  rw [locate_above (by omega), if_pos ((Memory.inHash_iff a).mpr ⟨h1, h2⟩)]

theorem locate_out {a : ℕ} (h1 : 0x1000 ≤ a) (h2 : a < 0x2000) : locate a = .out a := by
  rw [locate_above (by omega), if_neg (by rw [Memory.inHash_iff]; omega),
    if_pos ((Memory.inOut_iff a).mpr ⟨h1, h2⟩)]

theorem locate_pix {a : ℕ} (h1 : 0x10000 ≤ a) (h2 : a < 0x19C40) : locate a = .pix a := by
  rw [locate_above (by omega), if_neg (by rw [Memory.inHash_iff]; omega),
    if_neg (by rw [Memory.inOut_iff]; omega), if_pos ((Memory.inPix_iff a).mpr ⟨h1, h2⟩)]

theorem locate_unmapped {a : ℕ} (h : (0x2C ≤ a ∧ a < 0x40) ∨ (0x60 ≤ a ∧ a < 0x1000) ∨
    (0x2000 ≤ a ∧ a < 0x10000) ∨ 0x19C40 ≤ a) : locate a = .unmapped := by
  rw [locate_above (by omega), if_neg (by rw [Memory.inHash_iff]; omega),
    if_neg (by rw [Memory.inOut_iff]; omega), if_neg (by rw [Memory.inPix_iff]; omega)]

/-- The whole address map (R41): the region of a word-aligned offset, by where the offset lies. -/
theorem locate_cases (a : ℕ) (h : a % 4 = 0) :
    (a = 0x00 ∧ locate a = .id) ∨ (a = 0x04 ∧ locate a = .cmd) ∨ (a = 0x08 ∧ locate a = .status) ∨
    (a = 0x0C ∧ locate a = .width) ∨ (a = 0x10 ∧ locate a = .height) ∨
    (a = 0x14 ∧ locate a = .hashLen) ∨ (a = 0x18 ∧ locate a = .geom) ∨
    (a = 0x1C ∧ locate a = .counts) ∨ (a = 0x20 ∧ locate a = .outDim) ∨
    (a = 0x24 ∧ locate a = .avgRgba) ∨ (a = 0x28 ∧ locate a = .aspect) ∨
    ((0x40 ≤ a ∧ a < 0x60) ∧ locate a = .hash a) ∨
    ((0x1000 ≤ a ∧ a < 0x2000) ∧ locate a = .out a) ∨
    ((0x10000 ≤ a ∧ a < 0x19C40) ∧ locate a = .pix a) ∨
    (((0x2C ≤ a ∧ a < 0x40) ∨ (0x60 ≤ a ∧ a < 0x1000) ∨ (0x2000 ≤ a ∧ a < 0x10000) ∨ 0x19C40 ≤ a)
      ∧ locate a = .unmapped) := by
  by_cases h0 : 0x2C ≤ a
  · iterate 11 right
    by_cases h1 : 0x40 ≤ a ∧ a < 0x60
    · exact .inl ⟨h1, locate_hash h1.1 h1.2⟩
    right
    by_cases h2 : 0x1000 ≤ a ∧ a < 0x2000
    · exact .inl ⟨h2, locate_out h2.1 h2.2⟩
    right
    by_cases h3 : 0x10000 ≤ a ∧ a < 0x19C40
    · exact .inl ⟨h3, locate_pix h3.1 h3.2⟩
    right
    have h4 : (0x2C ≤ a ∧ a < 0x40) ∨ (0x60 ≤ a ∧ a < 0x1000) ∨ (0x2000 ≤ a ∧ a < 0x10000) ∨
        0x19C40 ≤ a := by omega
    exact ⟨h4, locate_unmapped h4⟩
  · have hs : a = 0x00 ∨ a = 0x04 ∨ a = 0x08 ∨ a = 0x0C ∨ a = 0x10 ∨ a = 0x14 ∨ a = 0x18 ∨ a = 0x1C ∨
        a = 0x20 ∨ a = 0x24 ∨ a = 0x28 := by omega
    rcases hs with rfl | rfl | rfl | rfl | rfl | rfl | rfl | rfl | rfl | rfl | rfl <;> decide

/-- Only the offset of `STATUS` is `STATUS`. -/
theorem locate_eq_status {a : ℕ} (h : a % 4 = 0) : locate a = .status ↔ a = 8 := by
  constructor
  · intro hs
    rcases locate_cases a h with h' | h' | h' | h' | h' | h' | h' | h' | h' | h' | h' | h' | h' | h' | h' <;>
      rw [h'.2] at hs <;> first | exact h'.1 | cases hs
  · rintro rfl; rfl

theorem aligned_iff (a : BitVec 20) (n : ℕ) : aligned a n = true ↔ n = 4 ∧ a.toNat % 4 = 0 := by
  simp [aligned]

/-- The one transaction that completes while `BUSY = 1` (R48). -/
theorem Transaction.isStatusRead_iff (t : Transaction) :
    t.isStatusRead = true ↔ t = .read 0x08 4 := by
  cases t with
  | write a n v => simp [Transaction.isStatusRead]
  | read a n =>
    simp only [Transaction.isStatusRead, Bool.and_eq_true, decide_eq_true_eq, aligned_iff,
      Transaction.read.injEq]
    constructor
    · rintro ⟨⟨rfl, h⟩, hs⟩
      rw [locate_eq_status h] at hs
      exact ⟨BitVec.eq_of_toNat_eq (by simpa using hs), rfl⟩
    · rintro ⟨rfl, rfl⟩
      exact ⟨⟨rfl, rfl⟩, rfl⟩

/-! ## Transactions -/

theorem State.transact_read {s : State} {a : BitVec 20} (h : a.toNat % 4 = 0) :
    s.transact (.read a 4) =
      (.read (s.readLocation (locate a.toNat)).1 (s.readLocation (locate a.toNat)).2, s) := by
  simp [State.transact, (aligned_iff a 4).mpr ⟨rfl, h⟩]

theorem State.transact_write {s : State} {a : BitVec 20} {v : Word} (h : a.toNat % 4 = 0) :
    s.transact (.write a 4 v) =
      (.write (s.writeLocation (locate a.toNat) v).1, (s.writeLocation (locate a.toNat) v).2) := by
  simp [State.transact, (aligned_iff a 4).mpr ⟨rfl, h⟩]

/-- Everything a transaction can do to the state: nothing, the start of a command, a store to one of
the three registers, or a word stored to `HASH` or `PIX`. -/
theorem State.transact_cases (s : State) (t : Transaction) :
    (s.transact t).2 = s ∨ (∃ v, t = .write 0x04 4 v ∧ (s.transact t).2 = s.start v) ∨
    (∃ v, (s.transact t).2 = s.setWidth (dimOfWord v)) ∨
    (∃ v, (s.transact t).2 = s.setHeight (dimOfWord v)) ∨
    (∃ v, (s.transact t).2 = s.setHashLen (hashLenOfWord v)) ∨
    ∃ a v, a % 4 = 0 ∧ ((0x40 ≤ a ∧ a < 0x60) ∨ (0x10000 ≤ a ∧ a < 0x19C40)) ∧
      (s.transact t).2 = s.writeWord a v := by
  cases t with
  | read a n =>
    left
    unfold State.transact
    by_cases h : aligned a n = true <;> simp [h]
  | write a n v =>
    by_cases h : aligned a n = true
    · obtain ⟨rfl, h'⟩ := (aligned_iff a n).mp h
      replace h := h'
      clear h'
      rw [State.transact_write h]
      simp only
      rcases locate_cases a.toNat h with h' | h' | h' | h' | h' | h' | h' | h' | h' | h' | h' | h' | h' | h' | h'
      all_goals obtain ⟨ha, hl⟩ := h'; rw [hl]
      · exact .inl rfl
      · exact .inr (.inl ⟨v, by rw [show a = 0x04 from BitVec.eq_of_toNat_eq (by simpa using ha)], rfl⟩)
      · exact .inl rfl
      · exact .inr (.inr (.inl ⟨v, rfl⟩))
      · exact .inr (.inr (.inr (.inl ⟨v, rfl⟩)))
      · exact .inr (.inr (.inr (.inr (.inl ⟨v, rfl⟩))))
      · exact .inl rfl
      · exact .inl rfl
      · exact .inl rfl
      · exact .inl rfl
      · exact .inl rfl
      · exact .inr (.inr (.inr (.inr (.inr ⟨_, v, h, .inl ha, rfl⟩))))
      · exact .inl rfl
      · exact .inr (.inr (.inr (.inr (.inr ⟨_, v, h, .inr ha, rfl⟩))))
      · exact .inl rfl
    · left
      simp [State.transact, h]

/-- Everything the port's move can do. -/
theorem State.hostMove_cases (s : State) :
    s.hostMove = s ∨ ∃ t rest, s.port = t :: rest ∧ s.held t = false ∧
      s.hostMove = { (s.transact t).2 with port := rest, replies := (s.transact t).1 :: s.replies } := by
  unfold State.hostMove
  split
  · exact .inl rfl
  · rename_i t rest hp
    by_cases hh : s.held t = true
    · simp [hh]
    · simp only [hh]
      exact .inr ⟨t, rest, hp, by simpa using hh, rfl⟩

/-- An engine at `base` is addressed at offset `o` by the one bus address `base + o` (R40, R41). -/
theorem windowOffsetAt_eq_some (base a : Nat) (o : BitVec 20) :
    windowOffsetAt base a = some o ↔ a = base + o.toNat := by
  have ho := o.isLt
  unfold windowOffsetAt
  split
  · rw [Option.some.injEq, ← BitVec.toNat_inj, BitVec.toNat_ofNat, Nat.mod_eq_of_lt (by omega)]
    omega
  · simp only [reduceCtorEq, false_iff]
    omega

/-! ## Commands -/

/-- What `exec` of the three commands with scalars is. -/
theorem exec_encode (s : State) : exec .encode s = .next (encodeWith Exact.num s) := rfl

theorem exec_decode (s : State) : exec .decode s = .next (decodeWith Exact.num s) := rfl

theorem exec_avgcol (s : State) : exec .avgcol s = .next (avgcolWith Exact.num s) := rfl

/-- The commands of the machine are the commands over any `NUM`, on the reference instance. -/
theorem exec_eq_execWith : exec = execWith Exact.num := by
  funext i s
  cases i <;> rfl

/-- Over any `NUM` every command answers a next state, with the engine idle and `DONE` set (R144). -/
theorem execWith_completes {S : Type} (N : Num S) (i : Instr) (s : State) :
    ∃ t, execWith N i s = .next t ∧ t.status.busy = false ∧ t.status.done = true := by
  cases i with
  | nop => exact ⟨_, rfl, rfl, rfl⟩
  | encode =>
    refine ⟨_, rfl, ?_⟩
    unfold encodeWith
    simp only
    split <;> exact ⟨rfl, rfl⟩
  | decode =>
    refine ⟨_, rfl, ?_⟩
    unfold decodeWith
    split <;> exact ⟨rfl, rfl⟩
  | avgcol =>
    refine ⟨_, rfl, ?_⟩
    unfold avgcolWith
    split <;> exact ⟨rfl, rfl⟩
  | aspect =>
    show ∃ t, execAspect s = .next t ∧ _
    unfold execAspect
    split <;> exact ⟨_, rfl, rfl, rfl⟩

theorem exec_completes (i : Instr) (s : State) :
    ∃ t, exec i s = .next t ∧ t.status.busy = false ∧ t.status.done = true := by
  rw [exec_eq_execWith]
  exact execWith_completes Exact.num i s

/-- Over any `NUM` no command touches what the port and the schedule hold. -/
theorem execWith_port {S : Type} {N : Num S} {i : Instr} {s t : State}
    (h : execWith N i s = .next t) :
    t.port = s.port ∧ t.turns = s.turns ∧ t.replies = s.replies ∧ t.epoch = s.epoch ∧
      t.cmdLatch = s.cmdLatch := by
  cases i with
  | nop => cases h; exact ⟨rfl, rfl, rfl, rfl, rfl⟩
  | encode =>
    cases h
    unfold encodeWith
    simp only
    split <;> exact ⟨rfl, rfl, rfl, rfl, rfl⟩
  | decode =>
    cases h
    unfold decodeWith
    split <;> exact ⟨rfl, rfl, rfl, rfl, rfl⟩
  | avgcol =>
    cases h
    unfold avgcolWith
    split <;> exact ⟨rfl, rfl, rfl, rfl, rfl⟩
  | aspect =>
    change execAspect s = _ at h
    unfold execAspect at h
    split at h <;> cases h <;> exact ⟨rfl, rfl, rfl, rfl, rfl⟩

theorem exec_port {i : Instr} {s t : State} (h : exec i s = .next t) :
    t.port = s.port ∧ t.turns = s.turns ∧ t.replies = s.replies ∧ t.epoch = s.epoch ∧
      t.cmdLatch = s.cmdLatch := by
  rw [exec_eq_execWith] at h
  exact execWith_port h

/-- What decides the layout of a hash and of an image does not depend on `NUM` (R66, R81, R121): over
any two instances a command leaves the same `STATUS`, lengths, geometry, counts and sizes. -/
theorem execWith_layout {S S' : Type} (N : Num S) (N' : Num S') {i : Instr} {s t t' : State}
    (h : execWith N i s = .next t) (h' : execWith N' i s = .next t') :
    t.status = t'.status ∧ t.hashLen = t'.hashLen ∧ t.geom = t'.geom ∧ t.counts = t'.counts ∧
      t.outDim = t'.outDim ∧ t.aspect = t'.aspect := by
  cases i with
  | nop => cases h; cases h'; exact ⟨rfl, rfl, rfl, rfl, rfl, rfl⟩
  | encode =>
    cases h
    cases h'
    unfold encodeWith
    simp only
    split <;> exact ⟨rfl, rfl, rfl, rfl, rfl, rfl⟩
  | decode =>
    cases h
    cases h'
    unfold decodeWith
    split <;> exact ⟨rfl, rfl, rfl, rfl, rfl, rfl⟩
  | avgcol =>
    cases h
    cases h'
    unfold avgcolWith
    split <;> exact ⟨rfl, rfl, rfl, rfl, rfl, rfl⟩
  | aspect =>
    change execAspect s = _ at h h'
    rw [h] at h'
    cases h'
    exact ⟨rfl, rfl, rfl, rfl, rfl, rfl⟩

/-! ## Moves and steps -/

/-- Everything the engine's move can do: a command, or the refusal of a reserved word. -/
theorem engineMoveBy_cases (run : Instr → State → Host.Outcome State Fault Refusal) (s : State) :
    (∃ i, commandOf s.cmdLatch = some i ∧ engineMoveBy run s = run i s) ∨
    (commandOf s.cmdLatch = none ∧
      engineMoveBy run s = .next { s with status := ⟨false, true, .badCmd⟩ }) := by
  unfold engineMoveBy
  cases h : commandOf s.cmdLatch with
  | none => exact .inr ⟨rfl, rfl⟩
  | some i => exact .inl ⟨i, rfl, rfl⟩

theorem engineMove_cases (s : State) :
    (∃ i, commandOf s.cmdLatch = some i ∧ engineMove s = exec i s) ∨
    (commandOf s.cmdLatch = none ∧
      engineMove s = .next { s with status := ⟨false, true, .badCmd⟩ }) := engineMoveBy_cases exec s

/-- Everything a step can do: the engine's move while it is busy, the port's move, a reset, or nothing
but the passing of a turn; the turn used up is gone before the move. -/
theorem nextMoveBy_cases (run : Instr → State → Host.Outcome State Fault Refusal) (s : State) :
    (∃ r : State, r.mem = s.mem ∧ r = { s with turns := r.turns } ∧ s.status.busy = true ∧
      nextMoveBy run s = engineMoveBy run r) ∨
    (∃ r : State, r = { s with turns := r.turns } ∧ nextMoveBy run s = .next r.hostMove) ∨
    (∃ (r : State) (d : Bool), r = { s with turns := r.turns } ∧
      nextMoveBy run s = .next (r.assertReset d)) ∨
    (∃ r : State, r = { s with turns := r.turns } ∧ nextMoveBy run s = .next r) := by
  unfold nextMoveBy
  split
  · by_cases hb : s.status.busy = true
    · exact .inl ⟨s, rfl, rfl, hb, by simp [hb]⟩
    · exact .inr (.inl ⟨s, rfl, by simp [hb]⟩)
  · rename_i rest _
    unfold engineTurnBy
    by_cases hb : s.status.busy = true
    · exact .inl ⟨{ s with turns := rest }, rfl, rfl, hb, by simp [hb]⟩
    · exact .inr (.inr (.inr ⟨{ s with turns := rest }, rfl, by simp [hb]⟩))
  · rename_i rest _
    exact .inr (.inl ⟨{ s with turns := rest }, rfl, rfl⟩)
  · rename_i d rest _
    exact .inr (.inr (.inl ⟨{ s with turns := rest }, d, rfl, rfl⟩))

theorem step_cases (s : State) :
    (∃ r : State, r.mem = s.mem ∧ r = { s with turns := r.turns } ∧ s.status.busy = true ∧
      step s = engineMove r) ∨
    (∃ r : State, r = { s with turns := r.turns } ∧ step s = .next r.hostMove) ∨
    (∃ (r : State) (d : Bool), r = { s with turns := r.turns } ∧ step s = .next (r.assertReset d)) ∨
    (∃ r : State, r = { s with turns := r.turns } ∧ step s = .next r) := nextMoveBy_cases exec s

/-- The step of the machine is the step over any `NUM`, on the reference instance. -/
theorem step_eq_stepWith : step = stepWith Exact.num := by
  funext s
  unfold step nextMove stepWith
  rw [exec_eq_execWith]

theorem core_eq_coreWith : Sys2Proof.core = coreWith Exact.num := by
  unfold Sys2Proof.core coreWith
  rw [step_eq_stepWith]

/-- The machine over any `NUM` is never stuck (R161, R175). -/
theorem stepWith_goesOn {S : Type} (N : Num S) (s : State) : ∃ t, stepWith N s = .next t := by
  rcases nextMoveBy_cases (execWith N) s with ⟨r, _, _, _, h⟩ | ⟨r, _, h⟩ | ⟨r, d, _, h⟩ | ⟨r, _, h⟩
  · rcases engineMoveBy_cases (execWith N) r with ⟨i, _, hi⟩ | ⟨_, hi⟩
    · obtain ⟨t, ht, -⟩ := execWith_completes N i r
      exact ⟨t, h.trans (hi.trans ht)⟩
    · exact ⟨_, h.trans hi⟩
  · exact ⟨_, h⟩
  · exact ⟨_, h⟩
  · exact ⟨_, h⟩

end Sys2Proof.Machine
end

