-- ==== Sys2Proof/Laws/Cyclotomic.lean ====
section
/-! SUPPORT. Machine/Cyclotomic.lean computes in the complex numbers what it says: sums and products of
roots of unity, a sound test for zero, and the exact sign of a real sum. -/

namespace Sys2Proof.Machine.Exact

/-- The root of unity `exp(2 pi i / n)`. -/
noncomputable def zeta (n : ℕ) : ℂ := Complex.exp (2 * Real.pi * Complex.I / n)

theorem zeta_primitive {n : ℕ} (hn : 0 < n) : IsPrimitiveRoot (zeta n) n :=
  Complex.isPrimitiveRoot_exp n hn.ne'

theorem zeta_pow_eq (n e : ℕ) : zeta n ^ e = Complex.exp ((2 * Real.pi * e / n : ℝ) * Complex.I) := by
  rw [zeta, ← Complex.exp_nat_mul]
  congr 1
  push_cast
  ring

theorem norm_zeta_pow (n e : ℕ) : ‖zeta n ^ e‖ = 1 := by
  rw [zeta_pow_eq, Complex.norm_exp_ofReal_mul_I]

theorem zeta_pow_re (n e : ℕ) : (zeta n ^ e).re = Real.cos (2 * Real.pi * e / n) := by
  rw [zeta_pow_eq, Complex.exp_ofReal_mul_I_re]

theorem zeta_pow_mod {n : ℕ} (hn : 0 < n) (e : ℕ) : zeta n ^ (e % n) = zeta n ^ e :=
  pow_mod_orderOf (zeta n) e ▸ by rw [← (zeta_primitive hn).eq_orderOf]

/-! ## Sums of roots of unity -/

/-- The value of a sum. -/
noncomputable def Poly.eval (n : ℕ) (p : Poly) : ℂ := (p.map fun t => (t.2 : ℂ) * zeta n ^ t.1).sum

@[simp] theorem Poly.eval_nil (n : ℕ) : Poly.eval n [] = 0 := rfl

@[simp] theorem Poly.eval_cons (n : ℕ) (t : ℕ × ℚ) (p : Poly) :
    Poly.eval n (t :: p) = (t.2 : ℂ) * zeta n ^ t.1 + Poly.eval n p := by
  simp [Poly.eval]

@[simp] theorem Poly.eval_append (n : ℕ) (p q : Poly) :
    Poly.eval n (p ++ q) = Poly.eval n p + Poly.eval n q := by
  simp [Poly.eval]

theorem Poly.eval_scale (n : ℕ) (c : ℚ) (p : Poly) :
    Poly.eval n (p.scale c) = c * Poly.eval n p := by
  induction p with
  | nil => simp [Poly.scale]
  | cons t p ih =>
    rw [Poly.scale] at ih ⊢
    rw [List.map_cons, Poly.eval_cons, Poly.eval_cons, ih]
    push_cast
    ring

theorem Poly.eval_mul {n : ℕ} (hn : 0 < n) (p q : Poly) :
    Poly.eval n (p.mul n q) = Poly.eval n p * Poly.eval n q := by
  have row : ∀ s : ℕ × ℚ, Poly.eval n (q.map fun t => ((s.1 + t.1) % n, s.2 * t.2))
      = (s.2 : ℂ) * zeta n ^ s.1 * Poly.eval n q := by
    intro s
    induction q with
    | nil => simp
    | cons t q ih =>
      rw [List.map_cons, Poly.eval_cons, Poly.eval_cons, ih, zeta_pow_mod hn, pow_add]
      push_cast
      ring
  induction p with
  | nil => simp [Poly.mul]
  | cons s p ih =>
    rw [Poly.mul] at ih ⊢
    rw [List.flatMap_cons, Poly.eval_append, ih, row, Poly.eval_cons]
    ring

theorem Poly.eval_cosPi {n : ℕ} (hn : 0 < n) (q : ℚ) (hd : 2 * q.den ∣ n) :
    Poly.eval n (Poly.cosPi n q) = (Real.cos (q * Real.pi) : ℂ) := by
  obtain ⟨m, rfl⟩ := hd
  have hden : 0 < 2 * q.den := by have := q.den_pos; omega
  have hm : 0 < m := Nat.pos_of_mul_pos_left hn
  have hdz : (0 : ℤ) < ((2 * q.den : ℕ) : ℤ) := by exact_mod_cast hden
  set r := (q.num % ((2 * q.den : ℕ) : ℤ)).toNat with hr
  have hrz : (r : ℤ) = q.num % ((2 * q.den : ℕ) : ℤ) :=
    Int.toNat_of_nonneg (Int.emod_nonneg _ hdz.ne')
  have hrlt : r < 2 * q.den := by
    have : (r : ℤ) < ((2 * q.den : ℕ) : ℤ) := by rw [hrz]; exact Int.emod_lt_of_pos _ hdz
    exact_mod_cast this
  have hle : r * m ≤ 2 * q.den * m := Nat.mul_le_mul_right _ hrlt.le
  have hdiv : 2 * q.den * m / (2 * q.den) = m := Nat.mul_div_cancel_left _ hden
  have hp : Poly.cosPi (2 * q.den * m) q
      = [(r * m, 1 / 2), (2 * q.den * m - r * m, 1 / 2)] := by
    rw [Poly.cosPi, hdiv]
  have hm' : (m : ℝ) ≠ 0 := by exact_mod_cast hm.ne'
  have hdr : (q.den : ℝ) ≠ 0 := by exact_mod_cast q.den_ne_zero
  have hang : Real.cos (q * Real.pi) = Real.cos (2 * Real.pi * (r * m : ℕ) / (2 * q.den * m : ℕ)) := by
    have hk : (q.num : ℝ) = r + (q.num / ((2 * q.den : ℕ) : ℤ) : ℤ) * (2 * q.den) := by
      have := Int.emod_add_mul_ediv q.num ((2 * q.den : ℕ) : ℤ)
      rw [← hrz] at this
      have h2 : (q.num : ℝ)
          = ((r : ℤ) + ((2 * q.den : ℕ) : ℤ) * (q.num / ((2 * q.den : ℕ) : ℤ)) : ℤ) := by
        exact_mod_cast this.symm
      rw [h2]; push_cast; ring
    have e : (q : ℝ) * Real.pi = 2 * Real.pi * (r * m : ℕ) / (2 * q.den * m : ℕ)
        + (q.num / ((2 * q.den : ℕ) : ℤ) : ℤ) * (2 * Real.pi) := by
      conv_lhs => rw [Rat.cast_def]
      rw [hk]; push_cast; field_simp
    rw [e, Real.cos_add_int_mul_two_pi]
  have hinv : zeta (2 * q.den * m) ^ (2 * q.den * m - r * m)
      = Complex.exp (-((2 * Real.pi * (r * m : ℕ) / (2 * q.den * m : ℕ) : ℝ) * Complex.I)) := by
    rw [zeta_pow_eq, Nat.cast_sub hle]
    have e : ((2 * Real.pi * (((2 * q.den * m : ℕ) : ℝ) - ((r * m : ℕ) : ℝ)) / ((2 * q.den * m : ℕ) : ℝ) : ℝ) : ℂ)
          * Complex.I
        = 2 * Real.pi * Complex.I
          + -((2 * Real.pi * (r * m : ℕ) / (2 * q.den * m : ℕ) : ℝ) * Complex.I) := by
      have hm1 : (m : ℂ) ≠ 0 := by exact_mod_cast hm.ne'
      have hd1 : (q.den : ℂ) ≠ 0 := by exact_mod_cast q.den_ne_zero
      push_cast
      field_simp
      ring
    rw [e, Complex.exp_add, Complex.exp_two_pi_mul_I, one_mul]
  rw [hp, Poly.eval_cons, Poly.eval_cons, Poly.eval_nil, hinv, zeta_pow_eq, hang, Complex.ofReal_cos,
    Complex.cos]
  push_cast
  ring_nf

/-! ## The test for zero -/

/-- The value of dense coefficients at `z`. -/
noncomputable def denseEval (z : ℂ) (v : List ℚ) : ℂ :=
  match v with
  | [] => 0
  | a :: v => a + z * denseEval z v

theorem denseEval_append (z : ℂ) (v w : List ℚ) :
    denseEval z (v ++ w) = denseEval z v + z ^ v.length * denseEval z w := by
  induction v with
  | nil => simp [denseEval]
  | cons a v ih => simp only [List.cons_append, denseEval, ih, List.length_cons, pow_succ]; ring

theorem denseEval_set (z : ℂ) (v : List ℚ) (i : ℕ) (hi : i < v.length) (c : ℚ) :
    denseEval z (v.set i (v.getD i 0 + c)) = denseEval z v + c * z ^ i := by
  induction v generalizing i with
  | nil => simp at hi
  | cons a v ih =>
    cases i with
    | zero => simp [denseEval]; ring
    | succ i =>
      have := ih i (by simpa using hi)
      simp only [List.set_cons_succ, List.getD_cons_succ, denseEval, this, pow_succ]
      ring

theorem denseEval_sub (z : ℂ) {v w : List ℚ} (h : v.length = w.length) :
    denseEval z (v.zipWith (fun a b => a - b) w) = denseEval z v - denseEval z w := by
  induction v generalizing w with
  | nil => cases w with
    | nil => simp [denseEval]
    | cons b w => simp at h
  | cons a v ih =>
    cases w with
    | nil => simp at h
    | cons b w =>
      simp only [List.zipWith_cons_cons, denseEval, ih (by simpa using h)]
      push_cast
      ring

theorem denseEval_zero (z : ℂ) (v : List ℚ) (h : ∀ a ∈ v, a = 0) : denseEval z v = 0 := by
  induction v with
  | nil => rfl
  | cons a v ih =>
    simp only [denseEval, h a (by simp), ih fun b hb => h b (by simp [hb])]
    simp

theorem rotateSub_length {n k : ℕ} {v : List ℚ} (hv : v.length = n) :
    (rotateSub n k v).length = n := by
  simp only [rotateSub, List.length_zipWith, List.length_append, List.length_drop,
    List.length_take]
  omega

theorem denseEval_rotateSub {z : ℂ} {n k : ℕ} {v : List ℚ} (hv : v.length = n) (hk : k ≤ n)
    (hz : z ^ n = 1) : denseEval z (rotateSub n k v) = (z ^ k - 1) * denseEval z v := by
  have hsplit := denseEval_append z (v.take (n - k)) (v.drop (n - k))
  rw [List.take_append_drop] at hsplit
  have hl1 : (v.take (n - k)).length = n - k := by simp; omega
  have hl2 : (v.drop (n - k)).length = k := by simp; omega
  rw [rotateSub, denseEval_sub _ (by simp; omega), denseEval_append, hsplit, hl1, hl2]
  have hpow : z ^ k * z ^ (n - k) = 1 := by rw [← pow_add, Nat.add_sub_cancel' hk, hz]
  linear_combination -denseEval z (v.drop (n - k)) * hpow

theorem Poly.dense_spec {n : ℕ} (hn : 0 < n) (p : Poly) :
    (p.dense n).length = n ∧ denseEval (zeta n) (p.dense n) = Poly.eval n p := by
  have key : ∀ (p : Poly) (v : Array ℚ), v.size = n →
      (p.foldl (fun (v : Array ℚ) t =>
        v.setIfInBounds (t.1 % n) (v.getD (t.1 % n) 0 + t.2)) v).toList.length = n ∧
      denseEval (zeta n) (p.foldl (fun (v : Array ℚ) t =>
        v.setIfInBounds (t.1 % n) (v.getD (t.1 % n) 0 + t.2)) v).toList
        = denseEval (zeta n) v.toList + Poly.eval n p := by
    intro p
    induction p with
    | nil => intro v hv; simp [hv]
    | cons t p ih =>
      intro v hv
      have hlt : t.1 % n < n := Nat.mod_lt _ hn
      obtain ⟨h1, h2⟩ := ih (v.setIfInBounds (t.1 % n) (v.getD (t.1 % n) 0 + t.2)) (by simpa using hv)
      refine ⟨h1, ?_⟩
      rw [List.foldl_cons, h2, Array.toList_setIfInBounds]
      have hg : v.getD (t.1 % n) 0 = v.toList.getD (t.1 % n) 0 := by
        rw [Array.getD_eq_getD_getElem?, List.getD_eq_getElem?_getD, Array.getElem?_toList]
      rw [hg, denseEval_set _ _ _ (by simpa [hv] using hlt), zeta_pow_mod hn, Poly.eval_cons]
      ring
  obtain ⟨h1, h2⟩ := key p (Array.replicate n 0) (by simp)
  refine ⟨h1, ?_⟩
  rw [Poly.dense, h2, denseEval_zero, zero_add]
  intro a ha
  simp at ha
  exact ha.2

theorem mem_primeDivisors {n p : ℕ} (h : p ∈ primeDivisors n) : 2 ≤ p ∧ p ∣ n := by
  simp only [primeDivisors, List.mem_filter, Bool.and_eq_true, decide_eq_true_eq] at h
  exact ⟨h.2.1.1, Nat.dvd_of_mod_eq_zero h.2.1.2⟩

/-- The test for zero is sound. -/
theorem Poly.eval_of_vanishes {n : ℕ} (hn : 0 < n) {p : Poly} (h : p.vanishes n = true) :
    Poly.eval n p = 0 := by
  have hz := zeta_primitive hn
  have key : ∀ (qs : List ℕ) (v : List ℚ), (∀ q ∈ qs, 2 ≤ q ∧ q ∣ n) → v.length = n →
      denseEval (zeta n) (qs.foldl (fun v q => rotateSub n (n / q) v) v) = 0 →
      denseEval (zeta n) v = 0 := by
    intro qs
    induction qs with
    | nil => intro v _ _ h; exact h
    | cons q qs ih =>
      intro v hq hv h0
      have h1 := ih (rotateSub n (n / q) v) (fun r hr => hq r (by simp [hr])) (rotateSub_length hv) h0
      rw [denseEval_rotateSub hv (Nat.div_le_self _ _) hz.pow_eq_one] at h1
      obtain ⟨h2, hd⟩ := hq q (by simp)
      rcases mul_eq_zero.mp h1 with h3 | h3
      · exfalso
        have hlt : n / q < n := Nat.div_lt_self hn h2
        have hpos : 0 < n / q := Nat.div_pos (Nat.le_of_dvd hn hd) (by omega)
        exact hz.pow_ne_one_of_pos_of_lt hpos.ne' hlt (sub_eq_zero.mp h3)
      · exact h3
  obtain ⟨hl, he⟩ := Poly.dense_spec hn p
  rw [← he]
  refine key _ _ (fun q hq => mem_primeDivisors hq) hl (denseEval_zero _ _ ?_)
  simpa [Poly.vanishes] using h

/-! ## Integer sums: size, and distance from zero -/

/-- The value of a sum with integer coefficients. -/
noncomputable def intEval (n : ℕ) (c : List (ℕ × ℤ)) : ℂ :=
  (c.map fun t => (t.2 : ℂ) * zeta n ^ t.1).sum

theorem sum_pow_norm_le {z : ℂ} (hz : ‖z‖ = 1) (c : List (ℕ × ℤ)) :
    ‖(c.map fun t => (t.2 : ℂ) * z ^ t.1).sum‖ ≤ weight c := by
  induction c with
  | nil => simp [weight]
  | cons t c ih =>
    have hw : weight (t :: c) = t.2.natAbs + weight c := by simp [weight]
    rw [List.map_cons, List.sum_cons, hw, Nat.cast_add]
    refine (norm_add_le _ _).trans (add_le_add ?_ ih)
    rw [norm_mul, norm_pow, hz, one_pow, mul_one, Complex.norm_intCast, Nat.cast_natAbs, Int.cast_abs]

theorem zeta_norm (n : ℕ) : ‖zeta n‖ = 1 := by simpa using norm_zeta_pow n 1

theorem intEval_norm_le (n : ℕ) (c : List (ℕ × ℤ)) : ‖intEval n c‖ ≤ weight c :=
  sum_pow_norm_le (zeta_norm n) c

/-- A sum that is not zero keeps a distance from zero: its conjugates, at most `n` of them, are at
most `weight` in magnitude, and their product is an integer. -/
theorem intEval_lower {n : ℕ} (hn : 0 < n) {c : List (ℕ × ℤ)} (h0 : intEval n c ≠ 0) :
    1 ≤ ‖intEval n c‖ * (weight c : ℝ) ^ n := by
  classical
  have hz := zeta_primitive hn
  have hint : IsIntegral ℚ (zeta n) := (hz.isIntegral hn).tower_top
  let K := IntermediateField.adjoin ℚ {zeta n}
  have : FiniteDimensional ℚ K := IntermediateField.adjoin.finiteDimensional hint
  let g : K := ⟨zeta n, IntermediateField.mem_adjoin_simple_self ℚ _⟩
  have hgn : g ^ n = 1 := Subtype.ext hz.pow_eq_one
  let x : K := (c.map fun t => (t.2 : K) * g ^ t.1).sum
  have himg : ∀ σ : K →ₐ[ℚ] ℂ, σ x = (c.map fun t => (t.2 : ℂ) * σ g ^ t.1).sum := by
    intro σ
    rw [map_list_sum, List.map_map]
    congr 1
    refine List.map_congr_left fun t _ => ?_
    simp
  have hbound : ∀ σ : K →ₐ[ℚ] ℂ, ‖σ x‖ ≤ weight c := by
    intro σ
    rw [himg]
    refine sum_pow_norm_le ?_ c
    have : (σ g) ^ n = 1 := by rw [← map_pow, hgn, map_one]
    exact Complex.norm_eq_one_of_pow_eq_one this hn.ne'
  let σ₀ : K →ₐ[ℚ] ℂ := K.val
  have hσ₀ : σ₀ x = intEval n c := by rw [himg]; rfl
  have hx0 : x ≠ 0 := by
    intro h; apply h0; rw [← hσ₀, h, map_zero]
  have hxint : IsIntegral ℤ x := by
    have hg : IsIntegral ℤ g := ⟨Polynomial.X ^ n - 1, Polynomial.monic_X_pow_sub_C 1 hn.ne', by
      simp [hgn]⟩
    have : ∀ c : List (ℕ × ℤ), IsIntegral ℤ (c.map fun t => (t.2 : K) * g ^ t.1).sum := by
      intro c
      induction c with
      | nil => simpa using isIntegral_zero
      | cons t c ih =>
        rw [List.map_cons, List.sum_cons]
        refine IsIntegral.add (IsIntegral.mul ?_ (hg.pow _)) ih
        simpa using isIntegral_algebraMap (R := ℤ) (A := K) (x := t.2)
    exact this c
  obtain ⟨N, hN⟩ := IsIntegrallyClosed.isIntegral_iff.mp (Algebra.isIntegral_norm ℚ hxint)
  have hprod := Algebra.norm_eq_prod_embeddings ℚ ℂ x
  have hNne : N ≠ 0 := by
    rintro rfl
    rw [map_zero] at hN
    exact hx0 (Algebra.norm_eq_zero_iff.mp hN.symm)
  have hNge : (1 : ℝ) ≤ ‖∏ σ : K →ₐ[ℚ] ℂ, σ x‖ := by
    rw [← hprod, ← hN]
    simp only [eq_intCast, map_intCast, Complex.norm_intCast]
    exact_mod_cast Int.one_le_abs hNne
  have hcard : Fintype.card (K →ₐ[ℚ] ℂ) ≤ n := by
    rw [AlgHom.card, IntermediateField.adjoin.finrank hint]
    have hdvd : minpoly ℚ (zeta n) ∣ Polynomial.X ^ n - 1 := by
      apply minpoly.dvd
      simp [hz.pow_eq_one]
    have hne : (Polynomial.X ^ n - 1 : Polynomial ℚ) ≠ 0 :=
      (Polynomial.monic_X_pow_sub_C 1 hn.ne').ne_zero
    refine (Polynomial.natDegree_le_of_dvd hdvd hne).trans ?_
    exact (Polynomial.natDegree_X_pow_sub_C (n := n) (r := (1 : ℚ))).le
  have hw1 : (1 : ℝ) ≤ weight c := by
    have : (0 : ℝ) < weight c := lt_of_lt_of_le (norm_pos_iff.mpr h0) (intEval_norm_le n c)
    exact_mod_cast (by exact_mod_cast this : 0 < weight c)
  rw [norm_prod, ← Finset.mul_prod_erase _ _ (Finset.mem_univ σ₀), hσ₀] at hNge
  refine hNge.trans (mul_le_mul_of_nonneg_left ?_ (norm_nonneg _))
  calc ∏ σ ∈ Finset.univ.erase σ₀, ‖σ x‖
      ≤ ∏ _σ ∈ Finset.univ.erase σ₀, (weight c : ℝ) :=
        Finset.prod_le_prod (fun _ _ => norm_nonneg _) fun σ _ => hbound σ
    _ = (weight c : ℝ) ^ (Finset.univ.erase σ₀).card := by rw [Finset.prod_const]
    _ ≤ (weight c : ℝ) ^ n := by
      refine pow_le_pow_right₀ hw1 ?_
      exact ((Finset.card_erase_le).trans (by rw [Finset.card_univ])).trans hcard

/-! ## Approximation and sign -/

theorem approx_error {n : ℕ} (hn : 0 < n) {bits pi : ℕ}
    (hpi : |(pi : ℝ) - 2 ^ (bits + 8) * Real.pi| ≤ 2) (c : List (ℕ × ℤ)) :
    |(approx bits pi n c : ℝ) - 2 ^ bits * (intEval n c).re| ≤ 2 * weight c := by
  induction c with
  | nil => simp [approx, intEval, weight]
  | cons t c ih =>
    have hw : weight (t :: c) = t.2.natAbs + weight c := by simp [weight]
    have ha : approx bits pi n (t :: c) = t.2 * cosFixWith bits pi (2 * t.1) n + approx bits pi n c := by
      simp [approx]
    have he : (intEval n (t :: c)).re
        = t.2 * Real.cos (2 * Real.pi * t.1 / n) + (intEval n c).re := by
      simp only [intEval, List.map_cons, List.sum_cons, Complex.add_re, Complex.mul_re,
        Complex.intCast_re, Complex.intCast_im, zero_mul, sub_zero, zeta_pow_re]
    have hc := cosFixWith_spec hpi (2 * t.1) hn
    have hang : Real.pi * ((2 * (t.1 : ℤ) : ℤ) : ℝ) / n = 2 * Real.pi * t.1 / n := by
      push_cast; ring
    rw [hang] at hc
    rw [ha, he, hw]
    push_cast
    have e : (t.2 : ℝ) * cosFixWith bits pi (2 * t.1) n + approx bits pi n c
        - 2 ^ bits * (t.2 * Real.cos (2 * Real.pi * t.1 / n) + (intEval n c).re)
        = t.2 * ((cosFixWith bits pi (2 * t.1) n : ℝ) - 2 ^ bits * Real.cos (2 * Real.pi * t.1 / n))
          + (approx bits pi n c - 2 ^ bits * (intEval n c).re) := by ring
    rw [e]
    refine (abs_add_le _ _).trans ?_
    rw [abs_mul]
    have := mul_le_mul_of_nonneg_left hc (abs_nonneg (t.2 : ℝ))
    have hn : (t.2.natAbs : ℝ) = |(t.2 : ℝ)| := by rw [Nat.cast_natAbs, Int.cast_abs]
    rw [mul_add, hn]
    exact add_le_add (by linarith) ih

/-- The sign of a real number as an integer. -/
noncomputable def signOf (x : ℝ) : ℤ := SignType.sign x

theorem signOf_pos {x : ℝ} (h : 0 < x) : signOf x = 1 := by simp [signOf, sign_pos h]

theorem signOf_neg {x : ℝ} (h : x < 0) : signOf x = -1 := by simp [signOf, sign_neg h]

@[simp] theorem signOf_zero : signOf 0 = 0 := by simp [signOf]

theorem signOf_mul (x y : ℝ) : signOf (x * y) = signOf x * signOf y := by
  simp [signOf, sign_mul]

theorem signOf_eq_zero {x : ℝ} : signOf x = 0 ↔ x = 0 := by
  rcases lt_trichotomy x 0 with h | h | h
  · simp [signOf_neg h, h.ne]
  · simp [h]
  · simp [signOf_pos h, h.ne']

theorem signOf_lt_zero {x : ℝ} : signOf x < 0 ↔ x < 0 := by
  rcases lt_trichotomy x 0 with h | h | h
  · simp [signOf_neg h, h]
  · simp [h]
  · simp [signOf_pos h, h.le]

theorem signOf_nonneg {x : ℝ} : 0 ≤ signOf x ↔ 0 ≤ x := by
  rw [← not_lt, signOf_lt_zero, not_lt]

theorem lt_pow_log2 (w : ℕ) : (w : ℝ) < 2 ^ (w.log2 + 1) := by
  exact_mod_cast Nat.lt_log2_self

/-- A sum whose approximation at `signBits` bits is within its error of zero is zero. -/
theorem intEval_eq_zero {n : ℕ} (hn : 0 < n) {c : List (ℕ × ℤ)} {bits : ℕ} {v : ℝ}
    (hv : intEval n c = v) (hbits : signBits n c ≤ bits) (hsmall : 2 ^ bits * |v| ≤ 4 * weight c) :
    v = 0 := by
  by_contra hne
  have h0 : intEval n c ≠ 0 := by rw [hv]; exact_mod_cast hne
  have hl := intEval_lower hn h0
  rw [hv, Complex.norm_real, Real.norm_eq_abs] at hl
  set w := weight c with hw
  have hw0 : (0 : ℝ) ≤ w := by positivity
  have hwl := lt_pow_log2 w
  have hwn : (w : ℝ) ^ n ≤ 2 ^ (n * (w.log2 + 1)) := by
    rw [mul_comm, pow_mul]
    exact pow_le_pow_left₀ hw0 hwl.le _
  have hbig : (2 : ℝ) ^ (n * (w.log2 + 1)) * (4 * 2 ^ (w.log2 + 1)) < 2 ^ bits := by
    calc (2 : ℝ) ^ (n * (w.log2 + 1)) * (4 * 2 ^ (w.log2 + 1))
        = 2 ^ (n * (w.log2 + 1) + w.log2 + 3) := by
          rw [pow_add, pow_add, pow_add]; ring
      _ < 2 ^ signBits n c := pow_lt_pow_right₀ (by norm_num) (by unfold signBits; rw [← hw]; omega)
      _ ≤ 2 ^ bits := pow_le_pow_right₀ (by norm_num) hbits
  have h1 : (2 : ℝ) ^ bits ≤ 2 ^ bits * (|v| * w ^ n) := le_mul_of_one_le_right (by positivity) hl
  have h2 : (2 : ℝ) ^ bits * (|v| * w ^ n) ≤ 4 * w * 2 ^ (n * (w.log2 + 1)) := by
    rw [← mul_assoc]
    exact mul_le_mul hsmall hwn (by positivity) (by positivity)
  have h3 : (4 : ℝ) * w * 2 ^ (n * (w.log2 + 1)) ≤ 2 ^ (n * (w.log2 + 1)) * (4 * 2 ^ (w.log2 + 1)) := by
    have : (4 : ℝ) * w ≤ 4 * 2 ^ (w.log2 + 1) := by linarith
    nlinarith [show (0 : ℝ) < 2 ^ (n * (w.log2 + 1)) by positivity]
  linarith

theorem refineSign_spec {n : ℕ} (hn : 0 < n) {c : List (ℕ × ℤ)} {v : ℝ} (hv : intEval n c = v)
    (fuel bits : ℕ) (hb : signBits n c ≤ 2 ^ fuel * bits) : refineSign n c fuel bits = signOf v := by
  induction fuel generalizing bits with
  | zero =>
    have he := approx_error hn (piFix_spec (bits + 8)) c
    rw [hv, Complex.ofReal_re] at he
    rw [refineSign]
    simp only [gt_iff_lt]
    split_ifs with h1 h2
    · have : (2 * weight c : ℝ) < approx bits (piFix (bits + 8)) n c := by exact_mod_cast h1
      refine (signOf_pos ?_).symm
      rw [abs_le] at he
      by_contra hle
      nlinarith [show (0 : ℝ) < 2 ^ bits by positivity]
    · have : (approx bits (piFix (bits + 8)) n c : ℝ) < -(2 * weight c) := by exact_mod_cast h2
      refine (signOf_neg ?_).symm
      rw [abs_le] at he
      by_contra hle
      nlinarith [show (0 : ℝ) < 2 ^ bits by positivity]
    · have h1' : (approx bits (piFix (bits + 8)) n c : ℝ) ≤ 2 * weight c := by
        exact_mod_cast not_lt.mp h1
      have h2' : -(2 * weight c : ℝ) ≤ approx bits (piFix (bits + 8)) n c := by
        exact_mod_cast not_lt.mp h2
      have : v = 0 := by
        refine intEval_eq_zero hn hv (bits := bits) (by simpa using hb) ?_
        rw [← abs_of_pos (show (0 : ℝ) < 2 ^ bits by positivity), ← abs_mul]
        rw [abs_le] at he ⊢
        constructor <;> linarith
      rw [this, signOf_zero]
  | succ fuel ih =>
    have he := approx_error hn (piFix_spec (bits + 8)) c
    rw [hv, Complex.ofReal_re] at he
    rw [refineSign]
    simp only [gt_iff_lt]
    split_ifs with h1 h2
    · have : (2 * weight c : ℝ) < approx bits (piFix (bits + 8)) n c := by exact_mod_cast h1
      refine (signOf_pos ?_).symm
      rw [abs_le] at he
      by_contra hle
      nlinarith [show (0 : ℝ) < 2 ^ bits by positivity]
    · have : (approx bits (piFix (bits + 8)) n c : ℝ) < -(2 * weight c) := by exact_mod_cast h2
      refine (signOf_neg ?_).symm
      rw [abs_le] at he
      by_contra hle
      nlinarith [show (0 : ℝ) < 2 ^ bits by positivity]
    · exact ih (2 * bits) (by rw [pow_succ] at hb; linarith [hb])

theorem Poly.denominator_spec (p : Poly) :
    0 < p.denominator ∧ ∀ t ∈ p, t.2.den ∣ p.denominator := by
  have key : ∀ (p : Poly) (d : ℕ), 0 < d →
      0 < p.foldl (fun d t => Nat.lcm d t.2.den) d ∧ d ∣ p.foldl (fun d t => Nat.lcm d t.2.den) d ∧
      ∀ t ∈ p, t.2.den ∣ p.foldl (fun d t => Nat.lcm d t.2.den) d := by
    intro p
    induction p with
    | nil => intro d hd; exact ⟨hd, dvd_rfl, by simp⟩
    | cons t p ih =>
      intro d hd
      obtain ⟨h1, h2, h3⟩ := ih (Nat.lcm d t.2.den) (Nat.lcm_pos hd t.2.den_pos)
      refine ⟨h1, (Nat.dvd_lcm_left _ _).trans h2, ?_⟩
      intro s hs
      rcases List.mem_cons.mp hs with rfl | hs
      · exact (Nat.dvd_lcm_right _ _).trans h2
      · exact h3 s hs
  obtain ⟨h1, _, h3⟩ := key p 1 one_pos
  exact ⟨h1, h3⟩

theorem Poly.intEval_numerators (n : ℕ) (p : Poly) (d : ℕ) (hd : ∀ t ∈ p, t.2.den ∣ d) :
    intEval n (p.numerators d) = d * Poly.eval n p := by
  induction p with
  | nil => simp [Poly.numerators, intEval]
  | cons t p ih =>
    obtain ⟨m, hm⟩ := hd t (by simp)
    have ih' := ih fun s hs => hd s (by simp [hs])
    simp only [Poly.numerators, List.map_cons, intEval, List.sum_cons] at ih' ⊢
    rw [ih', Poly.eval_cons]
    have hdiv : d / t.2.den = m := by rw [hm]; exact Nat.mul_div_cancel_left _ t.2.den_pos
    have hden : (t.2.den : ℂ) ≠ 0 := by exact_mod_cast t.2.den_ne_zero
    have hc : ((t.2.num * ((d / t.2.den : ℕ) : ℤ) : ℤ) : ℂ) = d * (t.2 : ℂ) := by
      rw [hdiv, hm, Rat.cast_def]
      push_cast
      field_simp
    rw [hc]
    ring

/-- The sign of a real sum is right. -/
theorem Poly.sign_spec {n : ℕ} (hn : 0 < n) {p : Poly} {v : ℝ} (hv : Poly.eval n p = v) :
    p.sign n = signOf v := by
  rw [Poly.sign]
  split_ifs with h
  · have := Poly.eval_of_vanishes hn h
    rw [hv] at this
    have hv0 : v = 0 := by exact_mod_cast this
    rw [hv0, signOf_zero]
  · obtain ⟨hd, hdvd⟩ := p.denominator_spec
    have he : intEval n (p.numerators p.denominator) = ((p.denominator * v : ℝ) : ℂ) := by
      rw [Poly.intEval_numerators n p _ hdvd, hv]; push_cast; rfl
    have hs := refineSign_spec hn he
      ((signBits n (p.numerators p.denominator)).log2 + 1) 128 (by
        have : signBits n (p.numerators p.denominator)
            < 2 ^ ((signBits n (p.numerators p.denominator)).log2 + 1) := Nat.lt_log2_self
        omega)
    rw [hs, signOf_mul, signOf_pos (by exact_mod_cast hd), one_mul]

/-! ## Quotients -/

/-- The quotient stands for the real number `v`: both sums are real and the divisor is not zero. -/
def Fraction.Stands (n : ℕ) (f : Fraction) (v : ℝ) : Prop :=
  ∃ x y : ℝ, Poly.eval n f.num = x ∧ Poly.eval n f.den = y ∧ y ≠ 0 ∧ v = x / y

theorem Fraction.stands_add {n : ℕ} (hn : 0 < n) {f g : Fraction} {v w : ℝ} (hf : f.Stands n v)
    (hg : g.Stands n w) : (f.add n g).Stands n (v + w) := by
  obtain ⟨x, y, hx, hy, hy0, rfl⟩ := hf
  obtain ⟨a, b, ha, hb, hb0, rfl⟩ := hg
  unfold Fraction.add
  split_ifs with h
  · have hyb : y = b := by
      have : (y : ℂ) = b := by rw [← hy, ← hb, h]
      exact_mod_cast this
    refine ⟨x + a, y, ?_, hy, hy0, ?_⟩
    · rw [Poly.eval_append, hx, ha]; push_cast; ring
    · rw [← hyb]; field_simp
  · refine ⟨x * b + a * y, y * b, ?_, ?_, mul_ne_zero hy0 hb0, by field_simp⟩
    · rw [Poly.eval_append, Poly.eval_mul hn, Poly.eval_mul hn, hx, hy, ha, hb]; push_cast; ring
    · rw [Poly.eval_mul hn, hy, hb]; push_cast; ring

theorem Fraction.stands_neg {n : ℕ} {f : Fraction} {v : ℝ} (hf : f.Stands n v) :
    f.neg.Stands n (-v) := by
  obtain ⟨x, y, hx, hy, hy0, rfl⟩ := hf
  refine ⟨-x, y, ?_, hy, hy0, by ring⟩
  rw [Fraction.neg, Poly.eval_scale, hx]; push_cast; ring

theorem Fraction.stands_mul {n : ℕ} (hn : 0 < n) {f g : Fraction} {v w : ℝ} (hf : f.Stands n v)
    (hg : g.Stands n w) : (f.mul n g).Stands n (v * w) := by
  obtain ⟨x, y, hx, hy, hy0, rfl⟩ := hf
  obtain ⟨a, b, ha, hb, hb0, rfl⟩ := hg
  refine ⟨x * a, y * b, ?_, ?_, mul_ne_zero hy0 hb0, by field_simp⟩
  · rw [Fraction.mul, Poly.eval_mul hn, hx, ha]; push_cast; ring
  · rw [Fraction.mul, Poly.eval_mul hn, hy, hb]; push_cast; ring

theorem Fraction.stands_inv {n : ℕ} {f : Fraction} {v : ℝ} (hf : f.Stands n v) (hv : v ≠ 0) :
    f.inv.Stands n (v⁻¹) := by
  obtain ⟨x, y, hx, hy, hy0, rfl⟩ := hf
  have hx0 : x ≠ 0 := by rintro rfl; simp at hv
  exact ⟨y, x, hy, hx, hx0, by rw [inv_div]⟩

theorem Fraction.stands_rat (n : ℕ) (q : ℚ) :
    Fraction.Stands n ⟨[(0, q)], [(0, 1)]⟩ (q : ℝ) :=
  ⟨q, 1, by simp, by simp, one_ne_zero, by simp⟩

theorem Fraction.stands_cosPi {n : ℕ} (hn : 0 < n) (q : ℚ) (hd : 2 * q.den ∣ n) :
    Fraction.Stands n ⟨Poly.cosPi n q, [(0, 1)]⟩ (Real.cos (q * Real.pi)) :=
  ⟨Real.cos (q * Real.pi), 1, Poly.eval_cosPi hn q hd, by simp, one_ne_zero, by simp⟩

theorem Fraction.sign_spec {n : ℕ} (hn : 0 < n) {f : Fraction} {v : ℝ} (hf : f.Stands n v) :
    f.sign n = signOf v := by
  obtain ⟨x, y, hx, hy, hy0, rfl⟩ := hf
  rw [Fraction.sign, Poly.sign_spec hn hx, Poly.sign_spec hn hy, div_eq_mul_inv, signOf_mul]
  congr 1
  rcases lt_or_gt_of_ne hy0 with h | h
  · rw [signOf_neg h, signOf_neg (inv_lt_zero.mpr h)]
  · rw [signOf_pos h, signOf_pos (inv_pos.mpr h)]

theorem Fraction.magnitude_spec {n : ℕ} (hn : 0 < n) {f : Fraction} {v : ℝ} (hf : f.Stands n v) :
    |v| < 2 ^ f.magnitude n := by
  obtain ⟨x, y, hx, hy, hy0, rfl⟩ := hf
  obtain ⟨hdx, hdvdx⟩ := f.num.denominator_spec
  obtain ⟨hdy, hdvdy⟩ := f.den.denominator_spec
  have hex := Poly.intEval_numerators n f.num _ hdvdx
  have hey := Poly.intEval_numerators n f.den _ hdvdy
  rw [hx] at hex
  rw [hy] at hey
  set a := weight (f.num.numerators f.num.denominator) with ha
  set b := weight (f.den.numerators f.den.denominator) with hb
  set d := f.den.denominator with hd
  have hdx1 : (1 : ℝ) ≤ f.num.denominator := by exact_mod_cast hdx
  have hx1 : |x| ≤ a := by
    have h1 := intEval_norm_le n (f.num.numerators f.num.denominator)
    rw [hex, norm_mul, Complex.norm_natCast, Complex.norm_real, Real.norm_eq_abs] at h1
    nlinarith [abs_nonneg x]
  have hy1 : 1 ≤ (d : ℝ) * |y| * b ^ n := by
    have hne : intEval n (f.den.numerators d) ≠ 0 := by
      rw [hey]
      exact mul_ne_zero (by exact_mod_cast hdy.ne') (by exact_mod_cast hy0)
    have h1 := intEval_lower hn hne
    rwa [hey, norm_mul, Complex.norm_natCast, Complex.norm_real, Real.norm_eq_abs] at h1
  have hal := lt_pow_log2 a
  have hdl := lt_pow_log2 d
  have hbn : (b : ℝ) ^ n ≤ 2 ^ (n * (b.log2 + 1)) := by
    rw [mul_comm, pow_mul]
    exact pow_le_pow_left₀ (by positivity) (lt_pow_log2 b).le _
  have hmag : (2 : ℝ) ^ f.magnitude n
      = 2 ^ (a.log2 + 1) * (2 ^ (d.log2 + 1) * 2 ^ (n * (b.log2 + 1))) := by
    rw [← pow_add, ← pow_add]
    congr 1
    unfold Fraction.magnitude
    rw [← ha, ← hb, ← hd]
    ring
  have hypos : 0 < |y| := abs_pos.mpr hy0
  rw [abs_div, hmag, div_lt_iff₀ hypos]
  have h1 : 1 ≤ 2 ^ (d.log2 + 1) * 2 ^ (n * (b.log2 + 1)) * |y| := by
    refine hy1.trans ?_
    have : (d : ℝ) * |y| * b ^ n = d * b ^ n * |y| := by ring
    rw [this]
    refine mul_le_mul_of_nonneg_right ?_ hypos.le
    exact mul_le_mul hdl.le hbn (by positivity) (by positivity)
  calc |x| ≤ a := hx1
    _ < 2 ^ (a.log2 + 1) := hal
    _ ≤ 2 ^ (a.log2 + 1) * (2 ^ (d.log2 + 1) * 2 ^ (n * (b.log2 + 1)) * |y|) :=
        le_mul_of_one_le_right (by positivity) h1
    _ = _ := by ring

end Sys2Proof.Machine.Exact
end

