-- ==== Sys2Proof/Laws/Exact.lean ====
section
/-! SUPPORT. The scalars of Machine/Exact.lean are exact real numbers: `Is a x` says that the scalar
`a` stands for the real `x`, every operation keeps it, and `<`, `round`, `abs`, `max`, `min` and
`floor` answer what they are of the real numbers. -/

namespace Sys2Proof.Machine.Exact

/-- The real number of an expression. -/
noncomputable def Expr.toReal (e : Expr) : ℝ :=
  match e with
  | .rat q => q
  | .piMul q => q * Real.pi
  | .cosPi q => Real.cos (q * Real.pi)
  | .cosOf e => Real.cos e.toReal
  | .add a b => a.toReal + b.toReal
  | .sub a b => a.toReal - b.toReal
  | .mul a b => a.toReal * b.toReal
  | .div a b => a.toReal / b.toReal

/-- The expressions the rules form: built of rationals and cosines of rational multiples of pi, with
no division by zero. -/
def Expr.Good (e : Expr) : Prop :=
  match e with
  | .rat _ => True
  | .piMul _ => False
  | .cosPi _ => True
  | .cosOf _ => False
  | .add a b => a.Good ∧ b.Good
  | .sub a b => a.Good ∧ b.Good
  | .mul a b => a.Good ∧ b.Good
  | .div a b => a.Good ∧ b.Good ∧ b.toReal ≠ 0

theorem Expr.order_pos (e : Expr) : 0 < e.order := by
  induction e with
  | rat q => exact one_pos
  | piMul q => exact one_pos
  | cosPi q => have := q.den_pos; simp only [Expr.order]; omega
  | cosOf e ih => exact ih
  | add a b iha ihb => exact Nat.lcm_pos iha ihb
  | sub a b iha ihb => exact Nat.lcm_pos iha ihb
  | mul a b iha ihb => exact Nat.lcm_pos iha ihb
  | div a b iha ihb => exact Nat.lcm_pos iha ihb

/-- A good expression is the quotient of sums of roots of unity that it is turned into. -/
theorem Expr.fraction_spec {n : ℕ} (hn : 0 < n) (e : Expr) (hg : e.Good) (hd : e.order ∣ n) :
    ∃ f, e.fraction n = some f ∧ f.Stands n e.toReal := by
  induction e with
  | rat q => exact ⟨_, rfl, Fraction.stands_rat n q⟩
  | piMul q => exact hg.elim
  | cosPi q => exact ⟨_, rfl, Fraction.stands_cosPi hn q hd⟩
  | cosOf e ih => exact hg.elim
  | add a b iha ihb =>
    obtain ⟨f, hf, hfs⟩ := iha hg.1 ((Nat.dvd_lcm_left _ _).trans hd)
    obtain ⟨g, hg', hgs⟩ := ihb hg.2 ((Nat.dvd_lcm_right _ _).trans hd)
    exact ⟨f.add n g, by simp only [Expr.fraction, hf, hg'], Fraction.stands_add hn hfs hgs⟩
  | sub a b iha ihb =>
    obtain ⟨f, hf, hfs⟩ := iha hg.1 ((Nat.dvd_lcm_left _ _).trans hd)
    obtain ⟨g, hg', hgs⟩ := ihb hg.2 ((Nat.dvd_lcm_right _ _).trans hd)
    refine ⟨f.add n g.neg, by simp only [Expr.fraction, hf, hg'], ?_⟩
    have := Fraction.stands_add hn hfs (Fraction.stands_neg hgs)
    rwa [← sub_eq_add_neg] at this
  | mul a b iha ihb =>
    obtain ⟨f, hf, hfs⟩ := iha hg.1 ((Nat.dvd_lcm_left _ _).trans hd)
    obtain ⟨g, hg', hgs⟩ := ihb hg.2 ((Nat.dvd_lcm_right _ _).trans hd)
    exact ⟨f.mul n g, by simp only [Expr.fraction, hf, hg'], Fraction.stands_mul hn hfs hgs⟩
  | div a b iha ihb =>
    obtain ⟨f, hf, hfs⟩ := iha hg.1 ((Nat.dvd_lcm_left _ _).trans hd)
    obtain ⟨g, hg', hgs⟩ := ihb hg.2.1 ((Nat.dvd_lcm_right _ _).trans hd)
    refine ⟨f.mul n g.inv, by simp only [Expr.fraction, hf, hg'], ?_⟩
    have := Fraction.stands_mul hn hfs (Fraction.stands_inv hgs hg.2.2)
    rwa [← div_eq_mul_inv] at this

theorem Expr.sign_spec {e : Expr} (hg : e.Good) : e.sign = signOf e.toReal := by
  obtain ⟨f, hf, hs⟩ := e.fraction_spec e.order_pos hg dvd_rfl
  rw [Expr.sign, hf]
  exact Fraction.sign_spec e.order_pos hs

theorem Expr.magnitude_spec {e : Expr} (hg : e.Good) : |e.toReal| < 2 ^ e.magnitude := by
  obtain ⟨f, hf, hs⟩ := e.fraction_spec e.order_pos hg dvd_rfl
  rw [Expr.magnitude, hf]
  exact Fraction.magnitude_spec e.order_pos hs

/-- The scalar stands for the real number. -/
structure Is (a : Scalar) (x : ℝ) : Prop where
  good : a.expr.Good
  value : a.expr.toReal = x
  ball : ballMem a.ball x

theorem Is.congr {a : Scalar} {x y : ℝ} (h : Is a x) (e : x = y) : Is a y := e ▸ h

theorem is_ofRat (q : ℚ) : Is (ofRat q) q := ⟨trivial, rfl, Ball.mem_ofRat q⟩

theorem is_ofInt (i : ℤ) : Is (num.ofInt i) i := (is_ofRat (i : ℚ)).congr (Rat.cast_intCast i)

theorem is_zero : Is num.zero 0 := (is_ofInt 0).congr Int.cast_zero

theorem is_one : Is num.one 1 := (is_ofInt 1).congr Int.cast_one

theorem Is.add {a b : Scalar} {x y : ℝ} (ha : Is a x) (hb : Is b y) : Is (add a b) (x + y) := by
  obtain ⟨e, p⟩ := a
  obtain ⟨f, q⟩ := b
  obtain ⟨hga, rfl, hba⟩ := ha
  obtain ⟨hgb, rfl, hbb⟩ := hb
  simp only at *
  have node : Is ⟨.add e f, Ball.map2 (fun x y => some (x.add y)) p q⟩ (e.toReal + f.toReal) :=
    ⟨⟨hga, hgb⟩, rfl, ballMem_map2 (fun h hx hy => by
      obtain rfl := Option.some.inj h; exact Ball.mem_add hx hy) hba hbb⟩
  unfold Exact.add
  split
  · rename_i p q h1 h2
    simp only at h1 h2
    subst h1 h2
    have := is_ofRat (p + q)
    push_cast at this
    exact this
  · rename_i h1 _
    simp only at h1
    rw [h1] at hga
    exact hga.elim
  · split_ifs with h1 h2
    · simp only at h1
      subst h1
      exact ⟨hgb, by simp [Expr.toReal], by simpa [Expr.toReal] using hbb⟩
    · simp only at h2
      subst h2
      exact ⟨hga, by simp [Expr.toReal], by simpa [Expr.toReal] using hba⟩
    · exact node

theorem Is.sub {a b : Scalar} {x y : ℝ} (ha : Is a x) (hb : Is b y) : Is (sub a b) (x - y) := by
  obtain ⟨e, p⟩ := a
  obtain ⟨f, q⟩ := b
  obtain ⟨hga, rfl, hba⟩ := ha
  obtain ⟨hgb, rfl, hbb⟩ := hb
  simp only at *
  have node : Is ⟨.sub e f, Ball.map2 (fun x y => some (x.sub y)) p q⟩ (e.toReal - f.toReal) :=
    ⟨⟨hga, hgb⟩, rfl, ballMem_map2 (fun h hx hy => by
      obtain rfl := Option.some.inj h; exact Ball.mem_sub hx hy) hba hbb⟩
  unfold Exact.sub
  split
  · rename_i p q h1 h2
    simp only at h1 h2
    subst h1 h2
    have := is_ofRat (p - q)
    push_cast at this
    exact this
  · rename_i h1 _
    simp only at h1
    rw [h1] at hga
    exact hga.elim
  · split_ifs with h2
    · simp only at h2
      subst h2
      exact ⟨hga, by simp [Expr.toReal], by simpa [Expr.toReal] using hba⟩
    · exact node

theorem Is.mul {a b : Scalar} {x y : ℝ} (ha : Is a x) (hb : Is b y) : Is (mul a b) (x * y) := by
  obtain ⟨e, p⟩ := a
  obtain ⟨f, q⟩ := b
  obtain ⟨hga, rfl, hba⟩ := ha
  obtain ⟨hgb, rfl, hbb⟩ := hb
  simp only at *
  have node : Is ⟨.mul e f, Ball.map2 (fun x y => some (x.mul y)) p q⟩ (e.toReal * f.toReal) :=
    ⟨⟨hga, hgb⟩, rfl, ballMem_map2 (fun h hx hy => by
      obtain rfl := Option.some.inj h; exact Ball.mem_mul hx hy) hba hbb⟩
  unfold Exact.mul
  split
  · rename_i p q h1 h2
    simp only at h1 h2
    subst h1 h2
    have := is_ofRat (p * q)
    push_cast at this
    exact this
  · rename_i h1 _
    simp only at h1
    rw [h1] at hga
    exact hga.elim
  · rename_i h2
    simp only at h2
    rw [h2] at hgb
    exact hgb.elim
  · split_ifs with h0 h1 h2
    · simp only at h0
      refine (is_ofRat 0).congr ?_
      rcases h0 with h0 | h0 <;> rw [h0] <;> simp [Expr.toReal]
    · simp only at h1
      subst h1
      exact ⟨hgb, by simp [Expr.toReal], by simpa [Expr.toReal] using hbb⟩
    · simp only at h2
      subst h2
      exact ⟨hga, by simp [Expr.toReal], by simpa [Expr.toReal] using hba⟩
    · exact node

theorem Is.div {a b : Scalar} {x y : ℝ} (ha : Is a x) (hb : Is b y) (hy : y ≠ 0) :
    Is (div a b) (x / y) := by
  obtain ⟨e, p⟩ := a
  obtain ⟨f, q⟩ := b
  obtain ⟨hga, rfl, hba⟩ := ha
  obtain ⟨hgb, rfl, hbb⟩ := hb
  simp only at *
  have node : Is ⟨.div e f, Ball.map2 Ball.div p q⟩ (e.toReal / f.toReal) :=
    ⟨⟨hga, hgb, hy⟩, rfl, ballMem_map2 Ball.mem_div hba hbb⟩
  unfold Exact.div
  split
  · rename_i p q h1 h2
    simp only at h1 h2
    subst h1 h2
    have := is_ofRat (p / q)
    push_cast at this
    exact this
  · rename_i h1 _
    simp only at h1
    rw [h1] at hga
    exact hga.elim
  · split_ifs with h1 h2
    · simp only at h1
      refine (is_ofRat 0).congr ?_
      rw [h1]; simp [Expr.toReal]
    · simp only at h2
      subst h2
      exact ⟨hga, by simp [Expr.toReal], by simpa [Expr.toReal] using hba⟩
    · exact node

theorem is_cosPi (q : ℚ) : Is (cosPi q) (Real.cos (q * Real.pi)) := by
  unfold cosPi
  split_ifs with h1 h2 h3
  · refine (is_ofRat 1).congr ?_
    obtain ⟨m, hm⟩ := Int.dvd_of_emod_eq_zero h2
    have : (q : ℝ) = 2 * m := by
      rw [Rat.cast_def, h1, hm]; push_cast; ring
    rw [this, show (2 * (m : ℝ)) * Real.pi = m * (2 * Real.pi) by ring, Real.cos_int_mul_two_pi]
    norm_num
  · refine (is_ofRat (-1)).congr ?_
    have hodd : q.num = 2 * (q.num / 2) + 1 := by omega
    have : (q : ℝ) = 2 * (q.num / 2 : ℤ) + 1 := by
      rw [Rat.cast_def, h1]
      conv_lhs => rw [hodd]
      push_cast; ring
    rw [this, show (2 * ((q.num / 2 : ℤ) : ℝ) + 1) * Real.pi
      = Real.pi + (q.num / 2 : ℤ) * (2 * Real.pi) by ring, Real.cos_add_int_mul_two_pi, Real.cos_pi]
    norm_num
  · refine (is_ofRat 0).congr ?_
    have hodd : q.num % 2 = 1 := by
      by_contra hne
      have h0 : q.num % 2 = 0 := by omega
      have hr := q.reduced
      rw [h3] at hr
      obtain ⟨m, hm⟩ := Int.dvd_of_emod_eq_zero h0
      rw [hm, Int.natAbs_mul] at hr
      have := Nat.Coprime.coprime_mul_right hr
      norm_num at this
    have hn : q.num = 2 * (q.num / 2) + 1 := by omega
    have : (q : ℝ) = (2 * (q.num / 2 : ℤ) + 1) / 2 := by
      rw [Rat.cast_def, h3]
      conv_lhs => rw [hn]
      push_cast; ring
    rw [this]
    symm
    rw [Rat.cast_zero, Real.cos_eq_zero_iff]
    exact ⟨q.num / 2, by ring⟩
  · exact ⟨trivial, rfl, Ball.mem_cosPi q⟩

/-! ## What looks at values -/

theorem Is.sign {a : Scalar} {x : ℝ} (h : Is a x) : sign a = signOf x := by
  obtain ⟨hg, rfl, hb⟩ := h
  have hexact := Expr.sign_spec hg
  unfold Exact.sign
  split
  · rename_i q hq
    rw [hq]
    simp only [Expr.toReal]
    rcases lt_trichotomy q 0 with h | h | h
    · rw [signOf_neg (by exact_mod_cast h), Int.sign_eq_neg_one_of_neg (Rat.num_neg.mpr h)]
    · rw [h]; simp
    · rw [signOf_pos (by exact_mod_cast h), Int.sign_eq_one_of_pos (Rat.num_pos.mpr h)]
  · split
    · rename_i b hball
      rw [hball] at hb
      obtain ⟨h1, h2⟩ := Ball.Mem.bounds hb
      have hu := unit_pos
      split_ifs with h3 h4
      · have : (0 : ℝ) < ((b.mid - b.rad : ℤ) : ℝ) := by exact_mod_cast (by omega : (0 : ℤ) < b.mid - b.rad)
        exact (signOf_pos ((mul_pos_iff_of_pos_left hu).mp (this.trans_le h1))).symm
      · have : ((b.mid + b.rad : ℤ) : ℝ) < 0 := by exact_mod_cast (by omega : b.mid + b.rad < (0 : ℤ))
        refine (signOf_neg ?_).symm
        by_contra hle
        have := mul_nonneg hu.le (not_lt.mp hle)
        linarith
      · exact hexact
    · exact hexact

theorem Is.lt {a b : Scalar} {x y : ℝ} (ha : Is a x) (hb : Is b y) : lt a b = decide (x < y) := by
  unfold Exact.lt
  rw [(ha.sub hb).sign]
  congr 1
  rw [signOf_lt_zero, sub_neg]

theorem bisect_spec {a : Scalar} {x : ℝ} (h : Is a x) (fuel : ℕ) (lo hi : ℤ) (h1 : lo ≤ x)
    (h2 : x < hi) (hf : hi - lo ≤ 2 ^ fuel) : bisect a fuel lo hi = ⌊x⌋ := by
  induction fuel generalizing lo hi with
  | zero =>
    rw [bisect]
    symm
    rw [Int.floor_eq_iff]
    refine ⟨h1, h2.trans_le ?_⟩
    exact_mod_cast (by simpa using hf : hi - lo ≤ 1) |> fun h => (by omega : hi ≤ lo + 1)
  | succ fuel ih =>
    rw [bisect]
    rw [pow_succ] at hf
    have hs := (h.sub (is_ofRat (((lo + hi) / 2 : ℤ) : ℚ))).sign
    rw [Rat.cast_intCast] at hs
    by_cases h3 : hi ≤ lo + 1
    · rw [if_pos h3]
      symm
      rw [Int.floor_eq_iff]
      exact ⟨h1, h2.trans_le (by exact_mod_cast h3)⟩
    · rw [if_neg h3]
      simp only [hs, signOf_nonneg, sub_nonneg]
      by_cases h4 : (((lo + hi) / 2 : ℤ) : ℝ) ≤ x
      · rw [if_pos h4]
        exact ih _ _ h4 h2 (by omega)
      · rw [if_neg h4]
        exact ih _ _ h1 (not_le.mp h4) (by omega)

theorem floorWithin_spec {a : Scalar} {x : ℝ} (h : Is a x) (lo hi : ℤ) (h1 : lo ≤ x) (h2 : x < hi) :
    floorWithin a lo hi = ⌊x⌋ := by
  refine bisect_spec h _ lo hi h1 h2 ?_
  have h3 : (hi - lo).toNat < 2 ^ ((hi - lo).toNat.log2 + 1) := Nat.lt_log2_self
  have h4 : hi - lo ≤ ((hi - lo).toNat : ℤ) := Int.self_le_toNat _
  have : ((hi - lo).toNat : ℤ) < (2 ^ ((hi - lo).toNat.log2 + 1) : ℕ) := by exact_mod_cast h3
  push_cast at this
  omega

theorem Is.floor {a : Scalar} {x : ℝ} (h : Is a x) : floor a = ⌊x⌋ := by
  have h' := h
  obtain ⟨hg, hx, hb⟩ := h'
  unfold Exact.floor
  split
  · rename_i q hq
    rw [← hx, hq, Expr.toReal]
    rw [Rat.floor_cast]
    rfl
  · split
    · rename_i b hball
      rw [hball] at hb
      obtain ⟨h1, h2⟩ := Ball.Mem.bounds hb
      have hu := unit_pos
      obtain ⟨l1, l2⟩ := intDiv_error (b.mid - b.rad) (b := 2 ^ baseBits) (by positivity)
      obtain ⟨u1, u2⟩ := intDiv_error (b.mid + b.rad) (b := 2 ^ baseBits) (by positivity)
      have hunit : ((2 ^ baseBits : ℕ) : ℝ) = unit := by rw [Nat.cast_pow, Nat.cast_ofNat]
      have ez : ((2 ^ baseBits : ℕ) : ℤ) = 2 ^ baseBits := by rw [Nat.cast_pow, Nat.cast_ofNat]
      rw [hunit, ez] at l1 u2
      refine floorWithin_spec h _ _ ?_ ?_
      · refine l1.trans ?_
        rw [div_le_iff₀ hu, mul_comm]
        exact h1
      · rw [Int.cast_add, Int.cast_one]
        refine lt_of_le_of_lt ?_ u2
        rw [le_div_iff₀ hu, mul_comm]
        exact h2
    · have hm := Expr.magnitude_spec hg
      rw [hx, abs_lt] at hm
      refine floorWithin_spec h _ _ ?_ ?_
      · push_cast; exact hm.1.le
      · push_cast; exact hm.2

theorem Is.round {a : Scalar} {x : ℝ} (h : Is a x) : round a = roundReal x := by
  have half := is_ofRat (1 / 2)
  have zero := is_ofRat 0
  push_cast at half zero
  unfold Exact.round roundReal
  simp only [h.sign, signOf_nonneg]
  split_ifs
  · exact (h.add half).floor
  · rw [((zero.sub h).add half).floor, zero_sub]

theorem Is.abs {a : Scalar} {x : ℝ} (h : Is a x) : Is (abs a) |x| := by
  have zero := is_ofRat 0
  push_cast at zero
  unfold Exact.abs
  simp only [h.sign]
  split_ifs with h1 h2
  · rw [signOf_eq_zero] at h1
    exact zero.congr (by rw [h1, abs_zero])
  · rw [signOf_lt_zero] at h2
    exact (zero.sub h).congr (by rw [abs_of_neg h2, zero_sub])
  · rw [signOf_lt_zero, not_lt] at h2
    exact h.congr (abs_of_nonneg h2).symm

theorem Is.max {a b : Scalar} {x y : ℝ} (ha : Is a x) (hb : Is b y) : Is (num.max a b) (max x y) := by
  show Is (if Exact.lt a b then b else a) _
  rw [ha.lt hb]
  by_cases h : x < y
  · simpa [h] using hb.congr (max_eq_right h.le).symm
  · simpa [h] using ha.congr (max_eq_left (not_lt.mp h)).symm

theorem Is.min {a b : Scalar} {x y : ℝ} (ha : Is a x) (hb : Is b y) : Is (num.min a b) (min x y) := by
  show Is (if Exact.lt b a then b else a) _
  rw [hb.lt ha]
  by_cases h : y < x
  · simpa [h] using hb.congr (min_eq_right h.le).symm
  · simpa [h] using ha.congr (min_eq_left (not_lt.mp h)).symm

end Sys2Proof.Machine.Exact
end

