-- ==== Sys2Proof/Laws/Reference.lean ====
section
/-! SUPPORT. Every unit of the engine, run on the computable scalars of Machine/Exact.lean, does what
it does on the real numbers of Safety/Reference.lean: the scalars stand for the same reals, and every
quantised result is the same number. -/

namespace Sys2Proof.Machine

open Exact

/-! ## Literals, cosines and quantisers -/

theorem Exact.num_pi_expr : num.pi.expr = .piMul 1 := rfl

theorem is_ofNat (n : ℕ) : Is (num.ofInt n) (realNum.ofInt n) := is_ofInt n

theorem is_lit (p q : ℤ) (hq : q ≠ 0) : Is (lit num p q) (lit realNum p q) :=
  (is_ofInt p).div (is_ofInt q) (by exact_mod_cast hq)

theorem is_halfStep (x : ℕ) : Is (halfStep num x) (halfStep realNum x) :=
  (is_ofInt x).add (is_lit 1 2 (by norm_num))

/-- The cosine of a rational multiple of pi. -/
theorem is_cos_piMul (q : ℚ) (x : ℝ) (hx : x = q * Real.pi) (a : Scalar) (ha : a.expr = .piMul q) :
    Is (num.cos a) (realNum.cos x) := by
  show Is (Exact.cos a) (Real.cos x)
  rw [hx, Exact.cos, ha]
  exact is_cosPi q

theorem is_projCos (n c x : ℕ) : Is (projCos num n c x) (projCos realNum n c x) := by
  refine is_cos_piMul (1 / (n : ℤ) * (c : ℤ) * ((x : ℤ) + 1 / 2)) _ ?_ _ ?_
  · show Real.pi / ((n : ℤ) : ℝ) * ((c : ℤ) : ℝ) * (((x : ℤ) : ℝ) + ((1 : ℤ) : ℝ) / ((2 : ℤ) : ℝ)) = _
    push_cast
    ring
  · simp [num, halfStep, lit, Exact.mul, Exact.div, Exact.add, ofRat]

theorem is_evalCos (n x c : ℕ) : Is (evalCos num n x c) (evalCos realNum n x c) := by
  refine is_cos_piMul (1 / (n : ℤ) * ((x : ℤ) + 1 / 2) * (c : ℤ)) _ ?_ _ ?_
  · show Real.pi / ((n : ℤ) : ℝ) * (((x : ℤ) : ℝ) + ((1 : ℤ) : ℝ) / ((2 : ℤ) : ℝ)) * ((c : ℤ) : ℝ) = _
    push_cast
    ring
  · simp [num, halfStep, lit, Exact.mul, Exact.div, Exact.add, ofRat]

theorem quantise_eq {a : Scalar} {x : ℝ} (h : Is a x) (top : ℕ) :
    quantise num top a = quantise realNum top x := by
  show min top (Exact.round a).toNat = min top (roundReal x).toNat
  rw [h.round]

theorem lt_eq {a b : Scalar} {x y : ℝ} (ha : Is a x) (hb : Is b y) :
    num.lt a b = realNum.lt x y := ha.lt hb

theorem is_clamp01 {a : Scalar} {x : ℝ} (h : Is a x) : Is (clamp01 num a) (clamp01 realNum x) :=
  is_zero.max (is_one.min h)

/-! ## Lists of scalars -/

abbrev IsList (l : List Scalar) (m : List ℝ) : Prop := List.Forall₂ Is l m

theorem isList_map {β : Type} {f : β → Scalar} {g : β → ℝ} (h : ∀ b, Is (f b) (g b)) (l : List β) :
    IsList (l.map f) (l.map g) := by
  induction l with
  | nil => exact .nil
  | cons b l ih => exact .cons (h b) ih

/-- A fold over lists whose elements stand for each other. -/
theorem foldl_rel {α β σ τ : Type} {R : α → β → Prop} {Q : σ → τ → Prop} {f : σ → α → σ}
    {g : τ → β → τ} (hfg : ∀ s t a b, Q s t → R a b → Q (f s a) (g t b)) {l : List α} {m : List β}
    (hl : List.Forall₂ R l m) {s : σ} {t : τ} (hs : Q s t) : Q (l.foldl f s) (m.foldl g t) := by
  induction hl generalizing s t with
  | nil => exact hs
  | cons h _ ih => exact ih (hfg _ _ _ _ hs h)

theorem forall₂_zip {α β γ δ : Type} {R : α → β → Prop} {Q : γ → δ → Prop} {l : List α} {m : List β}
    {l' : List γ} {m' : List δ} (h : List.Forall₂ R l m) (h' : List.Forall₂ Q l' m') :
    List.Forall₂ (fun p q => R p.1 q.1 ∧ Q p.2 q.2) (l.zip l') (m.zip m') := by
  induction h generalizing l' m' with
  | nil => exact .nil
  | cons h _ ih =>
    cases h' with
    | nil => exact .nil
    | cons h' ht' => exact .cons ⟨h, h'⟩ (ih ht')

theorem forall₂_refl_eq {α : Type} (l : List α) : List.Forall₂ (· = ·) l l := by
  induction l with
  | nil => exact .nil
  | cons a l ih => exact .cons rfl ih

/-! ## Colour transform -/

theorem is_255 : Is (num.ofInt 255) (realNum.ofInt 255) := is_ofInt 255

theorem ofInt_ne_zero {i : ℤ} (h : i ≠ 0) : realNum.ofInt i ≠ 0 := by
  show (i : ℝ) ≠ 0
  exact_mod_cast h

theorem is_alphaOf (p : Pixel) : Is (alphaOf num p) (alphaOf realNum p) :=
  (is_ofInt _).div is_255 (ofInt_ne_zero (by norm_num))

theorem is_weighted {a : Scalar} {x : ℝ} (h : Is a x) (c : Byte) :
    Is (weighted num a c) (weighted realNum x c) :=
  ((h.mul h).mul (is_ofInt _)).div is_255 (ofInt_ne_zero (by norm_num))

structure IsSums (s : ColorSums Scalar) (t : ColorSums ℝ) : Prop where
  totA : Is s.totA t.totA
  r : Is s.r t.r
  g : Is s.g t.g
  b : Is s.b t.b

theorem is_colorSums (pixels : List Pixel) :
    IsSums (colorSums num pixels) (colorSums realNum pixels) := by
  refine foldl_rel (R := (· = ·)) ?_ (forall₂_refl_eq pixels) ⟨is_zero, is_zero, is_zero, is_zero⟩
  rintro s t p _ h rfl
  have ha := is_alphaOf p
  exact ⟨h.totA.add ha, h.r.add (is_weighted ha _), h.g.add (is_weighted ha _),
    h.b.add (is_weighted ha _)⟩

theorem is_averageOf {t c : Scalar} {x y : ℝ} (ht : Is t x) (hc : Is c y) :
    Is (averageOf num t c) (averageOf realNum x y) := by
  unfold averageOf
  rw [lt_eq is_zero ht]
  show Is (if realNum.lt 0 x = true then num.div c t else c)
    (if realNum.lt 0 x = true then realNum.div y x else y)
  split_ifs with h
  · exact hc.div ht (by have : (0 : ℝ) < x := by simpa [realNum] using h
                        exact this.ne')
  · exact hc

structure IsLpqa (s : Lpqa Scalar) (t : Lpqa ℝ) : Prop where
  l : Is s.l t.l
  p : Is s.p t.p
  q : Is s.q t.q
  a : Is s.a t.a

theorem is_blend {m a : Scalar} {x y : ℝ} (hm : Is m x) (ha : Is a y) (c : Byte) :
    Is (blend num m a c) (blend realNum x y c) :=
  (hm.mul (is_one.sub ha)).add ((ha.div is_255 (ofInt_ne_zero (by norm_num))).mul (is_ofInt _))

theorem is_lpqaOf {r g b a : Scalar} {r' g' b' a' : ℝ} (hr : Is r r') (hg : Is g g') (hb : Is b b')
    (ha : Is a a') : IsLpqa (lpqaOf num r g b a) (lpqaOf realNum r' g' b' a') where
  l := ((hr.add hg).add hb).div (is_ofInt 3) (ofInt_ne_zero (by norm_num))
  p := ((hr.add hg).div (is_ofInt 2) (ofInt_ne_zero (by norm_num))).sub hb
  q := hr.sub hg
  a := ha

theorem is_colorTransform (pixels : List Pixel) :
    List.Forall₂ IsLpqa (colorTransform num pixels) (colorTransform realNum pixels) := by
  have hs := is_colorSums pixels
  unfold colorTransform
  simp only
  rw [List.forall₂_map_left_iff, List.forall₂_map_right_iff, List.forall₂_same]
  intro p _
  have ha := is_alphaOf p
  exact is_lpqaOf (is_blend (is_averageOf hs.totA hs.r) ha _)
    (is_blend (is_averageOf hs.totA hs.g) ha _) (is_blend (is_averageOf hs.totA hs.b) ha _) ha

/-! ## Forward DCT -/

theorem isList_take {l : List Scalar} {m : List ℝ} (h : IsList l m) (n : ℕ) :
    IsList (l.take n) (m.take n) := List.forall₂_take n h

theorem isRows {l : List Scalar} {m : List ℝ} (hf : IsList l m) (w h : ℕ) :
    List.Forall₂ IsList (fieldRows w h l) (fieldRows w h m) := by
  induction h generalizing l m with
  | zero => exact .nil
  | succ h ih => exact .cons (List.forall₂_take w hf) (ih (List.forall₂_drop w hf))

theorem is_addRow {t : List Scalar × Scalar} {u : List ℝ × ℝ} {s : Scalar} {x : ℝ}
    {cs : List Scalar} {ds : List ℝ} (hc : IsList cs ds) (hs : Is s x) (h1 : IsList t.1 u.1)
    (h2 : Is t.2 u.2) : Is (addRow num cs s t) (addRow realNum ds x u) := by
  refine foldl_rel ?_ (forall₂_zip h1 hc) hs
  rintro s x a b hs ⟨ha, hb⟩
  exact hs.add ((ha.mul hb).mul h2)

theorem is_proj {w h : ℕ} (hwh : w * h ≠ 0) {rs : List (List Scalar)} {ts : List (List ℝ)}
    (hr : List.Forall₂ IsList rs ts) (c : ℕ × ℕ) :
    Is (proj num w h rs c) (proj realNum w h ts c) := by
  unfold proj
  refine Is.div ?_ (is_ofInt _) (ofInt_ne_zero (by exact_mod_cast hwh))
  refine foldl_rel ?_ (forall₂_zip hr (isList_map (is_projCos h c.2) _)) is_zero
  rintro s x a b hs ⟨ha, hb⟩
  exact is_addRow (isList_map (is_projCos w c.1) _) hs ha hb

structure IsChannel (c : Channel Scalar) (d : Channel ℝ) : Prop where
  dc : Is c.dc d.dc
  scale : Is c.scale d.scale
  ac : IsList c.ac d.ac

theorem is_scaleOf {l : List Scalar} {m : List ℝ} (h : IsList l m) :
    Is (scaleOf num l) (scaleOf realNum m) := by
  refine foldl_rel ?_ h is_zero
  intro s x a b hs ha
  exact hs.max ha.abs

theorem is_normalise {l : List Scalar} {m : List ℝ} (h : IsList l m) {s : Scalar} {x : ℝ}
    (hs : Is s x) : IsList (normalise num s l) (normalise realNum x m) := by
  unfold normalise
  rw [lt_eq is_zero hs]
  show IsList (if realNum.lt 0 x = true then _ else _) (if realNum.lt 0 x = true then _ else _)
  split_ifs with hpos
  · have hx : (0 : ℝ) < x := by simpa [realNum] using hpos
    rw [IsList, List.forall₂_map_left_iff, List.forall₂_map_right_iff]
    refine h.imp fun a b hab => ?_
    exact (is_lit 1 2 (by norm_num)).add (((is_lit 1 2 (by norm_num)).mul hab).div hs hx.ne')
  · exact h

theorem is_channelEncode {w h : ℕ} (hwh : w * h ≠ 0) {f : List Scalar} {g : List ℝ}
    (hf : IsList f g) (nx ny : ℕ) :
    IsChannel (channelEncode num w h f nx ny) (channelEncode realNum w h g nx ny) := by
  have hr := isRows hf w h
  have hac := isList_map (fun c => is_proj hwh hr c) (terms nx ny)
  have hs := is_scaleOf hac
  exact ⟨is_proj hwh hr _, hs, is_normalise hac hs⟩

/-! ## Quantisers -/

theorem channelWrite_eq {c : Channel Scalar} {d : Channel ℝ} (h : IsChannel c d) (start : ℕ)
    (b : List Byte) (idx : ℕ) : channelWrite num c start b idx = channelWrite realNum d start b idx := by
  unfold channelWrite
  have hl : c.ac.length = d.ac.length := h.ac.length_eq
  have hq : c.ac.map (quantiseAc num) = d.ac.map (quantiseAc realNum) := by
    have := h.ac
    generalize c.ac = l at this
    generalize d.ac = m at this
    induction this with
    | nil => rfl
    | cons h _ ih =>
      simp only [List.map_cons, ih]
      congr 1
      exact quantise_eq ((is_ofInt 15).mul h) 15
  rw [hl, hq]

theorem quantiseField_eq {a : Scalar} {x : ℝ} (h : Is a x) (top : ℕ) :
    quantiseField num top a = quantiseField realNum top x := quantise_eq ((is_ofInt _).mul h) top

theorem quantiseChromaDc_eq {a : Scalar} {x : ℝ} (h : Is a x) :
    quantiseChromaDc num a = quantiseChromaDc realNum x :=
  quantise_eq ((is_lit 63 2 (by norm_num)).add ((is_lit 63 2 (by norm_num)).mul h)) 63

structure IsChannels (c : Channels Scalar) (d : Channels ℝ) : Prop where
  l : IsChannel c.l d.l
  p : IsChannel c.p d.p
  q : IsChannel c.q d.q
  a : IsChannel c.a d.a

theorem headerFields_eq {c : Channels Scalar} {d : Channels ℝ} (h : IsChannels c d)
    (hasAlpha isLandscape : Bool) (lx ly : ℕ) :
    headerFields num c hasAlpha isLandscape lx ly
      = headerFields realNum d hasAlpha isLandscape lx ly := by
  unfold headerFields
  rw [quantiseField_eq h.l.dc, quantiseChromaDc_eq h.p.dc, quantiseChromaDc_eq h.q.dc,
    quantiseField_eq h.l.scale, quantiseField_eq h.p.scale, quantiseField_eq h.q.scale,
    quantiseField_eq h.a.dc, quantiseField_eq h.a.scale]

theorem writeChannels_eq {c : Channels Scalar} {d : Channels ℝ} (h : IsChannels c d)
    (hasAlpha : Bool) (b : List Byte) :
    writeChannels num c hasAlpha b = writeChannels realNum d hasAlpha b := by
  unfold writeChannels
  simp only [channelWrite_eq h.l, channelWrite_eq h.p, channelWrite_eq h.q, channelWrite_eq h.a]

theorem is_encodeChannels {w h : ℕ} (hwh : w * h ≠ 0) (pixels : List Pixel) (lx ly : ℕ) :
    IsChannels (encodeChannels num w h pixels lx ly) (encodeChannels realNum w h pixels lx ly) := by
  have hf := is_colorTransform pixels
  have hmap : ∀ {f : Lpqa Scalar → Scalar} {g : Lpqa ℝ → ℝ}, (∀ s t, IsLpqa s t → Is (f s) (g t)) →
      IsList ((colorTransform num pixels).map f) ((colorTransform realNum pixels).map g) := by
    intro f g hfg
    rw [IsList, List.forall₂_map_left_iff, List.forall₂_map_right_iff]
    exact hf.imp fun s t h => hfg s t h
  exact ⟨is_channelEncode hwh (hmap fun _ _ h => h.l) _ _, is_channelEncode hwh (hmap fun _ _ h => h.p) _ _,
    is_channelEncode hwh (hmap fun _ _ h => h.q) _ _, is_channelEncode hwh (hmap fun _ _ h => h.a) _ _⟩

/-- ENCODE's result on a non-empty image is that of the reference instance. -/
theorem encodeImage_eq {w h : ℕ} (hwh : w * h ≠ 0) (pixels : List Pixel) :
    encodeImage num w h pixels = encodeImage realNum w h pixels := by
  have hc := fun lx ly => is_encodeChannels hwh pixels lx ly
  unfold encodeImage
  simp only [headerFields_eq (hc _ _), writeChannels_eq (hc _ _)]

/-! ## Dequantisers and reconstruction -/

theorem is_dequantiseAc {s : Scalar} {x : ℝ} (h : Is s x) (d : ℕ) :
    Is (dequantiseAc num s d) (dequantiseAc realNum x d) :=
  (((is_ofInt d).div (is_lit 15 2 (by norm_num)) (by simp [lit, realNum])).sub is_one).mul h

theorem is_channelDecode {s : Scalar} {x : ℝ} (h : Is s x) (b : List Byte) (start idx n : ℕ) :
    IsList (channelDecode num b start idx n s).1 (channelDecode realNum b start idx n x).1 :=
  isList_map (fun _ => is_dequantiseAc h _) _

theorem is_boosted {s : Scalar} {x : ℝ} (h : Is s x) : Is (boosted num s) (boosted realNum x) :=
  h.mul (is_lit 5 4 (by norm_num))

structure IsHeader (c : Header Scalar) (d : Header ℝ) : Prop where
  lDc : Is c.lDc d.lDc
  pDc : Is c.pDc d.pDc
  qDc : Is c.qDc d.qDc
  aDc : Is c.aDc d.aDc
  lScale : Is c.lScale d.lScale
  pScale : Is c.pScale d.pScale
  qScale : Is c.qScale d.qScale
  aScale : Is c.aScale d.aScale

theorem is_dequantiseChromaDc (d : ℕ) :
    Is (dequantiseChromaDc num d) (dequantiseChromaDc realNum d) :=
  ((is_ofInt d).div (is_lit 63 2 (by norm_num)) (by simp [lit, realNum])).sub is_one

theorem is_dequantiseField (top d : ℕ) (h : top ≠ 0) :
    Is (dequantiseField num top d) (dequantiseField realNum top d) :=
  (is_ofInt d).div (is_ofInt top) (ofInt_ne_zero (by exact_mod_cast h))

theorem is_dequantiseHeader (b : List Byte) (hasAlpha : Bool) :
    IsHeader (dequantiseHeader num b hasAlpha) (dequantiseHeader realNum b hasAlpha) where
  lDc := is_dequantiseField _ _ (by norm_num)
  pDc := is_dequantiseChromaDc _
  qDc := is_dequantiseChromaDc _
  lScale := is_dequantiseField _ _ (by norm_num)
  pScale := is_dequantiseField _ _ (by norm_num)
  qScale := is_dequantiseField _ _ (by norm_num)
  aDc := by
    cases hasAlpha
    · exact is_one
    · exact is_dequantiseField _ _ (by norm_num)
  aScale := by
    cases hasAlpha
    · exact is_zero
    · exact is_dequantiseField _ _ (by norm_num)

theorem isList_getD {l : List Scalar} {m : List ℝ} (h : IsList l m) (k : ℕ) :
    Is (l.getD k num.zero) (m.getD k realNum.zero) := by
  induction h generalizing k with
  | nil => exact is_zero
  | cons h _ ih =>
    cases k with
    | zero => exact h
    | succ k => exact ih k

theorem is_evalChannel {fx fy : List Scalar} {gx gy : List ℝ} (hx : IsList fx gx)
    (hy : IsList fy gy) {dc : Scalar} {d : ℝ} (hd : Is dc d) {ac : List Scalar} {bc : List ℝ}
    (ha : IsList ac bc) (nx ny : ℕ) :
    Is (evalChannel num fx fy dc ac nx ny) (evalChannel realNum gx gy d bc nx ny) := by
  refine foldl_rel ?_ (forall₂_zip ha (forall₂_refl_eq (terms nx ny))) hd
  rintro s x ⟨a, t⟩ ⟨b, u⟩ hs ⟨hab, rfl⟩
  exact hs.add (((hab.mul (isList_getD hx _)).mul (isList_getD hy _)).mul (is_ofInt 2))

theorem quantiseMember_eq {a : Scalar} {x : ℝ} (h : Is a x) :
    quantiseMember num a = quantiseMember realNum x := by
  unfold quantiseMember
  exact congrArg (BitVec.ofNat 8) (quantise_eq ((is_ofInt 255).mul (is_clamp01 h)) 255)

theorem pixelOf_eq {l p q a : Scalar} {l' p' q' a' : ℝ} (hl : Is l l') (hp : Is p p') (hq : Is q q')
    (ha : Is a a') : pixelOf num l p q a = pixelOf realNum l' p' q' a' := by
  have hb : Is (num.sub l (num.mul (lit num 2 3) p))
      (realNum.sub l' (realNum.mul (lit realNum 2 3) p')) :=
    hl.sub ((is_lit 2 3 (by norm_num)).mul hp)
  have hr := (((is_ofInt 3).mul hl).sub hb |>.add hq).div (is_ofInt 2)
    (ofInt_ne_zero (i := 2) (by norm_num))
  have hg := hr.sub hq
  exact congrArg₂ (fun (f : Byte × Byte) (g : Byte × Byte) => (⟨f.1, f.2, g.1, g.2⟩ : Pixel))
    (congrArg₂ Prod.mk (quantiseMember_eq hr) (quantiseMember_eq hg))
    (congrArg₂ Prod.mk (quantiseMember_eq hb) (quantiseMember_eq ha))

/-- AVGCOL's result is that of the reference instance. -/
theorem averageColor_eq (b : List Byte) : averageColor num b = averageColor realNum b := by
  have h := is_dequantiseHeader b (hashHasAlpha (hashByte b 2))
  exact pixelOf_eq h.lDc h.pDc h.qDc h.aDc

structure IsCoefficients (c : Coefficients Scalar) (d : Coefficients ℝ) : Prop where
  l : IsList c.l d.l
  p : IsList c.p d.p
  q : IsList c.q d.q
  a : IsList c.a d.a

theorem is_readChannels (b : List Byte) (sh : HashShape) {c : Header Scalar} {d : Header ℝ}
    (h : IsHeader c d) : IsCoefficients (readChannels num b sh c) (readChannels realNum b sh d) where
  l := is_channelDecode h.lScale _ _ _ _
  p := is_channelDecode (is_boosted h.pScale) _ _ _ _
  q := is_channelDecode (is_boosted h.qScale) _ _ _ _
  a := by
    unfold readChannels
    simp only
    split_ifs
    · exact is_channelDecode h.aScale _ _ _ _
    · exact .nil

theorem evalPixel_eq (sh : HashShape) {c : Header Scalar} {d : Header ℝ} (h : IsHeader c d)
    {co : Coefficients Scalar} {ce : Coefficients ℝ} (hc : IsCoefficients co ce)
    {fx fy : List Scalar} {gx gy : List ℝ} (hx : IsList fx gx) (hy : IsList fy gy) :
    evalPixel num sh c co fx fy = evalPixel realNum sh d ce gx gy := by
  refine pixelOf_eq (is_evalChannel hx hy h.lDc hc.l _ _) (is_evalChannel hx hy h.pDc hc.p _ _)
    (is_evalChannel hx hy h.qDc hc.q _ _) ?_
  split_ifs
  · exact is_evalChannel hx hy h.aDc hc.a _ _
  · exact is_one

/-- DECODE's image is that of the reference instance. -/
theorem decodeImage_eq (b : List Byte) (sh : HashShape) :
    decodeImage num b sh = decodeImage realNum b sh := by
  have hd := is_dequantiseHeader b sh.hasAlpha
  have hc := is_readChannels b sh hd
  unfold decodeImage reconstruct
  simp only [List.map_map]
  refine List.flatMap_congr fun y _ => List.map_congr_left fun x _ => ?_
  exact evalPixel_eq sh hd hc (isList_map (is_evalCos _ _) _) (isList_map (is_evalCos _ _) _)

end Sys2Proof.Machine
end

