-- ==== Sys2Proof/Laws/Commands.lean ====
section
/-! SUPPORT. What the shared operations of the commands and the units give, once each: the checks, the
lengths and ranges of what they compute, the stores of their results, and their values over the
real numbers. -/

namespace Sys2Proof.Machine

/-! ## Bytes, nibbles and fields -/

theorem shiftLeft_or_eq (a b n : ℕ) (h : b < 2 ^ n) : a <<< n ||| b = 2 ^ n * a + b := by
  rw [← Nat.shiftLeft_add_eq_or_of_lt h, Nat.shiftLeft_eq, Nat.mul_comm]

theorem or_shiftLeft_eq (a b n : ℕ) (h : a < 2 ^ n) : a ||| b <<< n = a + 2 ^ n * b := by
  rw [Nat.or_comm, shiftLeft_or_eq b a n h, Nat.add_comm]

/-- A field of a header word as arithmetic. -/
theorem field_eq (v lo len : ℕ) : field v lo len = v / 2 ^ lo % 2 ^ len := by
  rw [field, Nat.and_two_pow_sub_one_eq_mod, Nat.shiftRight_eq_div_pow]

theorem h24Of_eq (h : List Byte) : h24Of h =
    (hashByte h 0).toNat + 2 ^ 8 * (hashByte h 1).toNat + 2 ^ 16 * (hashByte h 2).toNat := by
  have h0 := (hashByte h 0).isLt
  have h1 := (hashByte h 1).isLt
  unfold h24Of
  rw [or_shiftLeft_eq _ _ 8 h0, or_shiftLeft_eq _ _ 16 (by omega)]

theorem h16Of_eq (h : List Byte) :
    h16Of h = (hashByte h 3).toNat + 2 ^ 8 * (hashByte h 4).toNat :=
  or_shiftLeft_eq _ _ 8 (hashByte h 3).isLt

/-- `h24` of the header packer as arithmetic, for fields in their ranges (R61). -/
theorem HeaderFields.h24_eq {f : HeaderFields} (h1 : f.lDc < 64) (h2 : f.pDc < 64)
    (h3 : f.qDc < 64) (h4 : f.lScale < 32) : f.h24 =
    f.lDc + 2 ^ 6 * f.pDc + 2 ^ 12 * f.qDc + 2 ^ 18 * f.lScale + 2 ^ 23 * f.hasAlpha.toNat := by
  unfold HeaderFields.h24
  rw [or_shiftLeft_eq _ _ 6 h1, or_shiftLeft_eq _ _ 12 (by omega), or_shiftLeft_eq _ _ 18 (by omega),
    or_shiftLeft_eq _ _ 23 (by omega)]

/-- `h16` of the header packer as arithmetic, for fields in their ranges (R62). -/
theorem HeaderFields.h16_eq {f : HeaderFields} (h1 : f.geo3 < 8) (h2 : f.pScale < 64)
    (h3 : f.qScale < 64) :
    f.h16 = f.geo3 + 2 ^ 3 * f.pScale + 2 ^ 9 * f.qScale + 2 ^ 15 * f.isLandscape.toNat := by
  unfold HeaderFields.h16
  rw [or_shiftLeft_eq _ _ 3 h1, or_shiftLeft_eq _ _ 9 (by omega), or_shiftLeft_eq _ _ 15 (by omega)]

theorem HeaderFields.toBytes_length (f : HeaderFields) : f.toBytes.length = hdrLen f.hasAlpha := by
  unfold HeaderFields.toBytes hdrLen
  cases f.hasAlpha <;> rfl

theorem HeaderFields.hashByte_toBytes (f : HeaderFields) (rest : List Byte) :
    hashByte (f.toBytes ++ rest) 0 = BitVec.ofNat 8 f.h24 ∧
      hashByte (f.toBytes ++ rest) 1 = BitVec.ofNat 8 (f.h24 >>> 8) ∧
      hashByte (f.toBytes ++ rest) 2 = BitVec.ofNat 8 (f.h24 >>> 16) ∧
      hashByte (f.toBytes ++ rest) 3 = BitVec.ofNat 8 f.h16 ∧
      hashByte (f.toBytes ++ rest) 4 = BitVec.ofNat 8 (f.h16 >>> 8) ∧
      (f.hasAlpha = true → hashByte (f.toBytes ++ rest) 5 = BitVec.ofNat 8 f.alphaByte) := by
  unfold HeaderFields.toBytes
  refine ⟨rfl, rfl, rfl, rfl, rfl, fun h => ?_⟩
  rw [h]
  rfl

theorem byte_msb_eq (b : Byte) : b.getLsbD 7 = decide (128 ≤ b.toNat) := by
  revert b
  decide

/-- A nibble slot as arithmetic (R96). -/
theorem nibbleAt_eq (b : List Byte) (start j : ℕ) :
    nibbleAt b start j = (hashByte b (start + j / 2)).toNat / 16 ^ (j % 2) % 16 := by
  unfold nibbleAt
  rw [show (15 : ℕ) = 2 ^ 4 - 1 from rfl, Nat.and_two_pow_sub_one_eq_mod, Nat.shiftRight_eq_div_pow]
  rcases Nat.mod_two_eq_zero_or_one j with h | h <;> rw [h] <;> norm_num

theorem hashByte_orNibble (b : List Byte) (start idx d k : ℕ) (h : start + idx / 2 < b.length) :
    hashByte (orNibble b start idx d) k =
      if k = start + idx / 2 then hashByte b k ||| BitVec.ofNat 8 (d <<< (4 * (idx % 2)))
      else hashByte b k := by
  unfold hashByte orNibble
  rw [List.getD_eq_getElem?_getD, List.getD_eq_getElem?_getD, List.getElem?_modify]
  by_cases hk : k = start + idx / 2
  · rw [if_pos hk, hk, List.getElem?_eq_getElem h]
    simp
  · have hk' : ¬start + idx / 2 = k := fun e => hk e.symm
    rw [if_neg hk]
    simp [hk']

theorem wordOfBytes_toNat (b0 b1 b2 b3 : Byte) : (wordOfBytes b0 b1 b2 b3).toNat =
    b0.toNat + 2 ^ 8 * b1.toNat + 2 ^ 16 * b2.toNat + 2 ^ 24 * b3.toNat := by
  have h0 := b0.isLt
  have h1 := b1.isLt
  have h2 := b2.isLt
  unfold wordOfBytes
  simp only [BitVec.toNat_append]
  rw [shiftLeft_or_eq _ _ 8 h0, shiftLeft_or_eq _ _ 8 h1, shiftLeft_or_eq _ _ 8 h2]
  omega

theorem byteOfWord_toNat (v : Word) (k : ℕ) : (byteOfWord v k).toNat = v.toNat / 2 ^ (8 * k) % 256 := by
  unfold byteOfWord
  rw [BitVec.extractLsb'_toNat, Nat.shiftRight_eq_div_pow]

/-! ## Lengths -/

theorem writeNibbles_length (h : List Byte) (start idx : ℕ) (ds : List ℕ) :
    (writeNibbles h start idx ds).length = h.length := by
  induction ds generalizing h idx with
  | nil => rfl
  | cons d ds ih => simp [writeNibbles, ih, orNibble]

/-- Nibble streams compose: consecutive channels are one stream (R98). -/
theorem writeNibbles_append (b : List Byte) (start idx : ℕ) (ds es : List ℕ) :
    writeNibbles b start idx (ds ++ es) =
      writeNibbles (writeNibbles b start idx ds) start (idx + ds.length) es := by
  induction ds generalizing b idx with
  | nil => rfl
  | cons d ds ih =>
    show writeNibbles (orNibble b start idx d) start (idx + 1) (ds ++ es) = _
    rw [ih]
    show _ = writeNibbles (writeNibbles (orNibble b start idx d) start (idx + 1) ds) start
      (idx + (ds.length + 1)) es
    congr 1
    omega

theorem writeChannels_stream {S : Type} (N : Num S) (ch : Channels S) (hasAlpha : Bool) (b : List Byte) :
    writeChannels N ch hasAlpha b = writeNibbles b (hdrLen hasAlpha) 0
      ((ch.l.ac ++ ch.p.ac ++ ch.q.ac ++ (if hasAlpha then ch.a.ac else [])).map (quantiseAc N)) := by
  unfold writeChannels channelWrite
  cases hasAlpha
  · simp only [Bool.false_eq_true, if_false, List.append_nil, List.map_append, writeNibbles_append,
      List.length_append, List.length_map, Nat.zero_add]
  · simp only [if_true, List.map_append, writeNibbles_append, List.length_append, List.length_map,
      Nat.zero_add]

theorem headerBuffer_length (f : HeaderFields) : (headerBuffer f).length = 32 := by
  unfold headerBuffer
  rw [List.length_append, HeaderFields.toBytes_length, List.length_replicate]
  cases f.hasAlpha <;> rfl

theorem encodeImage_hash_length {S : Type} (N : Num S) (w h : ℕ) (ps : List Pixel) :
    (encodeImage N w h ps).hash.length = 32 := by
  unfold encodeImage
  simp only
  rw [writeChannels_stream, writeNibbles_length, headerBuffer_length]

theorem reconstruct_length {S : Type} (N : Num S) (sh : HashShape) (hd : Header S)
    (co : Coefficients S) :
    (reconstruct N sh hd co).length = (outSize sh).1 * (outSize sh).2 := by
  unfold reconstruct
  simp [List.length_flatMap, Nat.mul_comm]

theorem bytesOfPixels_length (ps : List Pixel) : (bytesOfPixels ps).length = 4 * ps.length := by
  unfold bytesOfPixels
  induction ps with
  | nil => rfl
  | cons p ps ih =>
    rw [List.flatMap_cons, List.length_append, ih, List.length_cons]
    simp [Pixel.toBytes]
    ring

theorem bytesOfPixels_getElem (ps : List Pixel) (i k : ℕ) (hi : i < ps.length) (hk : k < 4) :
    (bytesOfPixels ps)[4 * i + k]'(by rw [bytesOfPixels_length]; omega) =
      (ps[i].toBytes)[k]'(by simpa [Pixel.toBytes] using hk) := by
  induction ps generalizing i with
  | nil => simp at hi
  | cons p ps ih =>
    have hc : bytesOfPixels (p :: ps) = p.toBytes ++ bytesOfPixels ps := by simp [bytesOfPixels]
    have hl : p.toBytes.length = 4 := rfl
    simp only [hc]
    cases i with
    | zero =>
      rw [List.getElem_append_left (by omega)]
      simp
    | succ i =>
      rw [List.getElem_append_right (by omega)]
      simp only [List.getElem_cons_succ]
      rw [← ih i (by simpa using hi)]
      congr 1
      omega

/-! ## Geometry and sizes -/

/-- The bounds of a geometry are at most 7, so no channel has more than 27 terms (R88). -/
theorem termCount_le {nx ny : ℕ} (hx : nx ≤ 7) (hy : ny ≤ 7) : termCount nx ny ≤ 27 := by
  have h : ∀ a ∈ List.range 8, ∀ b ∈ List.range 8, termCount a b ≤ 27 := by decide
  exact h nx (List.mem_range.mpr (by omega)) ny (List.mem_range.mpr (by omega))

theorem geometrySide_le {limit side m : ℕ} (hl : 1 ≤ limit) (h : side ≤ m) (hm : 1 ≤ m) :
    geometrySide limit side m ≤ limit := by
  have h1 : 2 * limit * side + m < (limit + 1) * (2 * m) := by nlinarith
  have h2 := (Nat.div_lt_iff_lt_mul (by omega : 0 < 2 * m)).mpr h1
  exact max_le hl (by omega)

theorem geometrySide_self {limit m : ℕ} (hl : 1 ≤ limit) (hm : 1 ≤ m) :
    geometrySide limit m m = limit := by
  have h : (2 * limit * m + m) / (2 * m) = limit := by
    apply Nat.div_eq_of_lt_le <;> nlinarith
  unfold geometrySide
  rw [h, max_eq_right hl]

theorem limitOf_cases (hasAlpha : Bool) : 5 ≤ limitOf hasAlpha ∧ limitOf hasAlpha ≤ 7 := by
  cases hasAlpha <;> decide

theorem shortSide_le {hasAlpha : Bool} {g : ℕ} (h : g ≤ limitOf hasAlpha) : shortSide hasAlpha g ≤ 32 := by
  have hl := limitOf_cases hasAlpha
  have h1 : 64 * g + limitOf hasAlpha < 33 * (2 * limitOf hasAlpha) := by omega
  have h2 := (Nat.div_lt_iff_lt_mul (by omega : 0 < 2 * limitOf hasAlpha)).mpr h1
  unfold shortSide
  omega

theorem shortSide_ge {hasAlpha : Bool} {g : ℕ} (h : 1 ≤ g) : 5 ≤ shortSide hasAlpha g := by
  have hl := limitOf_cases hasAlpha
  unfold shortSide
  rw [Nat.le_div_iff_mul_le (by omega)]
  omega

theorem outSize_le {sh : HashShape} (h : sh.geo3 ≤ limitOf sh.hasAlpha) :
    (outSize sh).1 ≤ 32 ∧ (outSize sh).2 ≤ 32 := by
  have := shortSide_le h
  unfold outSize outMax
  split <;> simp <;> omega

/-! ## The checks -/

theorem encodeCheck_eq_none {w h : ℕ} :
    encodeCheck w h = none ↔ 1 ≤ w ∧ w ≤ 100 ∧ 1 ≤ h ∧ h ≤ 100 := by
  unfold encodeCheck maxDim
  split_ifs <;> simp <;> omega

theorem parseShape_ok {n : ℕ} {h : List Byte} {sh : HashShape} (hp : parseShape n h = .ok sh) :
    sh = hashShape h ∧ 5 ≤ n ∧ 1 ≤ sh.geo3 ∧ sh.geo3 ≤ limitOf sh.hasAlpha := by
  unfold parseShape at hp
  simp only at hp
  split_ifs at hp with h1 h2
  cases hp
  simp only [geometryBad, Bool.not_eq_true, decide_eq_false_iff_not] at h2
  exact ⟨rfl, by omega, by omega, by omega⟩

theorem parseFull_ok {n : ℕ} {h : List Byte} {sh : HashShape} (hp : parseFull n h = .ok sh) :
    parseShape n h = .ok sh ∧ hashLenFor sh.hasAlpha sh.lx sh.ly ≤ n := by
  unfold parseFull at hp
  split at hp
  · cases hp
  · rename_i sh' hsh
    split_ifs at hp with h1
    cases hp
    exact ⟨hsh, by omega⟩

theorem parseFull_error {n : ℕ} {h : List Byte} {c : ErrCode} (hp : parseFull n h = .error c) :
    c = .malformedLen ∨ c = .malformedGeom := by
  unfold parseFull parseShape at hp
  simp only at hp
  split at hp
  · rename_i c' hc
    cases hp
    split_ifs at hc <;> cases hc <;> simp
  · split_ifs at hp
    cases hp
    exact .inl rfl

/-- The geometry of a hash: inside the limit, and the limit on the longer side (R111). -/
theorem hashShape_geometry (h : List Byte) (sh : HashShape) (hs : sh = hashShape h) :
    sh.lx = (if sh.isLandscape then limitOf sh.hasAlpha else sh.geo3) ∧
      sh.ly = (if sh.isLandscape then sh.geo3 else limitOf sh.hasAlpha) := by
  subst hs
  unfold hashShape hashGeometry
  simp only
  split <;> exact ⟨rfl, rfl⟩

/-! ## The stores of ENCODE and DECODE -/

theorem State.readByte_storeEncode (s : State) {r : EncodeResult} (hl : r.hash.length = 32) {k : ℕ}
    (hk : k < 32) : (s.storeEncode r).readByte (0x40 + k) = hashByte r.hash k := by
  refine (State.readByte_writeBytes_at s (a := 0x40) (bs := r.hash) (i := k) (by omega)).trans ?_
  unfold hashByte
  rw [List.getD_eq_getElem?_getD, List.getElem?_eq_getElem (by omega)]
  rfl

theorem State.readByte_storeEncode_of_not_mem (s : State) {r : EncodeResult}
    (hl : r.hash.length = 32) {k : ℕ} (hk : k < 0x40 ∨ 0x60 ≤ k) :
    (s.storeEncode r).readByte k = s.readByte k :=
  State.readByte_writeBytes_of_not_mem s (a := 0x40) (bs := r.hash) (by omega)

theorem State.readByte_storeDecode_of_not_mem (s : State) (sh : HashShape) {ps : List Pixel} {k : ℕ}
    (hk : k < 0x1000 ∨ 0x1000 + 4 * ps.length ≤ k) : (s.storeDecode sh ps).readByte k = s.readByte k :=
  State.readByte_writeBytes_of_not_mem s (a := 0x1000) (bs := bytesOfPixels ps)
    (by rw [bytesOfPixels_length]; exact hk)

theorem State.outPixel_storeDecode (s : State) (sh : HashShape) {ps : List Pixel} {i : ℕ}
    (hi : i < ps.length) : (s.storeDecode sh ps).outPixel i = ps[i] := by
  have key : ∀ k (hk : k < 4), (s.storeDecode sh ps).readByte (0x1000 + 4 * i + k) =
      (ps[i].toBytes)[k]'(by simpa [Pixel.toBytes] using hk) := by
    intro k hk
    have h := State.readByte_writeBytes_at s (a := 0x1000) (bs := bytesOfPixels ps) (i := 4 * i + k)
      (by rw [bytesOfPixels_length]; omega)
    rw [bytesOfPixels_getElem ps i k hi hk, ← Nat.add_assoc] at h
    exact h
  have k0 := key 0 (by omega)
  rw [Nat.add_zero] at k0
  unfold State.outPixel outBase
  rw [k0, key 1 (by omega), key 2 (by omega), key 3 (by omega)]
  rfl

theorem State.wf_storeEncode {s : State} (hm : Memory.wf s.mem = true) {r : EncodeResult}
    (hl : r.hash.length = 32) : Memory.wf (s.storeEncode r).mem = true := by
  refine Memory.wf_writeBytes (a := hashBase) (bs := r.hash) hm fun x h1 h2 => ?_
  unfold Memory.isBuffer
  rw [(Memory.inHash_iff x).mpr ⟨h1, by rw [hl] at h2; exact h2⟩]
  rfl

theorem State.wf_storeDecode {s : State} (hm : Memory.wf s.mem = true) (sh : HashShape)
    {ps : List Pixel} (hl : ps.length ≤ 1024) : Memory.wf (s.storeDecode sh ps).mem = true := by
  refine Memory.wf_writeBytes (a := outBase) (bs := bytesOfPixels ps) hm fun x h1 h2 => ?_
  rw [bytesOfPixels_length] at h2
  unfold Memory.isBuffer
  rw [(Memory.inOut_iff x).mpr ⟨h1, by unfold outBase at h2; omega⟩]
  simp

/-! ## Over the real numbers -/

/-- `round` of a quotient of naturals by the integer expression of R83 and R121. -/
theorem roundReal_div (p q : ℕ) (hq : 0 < q) :
    roundReal ((p : ℝ) / (q : ℝ)) = ((2 * p + q) / (2 * q) : ℕ) := by
  have hq' : (0 : ℝ) < q := by exact_mod_cast hq
  unfold roundReal
  rw [if_pos (by positivity), Int.floor_eq_iff]
  have h1 := Nat.div_mul_le_self (2 * p + q) (2 * q)
  have h2 := Nat.lt_div_mul_add (a := 2 * p + q) (b := 2 * q) (by omega)
  generalize (2 * p + q) / (2 * q) = k at *
  have h1' : (k : ℝ) * (2 * q) ≤ 2 * p + q := by exact_mod_cast h1
  have h2' : (2 * p + q : ℝ) < k * (2 * q) + 2 * q := by exact_mod_cast h2
  have e : (p : ℝ) / q + 1 / 2 = (2 * p + q) / (2 * q) := by field_simp
  push_cast
  rw [e]
  constructor
  · rw [le_div_iff₀ (by positivity)]
    exact h1'
  · rw [div_lt_iff₀ (by positivity)]
    linarith

theorem quantiseMember_real (v : ℝ) : quantiseMember realNum v = realMember v := by
  have hc : (0 : ℝ) ≤ 255 * max 0 (min 1 v) := by positivity
  have hle : 255 * max 0 (min 1 v) ≤ (255 : ℝ) := by
    have : max 0 (min 1 v) ≤ (1 : ℝ) := max_le (by norm_num) (min_le_left _ _)
    linarith
  have hr : roundReal (255 * max 0 (min 1 v)) ≤ 255 := by
    unfold roundReal
    rw [if_pos hc]
    have : ⌊255 * max 0 (min 1 v) + 1 / 2⌋ < (256 : ℤ) := Int.floor_lt.mpr (by push_cast; linarith)
    omega
  have he : realNum.round (realNum.mul (realNum.ofInt 255) (clamp01 realNum v)) =
      roundReal (255 * max 0 (min 1 v)) := by
    show roundReal (((255 : ℤ) : ℝ) * max 0 (min 1 v)) = _
    norm_num
  unfold quantiseMember realMember quantise
  rw [he, min_eq_right (by omega)]

end Sys2Proof.Machine
end

