-- ==== Sys2Proof/Tests/Slice0.lean ====
section
/-! SUPPORT. Tests of one step on small states, with results from 95_test_vectors.md and the worked
examples of the unit sections; and, for every obligation that has hypotheses, concrete states and
operands that meet them (`test_witness_...`). -/

namespace Sys2Proof.Tests
open Sys2Proof Sys2Proof.Machine

/-! ## Small states -/

/-- The reset state with an image. -/
def image (w h : Nat) (pixels : List Pixel) : State :=
  { State.reset with
    width := BitVec.ofNat 16 w, height := BitVec.ofNat 16 h
    mem := Memory.writeBytes [] pixBase (bytesOfPixels pixels) }

/-- The reset state with a hash. -/
def hashed (bytes : List Byte) (len : Nat) : State :=
  { State.reset with mem := Memory.writeBytes [] hashBase bytes, hashLen := BitVec.ofNat 6 len }

/-- The state after the one step that runs a command word. -/
def after (s : State) (w : Nat) : State :=
  match step (s.withFetchWord 32 w) with
  | .next t => t
  | _ => s

/-- The 24 bytes of vector V1. -/
def v1Bytes : List Byte :=
  [0xD5, 0xFB, 0x2B, 0x07, 0x00, 0x88, 0x08, 0x88, 0x88, 0x88, 0x88, 0x88, 0x88, 0x88, 0x88, 0x08,
    0x88, 0x88, 0x08, 0x00, 0x00, 0x00, 0x00, 0x00]

/-- The 23 bytes of vector V3. -/
def v3Bytes : List Byte :=
  [0x15, 0x00, 0x82, 0x03, 0x80, 0x88, 0x00, 0x00, 0x00, 0x00, 0x00, 0x00, 0x00, 0x00, 0x00, 0x00,
    0x8C, 0x85, 0x88, 0x88, 0x88, 0x88, 0x08]

/-- The header of vector V2a; every byte after it is 0. -/
def v2aBytes : List Byte := [0x20, 0x08, 0x02, 0x04, 0x80]

/-! ## Well-formed command words (R56, R57, R58) -/

theorem test_wellFormed_commands :
    [0x0#32, 0x1#32, 0x2#32, 0x3#32, 0x4#32].map CommandWord.wellFormed =
      [true, true, true, true, true] := by decide

/-- Ill-formed: opcode 0x05, the first reserved one; the check of the opcode refuses it. -/
theorem test_illFormed_opcode :
    CommandWord.opcodeAssigned 0x5#32 = false ∧ CommandWord.wellFormed 0x5#32 = false := by decide

/-- Ill-formed: bit 8 set; the check of the reserved bits refuses it (T-ER8). -/
theorem test_illFormed_reservedBits :
    CommandWord.reservedBitsZero 0x101#32 = false ∧ CommandWord.wellFormed 0x101#32 = false := by
  decide

/-! ## Decoding: each command's word, written out from R57 -/

theorem test_decode_nop :
    decodeCommand 0b00000000_00000000_00000000_00000000#32 = .ok .nop := by decide
theorem test_decode_encode :
    decodeCommand 0b00000000_00000000_00000000_00000001#32 = .ok .encode := by decide
theorem test_decode_decode :
    decodeCommand 0b00000000_00000000_00000000_00000010#32 = .ok .decode := by decide
theorem test_decode_avgcol :
    decodeCommand 0b00000000_00000000_00000000_00000011#32 = .ok .avgcol := by decide
theorem test_decode_aspect :
    decodeCommand 0b00000000_00000000_00000000_00000100#32 = .ok .aspect := by decide
theorem test_decode_reserved :
    decodeCommand 0b00000000_00000000_00000000_00000101#32 = .error (.reservedOpcode 5) ∧
      decodeCommand 0b00000000_00000000_00000001_00000001#32 = .error .reservedBits := by decide
theorem test_decode_truncated : decodeBytes [1, 0, 0] = .error .truncated := by decide

/-! ## Commands (95_test_vectors.md parts 2 and 3) -/

/-- V1: the hash of the 2 by 2 red image, and the registers beside it. -/
theorem test_encode_red :
    let t := after (image 2 2 (List.replicate 4 ⟨255, 0, 0, 255⟩)) 1
    t.hash.take 24 = v1Bytes ∧ t.geom.toWord = 0x00077077 ∧ t.counts.toWord = 0x00001B25 ∧
      t.hashLen = 24 ∧ t.status.toWord = 0x02 := by
  decide +kernel

/-- V1 decoded: pixel (4, 0), through the reconstruction unit (R130). -/
theorem test_decode_red_pixel :
    let sh := hashShape v1Bytes
    let hd := dequantiseHeader Exact.num v1Bytes sh.hasAlpha
    evalPixel Exact.num sh hd (readChannels Exact.num v1Bytes sh hd)
      (cosTable Exact.num 32 7 4) (cosTable Exact.num 32 7 0) = ⟨255, 1, 3, 255⟩ := by
  decide +kernel

/-- V3 decoded: the registers (32 by 19). -/
theorem test_decode_registers :
    let t := after (hashed v3Bytes 23) 2
    t.outDim.toWord = 0x00001320 ∧ t.geom.toWord = 0x00035335 ∧ t.counts.toWord = 0x00000A22 ∧
      t.status.toWord = 0x02 := by
  decide

/-- T-ER5: V2a's hash one byte short. -/
theorem test_decode_short :
    (after (hashed v2aBytes 18) 2).status.toWord = 0x22 ∧
      (after (hashed v2aBytes 19) 2).status.toWord = 0x02 := by
  decide

/-- V1: AVGCOL (T-MX1). -/
theorem test_avgcol_red : (after (hashed v1Bytes 24) 3).avgRgba.toWord = 0xFF0100FE := by
  decide +kernel

/-- V3: AVGCOL with the alpha byte (T-MX2), and one byte short of it (T-MX3). -/
theorem test_avgcol_alpha :
    (after (hashed v3Bytes 23) 3).avgRgba.toWord = 0x88FF0002 ∧
      (after (hashed v3Bytes 5) 3).status.toWord = 0x22 := by
  decide +kernel

/-- V3: ASPECT is 5/3, on the five header bytes too (T-MX3). -/
theorem test_aspect_landscape :
    (after (hashed v3Bytes 5) 4).aspect.toWord = 0x35 := by decide

/-- T-ER7: alpha with `GEO3 = 6`. -/
theorem test_aspect_badGeometry :
    (after (hashed [0x00, 0x00, 0x80, 0x06, 0x00] 32) 4).status.toWord = 0x32 := by decide

/-- T-ER1, T-ER3: too large before empty. -/
theorem test_encode_sizes :
    (after (image 101 1 []) 1).status.toWord = 0x12 ∧
      (after (image 0 5 []) 1).status.toWord = 0x42 ∧
      (after (image 0 101 []) 1).status.toWord = 0x12 := by
  decide

/-- T-ER10: commands on the reset state. -/
theorem test_reset_commands :
    (after State.reset 1).status.toWord = 0x42 ∧ (after State.reset 2).status.toWord = 0x22 ∧
      (after State.reset 0).status.toWord = 0x02 := by
  decide

/-- T-ER8: reserved words. -/
theorem test_reserved_words :
    after State.reset 5 = { State.reset with cmdLatch := 5, status := ⟨false, true, .badCmd⟩ } ∧
      (after State.reset 0x101).status.toWord = 0x52 := by
  decide

/-! ## Units -/

/-- T-CT3: one alpha of 254 sets the flag. -/
theorem test_hasAlpha :
    imageHasAlpha 2 2 (List.replicate 3 ⟨0, 0, 0, 255⟩ ++ [⟨0, 0, 0, 254⟩]) = true ∧
      imageHasAlpha 2 2 (List.replicate 4 ⟨0, 0, 0, 255⟩) = false := by
  decide

/-- T-CT4: ties, and the floor of 1. -/
theorem test_geometry :
    geometry 100 50 false = (7, 4) ∧ geometry 100 50 true = (5, 3) ∧ geometry 100 97 false = (7, 7) ∧
      geometry 100 7 false = (7, 1) ∧ geometry 100 22 false = (7, 2) ∧ geometry 1 100 true = (1, 5) := by
  decide

/-- T-NQ1: two channels in one stream; the first ends in the middle of a byte. -/
theorem test_nibble_stream :
    (writeNibbles (writeNibbles (List.replicate 32 0) 5 0 [8, 8, 8, 0, 8]) 5 5 [15, 5]).take 9 =
      [0, 0, 0, 0, 0, 0x88, 0x08, 0xF8, 0x05] := by
  decide

/-- T-NQ3: the ties of the AC quantiser, and a value just under one. -/
theorem test_quantise_ties :
    quantiseAc Exact.num (Exact.ofRat (1 / 30)) = 1 ∧
      quantiseAc Exact.num (Exact.ofRat (333 / 10000)) = 0 ∧
      quantiseAc Exact.num (Exact.ofRat (3 / 10)) = 5 ∧
      quantiseAc Exact.num (Exact.ofRat (29 / 30)) = 15 := by
  decide +kernel

/-- T-DCT5: every even frequency of a single pixel aliases to 1 or -1. -/
theorem test_single_pixel_terms :
    let ch := channelEncode Exact.num 1 1 [Exact.ofRat 1] 3 3
    ch.ac.map (·.expr) = [.rat (1 / 2), .rat 0, .rat (1 / 2), .rat (1 / 2), .rat 0] ∧
      ch.scale.expr = .rat 1 := by
  decide +kernel

/-- T-HP1: the packed header of V1. -/
theorem test_header_pack :
    (HeaderFields.toBytes ⟨21, 47, 63, 10, false, 7, 0, 0, false, 0, 0⟩) =
      [0xD5, 0xFB, 0x2B, 0x07, 0x00] := by
  decide

/-- T-RC4: clamping and the tie. -/
theorem test_quantise_member :
    quantiseMember Exact.num (Exact.ofRat (-1 / 5)) = 0 ∧
      quantiseMember Exact.num (Exact.ofRat (1 / 2)) = 128 ∧
      quantiseMember Exact.num (Exact.ofRat (10036 / 10000)) = 255 := by
  decide +kernel

/-! ## The port -/

/-- T-ER9: unmapped, read-only, misaligned, narrow. -/
theorem test_bus_errors :
    State.reset.transact (.read 0x2C 4) = (.read .error 0, State.reset) ∧
      State.reset.transact (.write 0x18 4 1) = (.write .error, State.reset) ∧
      State.reset.transact (.read 0x41 4) = (.read .error 0, State.reset) ∧
      State.reset.transact (.write 0x40 1 1) = (.write .error, State.reset) ∧
      State.reset.transact (.write 0x1000 4 1) = (.write .error, State.reset) := by
  decide

/-- R42, R44: `HASH[0]` is the low byte of the word at 0x40. -/
theorem test_bus_byteOrder :
    (State.reset.transact (.write 0x40 4 0x03820015)).2.readByte 0x40 = 0x15 ∧
      (State.reset.transact (.write 0x40 4 0x03820015)).2.readByte 0x43 = 0x03 := by
  decide

/-- R24: a length over 32 is stored as 32. -/
theorem test_bus_hashLen :
    (State.reset.transact (.write 0x14 4 33)).2.hashLen = 32 ∧
      (State.reset.transact (.write 0x14 4 0x10000005)).2.hashLen = 32 := by
  decide

/-- Writing what an unlisted offset holds leaves memory as it was. -/
theorem test_memory_canonical :
    (State.reset.transact (.write 0x40 4 0)).2.mem = [] ∧
      (State.reset.transact (.write 0x10000 4 0)).2.mem =
        [(0x10000, 0), (0x10001, 0), (0x10002, 0), (0x10003, 0)] := by
  decide

/-- R48: a transaction is held while the engine is busy, a read of `STATUS` is not. -/
theorem test_busy_stall :
    let s := { State.reset.start 0 with turns := [.host], port := [.read 0x08 4] }
    let u := { State.reset.start 0 with turns := [.host], port := [.read 0x0C 4] }
    step s = .next { s with turns := [], port := [], replies := [.read .okay 0x01] } ∧
      step u = .next { u with turns := [] } :=
  ⟨rfl, rfl⟩

/-! ## Witnesses for the obligations' hypotheses -/

/-- The engine busy with a command word. -/
def busyWith (w : Word) (turns : List Turn) (port : List Transaction) : State :=
  { State.reset.start w with turns := turns, port := port }

theorem test_witness_ReservedWordsRefused :
    256 ≤ (256#32).toNat ∧ (4 < (5#32).toNat ∧ (5#32).toNat < 256) ∧
      (4 < (255#32).toNat ∧ (255#32).toNat < 256) := by decide

theorem test_witness_StepRunsLatchedCommand :
    ((busyWith 1 [] []).status.busy = true ∧ commandOf (busyWith 1 [] []).cmdLatch = some .encode ∧
        (busyWith 1 [] []).turns = []) ∧
      ((busyWith 4 [.engine] []).status.busy = true ∧
        commandOf (busyWith 4 [.engine] []).cmdLatch = some .aspect ∧
        (busyWith 4 [.engine] []).turns = .engine :: []) ∧
      ((busyWith 5 [] []).status.busy = true ∧ 4 < (busyWith 5 [] []).cmdLatch.toNat ∧
        (busyWith 5 [] []).turns = []) ∧
      (busyWith 0x101 [.engine] []).status.busy = true ∧
        4 < (busyWith 0x101 [.engine] []).cmdLatch.toNat ∧
        (busyWith 0x101 [.engine] []).turns = .engine :: [] := by
  decide

theorem test_witness_ReservedWordCompletes : 4 < (5#32).toNat ∧ 4 < (0xFFFFFFFF#32).toNat := by decide

theorem test_witness_EveryCommandEnds :
    (busyWith 3 [] []).status.busy = true ∧ (busyWith 3 [] []).turns = [] := by decide

theorem test_witness_IdleEngineDoesNothing :
    State.reset.status.busy = false ∧ State.reset.turns = [] ∧ State.reset.port = [] ∧
      ∃ rest, { State.reset with turns := [.engine, .host] }.turns = .engine :: rest :=
  ⟨rfl, rfl, rfl, _, rfl⟩

theorem test_witness_ErrorCodesPerCommand :
    (∃ t, exec .nop State.reset = .next t) ∧ (∃ t, exec .encode State.reset = .next t) ∧
      (∃ t, exec .decode State.reset = .next t) ∧ (∃ t, exec .avgcol State.reset = .next t) ∧
      ∃ t, exec .aspect State.reset = .next t :=
  ⟨⟨_, rfl⟩, ⟨_, rfl⟩, ⟨_, rfl⟩, ⟨_, rfl⟩, ⟨_, rfl⟩⟩

/-- The five clauses' boundaries: length 5 and 4, `GEO3` 1, the limit, 0 and above the limit, in both
orientations and with both alpha flags. -/
theorem test_witness_AspectIsRule :
    (∀ s ∈ [hashed [0, 0, 0, 1, 0] 5, hashed [0, 0, 0, 7, 0x80] 5, hashed [0, 0, 0x80, 5, 0] 5],
        Memory.wf s.mem = true ∧ 5 ≤ s.hashLen.toNat ∧ 1 ≤ (s.readByte 0x43).toNat % 8 ∧
          (s.readByte 0x43).toNat % 8 ≤ if (s.readByte 0x42).getLsbD 7 then 5 else 7) ∧
      (Memory.wf (hashed [0, 0, 0, 1, 0] 4).mem = true ∧
        (hashed [0, 0, 0, 1, 0] 4).hashLen.toNat < 5) ∧
      ∀ s ∈ [hashed [0, 0, 0, 0, 0] 5, hashed [0, 0, 0x80, 6, 0] 5],
        Memory.wf s.mem = true ∧ 5 ≤ s.hashLen.toNat ∧ ((s.readByte 0x43).toNat % 8 = 0 ∨
          (if (s.readByte 0x42).getLsbD 7 then 5 else 7) < (s.readByte 0x43).toNat % 8) := by
  decide

/-- Length 5 without and 6 with the alpha flag. -/
theorem test_witness_AvgcolResult :
    ∀ s ∈ [hashed v2aBytes 5, hashed [0x15, 0, 0x82, 3, 0x80, 0x88] 6], Memory.wf s.mem = true ∧
      (if (s.readByte 0x42).getLsbD 7 then 6 else 5) ≤ s.hashLen.toNat := by decide

theorem test_witness_AvgcolErrors :
    ∀ s ∈ [hashed v2aBytes 4, hashed [0x15, 0, 0x82, 3, 0x80, 0x88] 5], Memory.wf s.mem = true ∧
      s.hashLen.toNat < if (s.readByte 0x42).getLsbD 7 then 6 else 5 := by decide

/-- T-MX5: two hashes that differ in the geometry byte and in the AC bytes. -/
theorem test_witness_AvgcolReadsDcOnly :
    let s := hashed [0x15, 0, 0x82, 3, 0x80, 0x88, 0] 23
    let u := hashed [0x15, 0, 0x82, 0, 0x80, 0x88, 0xFF] 23
    s ≠ u ∧ Memory.wf s.mem = true ∧ Memory.wf u.mem = true ∧ s.hashLen = u.hashLen ∧
      (∀ k < 3, s.readByte (0x40 + k) = u.readByte (0x40 + k)) ∧
      ((s.readByte 0x42).getLsbD 7 = true → s.readByte 0x45 = u.readByte 0x45) ∧
      (∃ t, exec .avgcol s = .next t) ∧ ∃ t, exec .avgcol u = .next t :=
  ⟨by decide, by decide, by decide, by decide, by decide, by decide, ⟨_, rfl⟩, ⟨_, rfl⟩⟩

theorem test_witness_HeaderCommandsFrame :
    ∀ i ∈ [Instr.nop, Instr.avgcol, Instr.aspect], ∃ t, exec i (hashed v3Bytes 23) = .next t := by
  intro i hi
  obtain ⟨t, h, -⟩ := exec_completes i (hashed v3Bytes 23)
  exact ⟨t, h⟩

theorem test_witness_EncodeErrors :
    (image 101 1 []).width.toNat > 100 ∧ (image 1 101 []).height.toNat > 100 ∧
      (image 0 1 []).width.toNat = 0 ∧ (image 1 0 []).height.toNat = 0 := by decide

/-- The smallest image, opaque and with alpha. -/
theorem test_witness_EncodeCompletes :
    ∀ alpha : Bool, ∃ (s : State) (w h limit lx ly cntL acTotal : ℕ), Memory.wf s.mem = true ∧
      w = s.width.toNat ∧ h = s.height.toNat ∧ 1 ≤ w ∧ w ≤ 100 ∧ 1 ≤ h ∧ h ≤ 100 ∧
      (alpha = true ↔ ∃ i < w * h, s.readByte (0x10000 + 4 * i + 3) ≠ 255) ∧
      limit = (if alpha then 5 else 7) ∧
      (lx : ℤ) = max 1 (roundReal ((limit * w : ℕ) / (max w h : ℕ))) ∧
      (ly : ℤ) = max 1 (roundReal ((limit * h : ℕ) / (max w h : ℕ))) ∧
      cntL = termCount (max 3 lx) (max 3 ly) ∧
      acTotal = cntL + 5 + 5 + (if alpha then 14 else 0) := by
  intro alpha
  have hr : ∀ limit : ℕ, 1 ≤ limit →
      (limit : ℤ) = max 1 (roundReal ((limit * 1 : ℕ) / (max 1 1 : ℕ))) := by
    intro limit hl
    rw [roundReal_div _ _ (by decide), max_self]
    omega
  cases alpha
  · exact ⟨image 1 1 [⟨0, 0, 0, 255⟩], 1, 1, 7, 7, 7, _, _, by decide, by decide, by decide, by decide,
      by decide, by decide, by decide, by decide, rfl, hr 7 (by decide), hr 7 (by decide), rfl, rfl⟩
  · exact ⟨image 1 1 [⟨0, 0, 0, 254⟩], 1, 1, 5, 5, 5, _, _, by decide, by decide, by decide, by decide,
      by decide, by decide, by decide, by decide, rfl, hr 5 (by decide), hr 5 (by decide), rfl, rfl⟩

/-- The premises that the two statements on ENCODE's channels share. -/
def ChannelPremises (s : State) (w h lx ly : ℕ) (alpha : Bool) (fields : List (Lpqa ℝ))
    (ch : Channels ℝ) : Prop :=
  Memory.wf s.mem = true ∧ w = s.width.toNat ∧ h = s.height.toNat ∧ 1 ≤ w ∧ w ≤ 100 ∧ 1 ≤ h ∧
    h ≤ 100 ∧ alpha = imageHasAlpha w h (s.image (w * h)) ∧ (lx, ly) = geometry w h alpha ∧
    fields = colorTransform realNum (s.image (w * h)) ∧
    ch.l = channelEncode realNum w h (fields.map (·.l)) (max 3 lx) (max 3 ly) ∧
    ch.p = channelEncode realNum w h (fields.map (·.p)) 3 3 ∧
    ch.q = channelEncode realNum w h (fields.map (·.q)) 3 3 ∧
    (alpha = true → ch.a = channelEncode realNum w h (fields.map (·.a)) 5 5)

/-- The largest image, and the smallest one with and without alpha. -/
theorem test_witness_EncodeHeaderFields :
    (∃ (s t : State) (lx ly : ℕ) (alpha : Bool) (fields : List (Lpqa ℝ)) (ch : Channels ℝ),
      ChannelPremises s 100 100 lx ly alpha fields ch ∧ exec .encode s = .next t) ∧
    ∀ alpha : Bool, ∃ (s t : State) (lx ly : ℕ) (fields : List (Lpqa ℝ)) (ch : Channels ℝ),
      ChannelPremises s 1 1 lx ly alpha fields ch ∧ exec .encode s = .next t := by
  refine ⟨⟨image 100 100 [], _, _, _, _, _, encodeChannels realNum 100 100 _ _ _, ⟨rfl, rfl, rfl,
    by decide, by decide, by decide, by decide, rfl, rfl, rfl, rfl, rfl, rfl, fun _ => rfl⟩,
    exec_encode _⟩, fun alpha => ?_⟩
  cases alpha
  · exact ⟨image 1 1 [⟨0, 0, 0, 255⟩], _, _, _, _, encodeChannels realNum 1 1 _ _ _, ⟨by decide, rfl,
      rfl, by decide, by decide, by decide, by decide, by decide, rfl, rfl, rfl, rfl, rfl, fun _ => rfl⟩,
      exec_encode _⟩
  · exact ⟨image 1 1 [⟨0, 0, 0, 254⟩], _, _, _, _, encodeChannels realNum 1 1 _ _ _, ⟨by decide, rfl,
      rfl, by decide, by decide, by decide, by decide, by decide, rfl, rfl, rfl, rfl, rfl, fun _ => rfl⟩,
      exec_encode _⟩

/-- The smallest image with alpha: a first nibble, and slots past the last one. -/
theorem test_witness_EncodeNibbleStream :
    ∃ (s t : State) (w h lx ly start : ℕ) (alpha : Bool) (fields : List (Lpqa ℝ)) (ch : Channels ℝ)
      (vs : List ℝ), ChannelPremises s w h lx ly alpha fields ch ∧
      vs = ch.l.ac ++ ch.p.ac ++ ch.q.ac ++ (if alpha then ch.a.ac else []) ∧
      start = (if alpha then 6 else 5) ∧ exec .encode s = .next t ∧ 0 < vs.length ∧
      vs.length ≤ 38 ∧ start + 38 / 2 < 32 := by
  have ha : imageHasAlpha 1 1 ((image 1 1 [⟨0, 0, 0, 254⟩]).image (1 * 1)) = true := by decide
  have hg : (5, 5) = geometry 1 1 true := by decide
  refine ⟨image 1 1 [⟨0, 0, 0, 254⟩], _, 1, 1, 5, 5, _, true, _, encodeChannels realNum 1 1 _ 5 5, _,
    ⟨by decide, rfl, rfl, by decide, by decide, by decide, by decide, ha.symm, hg, rfl, rfl, rfl, rfl,
      fun _ => rfl⟩, rfl, rfl, exec_encode _, ?_, ?_, by decide⟩ <;>
  · simp only [List.length_append, if_true]
    have hl : ∀ (f : List ℝ) (nx ny : ℕ),
        (channelEncode realNum 1 1 f nx ny).ac.length = termCount nx ny := by
      intro f nx ny
      unfold channelEncode normalise
      simp only
      split <;> simp [termCount]
    have h1 := hl ((colorTransform realNum ((image 1 1 [⟨0, 0, 0, 254⟩]).image (1 * 1))).map (·.l)) 5 5
    have h2 := hl ((colorTransform realNum ((image 1 1 [⟨0, 0, 0, 254⟩]).image (1 * 1))).map (·.p)) 3 3
    have h3 := hl ((colorTransform realNum ((image 1 1 [⟨0, 0, 0, 254⟩]).image (1 * 1))).map (·.q)) 3 3
    have h4 := hl ((colorTransform realNum ((image 1 1 [⟨0, 0, 0, 254⟩]).image (1 * 1))).map (·.a)) 5 5
    have c5 : termCount 5 5 = 14 := by decide
    have c3 : termCount 3 3 = 5 := by decide
    simp only [encodeChannels, minL, pqN, aN, Nat.reduceLeDiff, max_eq_right]
    omega

theorem test_witness_EncodeFrame : ∃ t, exec .encode (image 2 2 []) = .next t := ⟨_, exec_encode _⟩

/-- Two images that differ in the colour of a transparent pixel (T-CT2). -/
theorem test_witness_EncodeIsPure :
    let s := image 1 1 [⟨0, 0, 0, 0⟩]
    let u := image 1 1 [⟨77, 88, 99, 0⟩]
    s ≠ u ∧ Memory.wf s.mem = true ∧ Memory.wf u.mem = true ∧ s.width = u.width ∧
      s.height = u.height ∧
      (∀ i < s.width.toNat * s.height.toNat,
        s.readByte (0x10000 + 4 * i + 3) = u.readByte (0x10000 + 4 * i + 3) ∧
        (s.readByte (0x10000 + 4 * i + 3) ≠ 0 →
          ∀ k < 3, s.readByte (0x10000 + 4 * i + k) = u.readByte (0x10000 + 4 * i + k))) ∧
      (∃ t, exec .encode s = .next t) ∧ ∃ t, exec .encode u = .next t :=
  ⟨by decide, by decide, by decide, by decide, by decide, by decide, ⟨_, exec_encode _⟩,
    ⟨_, exec_encode _⟩⟩

/-- The three error clauses of DECODE: length 4; `GEO3` 0 and above the limit at length 5; one byte
short of the need (17 for `GEO3 = 1`, 25 for the largest). -/
theorem test_witness_DecodeErrors :
    let need := fun s : State =>
      hashLenFor (hashShape s.hash).hasAlpha (hashShape s.hash).lx (hashShape s.hash).ly
    (hashed [0, 0, 0, 1, 0] 4).hashLen.toNat < 5 ∧
      (∀ s ∈ [hashed [0, 0, 0, 0, 0] 5, hashed [0, 0, 0x80, 6, 0] 5],
        Memory.wf s.mem = true ∧ 5 ≤ s.hashLen.toNat ∧ ((s.readByte 0x43).toNat % 8 = 0 ∨
          (if (s.readByte 0x42).getLsbD 7 then 5 else 7) < (s.readByte 0x43).toNat % 8)) ∧
      ∀ s ∈ [hashed [0, 0, 0, 1, 0] 16, hashed [0, 0, 0x80, 5, 0x80] 24],
        Memory.wf s.mem = true ∧ 5 ≤ s.hashLen.toNat ∧ s.hashLen.toNat + 1 = need s := by
  decide

/-- The shortest hash (V9's geometry) and the longest (V7's), at exactly the length they need. -/
theorem test_witness_DecodeCompletes :
    (∃ (s : State) (lx ly cntL acTotal short : ℕ), Memory.wf s.mem = true ∧
      false = (s.readByte 0x42).getLsbD 7 ∧ true = (s.readByte 0x44).getLsbD 7 ∧
      1 = (s.readByte 0x43).toNat % 8 ∧ lx = 7 ∧ ly = 1 ∧ cntL = termCount (max 3 lx) (max 3 ly) ∧
      acTotal = cntL + 10 ∧ 5 + ceilDiv acTotal 2 ≤ s.hashLen.toNat ∧
      (short : ℤ) = roundReal (32 * (1 : ℕ) / (7 : ℕ))) ∧
    ∃ (s : State) (lx ly cntL acTotal short : ℕ), Memory.wf s.mem = true ∧
      true = (s.readByte 0x42).getLsbD 7 ∧ false = (s.readByte 0x44).getLsbD 7 ∧
      5 = (s.readByte 0x43).toNat % 8 ∧ lx = 5 ∧ ly = 5 ∧ cntL = termCount (max 3 lx) (max 3 ly) ∧
      acTotal = cntL + 10 + 14 ∧ 6 + ceilDiv acTotal 2 ≤ s.hashLen.toNat ∧
      (short : ℤ) = roundReal (32 * (5 : ℕ) / (5 : ℕ)) := by
  have h1 : (5 : ℤ) = roundReal (32 * (1 : ℕ) / (7 : ℕ)) := by
    have h := roundReal_div (32 * 1) 7 (by decide)
    push_cast at h ⊢
    norm_num at h ⊢
    exact h.symm
  have h2 : (32 : ℤ) = roundReal (32 * (5 : ℕ) / (5 : ℕ)) := by
    have h := roundReal_div (32 * 5) 5 (by decide)
    push_cast at h ⊢
    norm_num at h ⊢
    exact h.symm
  refine ⟨⟨hashed [0, 0, 0, 1, 0x80] 17, 7, 1, 14, 24, 5, ?_⟩,
    ⟨hashed [0, 8, 0x82, 5, 0] 25, 5, 5, 14, 38, 32, ?_⟩⟩
  · exact ⟨by decide, by decide, by decide, by decide, rfl, rfl, by decide, rfl, by decide, h1⟩
  · exact ⟨by decide, by decide, by decide, by decide, rfl, rfl, by decide, rfl, by decide, h2⟩

/-- V3's hash: the last pixel of a 32 by 19 image, with an alpha channel. -/
theorem test_witness_DecodePixelIsRule :
    ∃ t, exec .decode (hashed v3Bytes 23) = .next t ∧ t.status.err = .ok ∧
      Memory.wf (hashed v3Bytes 23).mem = true ∧ 31 < t.outDim.w.toNat ∧ 18 < t.outDim.h.toNat :=
  ⟨_, exec_decode _, by decide, by decide, by decide, by decide⟩

theorem test_witness_DecodeFrame :
    (∃ t, exec .decode (hashed v3Bytes 23) = .next t ∧ t.status.err = .ok) ∧
      ∃ t, exec .decode State.reset = .next t ∧ t.status.err ≠ .ok :=
  ⟨⟨_, exec_decode _, by decide⟩, ⟨_, exec_decode _, by decide⟩⟩

/-- Hashes of different lengths that agree below the need: an even number of nibbles (24), and an odd
one (37), where the last byte differs in its pad nibble. -/
theorem test_witness_DecodeIgnoresTrailingBytes :
    ∀ su ∈ [(hashed [0, 0, 0, 1, 0] 17, hashed ([0, 0, 0, 1, 0] ++ List.replicate 12 0 ++ [9]) 32),
        (hashed [0, 0, 0, 7, 0] 24, hashed ([0, 0, 0, 7, 0] ++ List.replicate 18 0 ++ [0xA0]) 25)],
      ∃ (t t' : State) (need : ℕ), Memory.wf su.1.mem = true ∧ Memory.wf su.2.mem = true ∧
        exec .decode su.1 = .next t ∧ exec .decode su.2 = .next t' ∧ t.status.err = .ok ∧
        t'.status.err = .ok ∧
        need = (if t.geom.hasAlpha then 6 else 5) + ceilDiv t.counts.acTotal.toNat 2 ∧
        (∀ k < need - 1, su.1.readByte (0x40 + k) = su.2.readByte (0x40 + k)) ∧
        (su.1.readByte (0x40 + (need - 1))).toNat %
            (if t.counts.acTotal.toNat % 2 = 1 then 16 else 256) =
          (su.2.readByte (0x40 + (need - 1))).toNat %
            (if t.counts.acTotal.toNat % 2 = 1 then 16 else 256) := by
  intro su hsu
  simp only [List.mem_cons, List.not_mem_nil, or_false] at hsu
  rcases hsu with rfl | rfl
  · exact ⟨_, _, 17, by decide, by decide, exec_decode _, exec_decode _, by decide, by decide,
      by decide, by decide, by decide⟩
  · exact ⟨_, _, 24, by decide, by decide, exec_decode _, exec_decode _, by decide, by decide,
      by decide, by decide, by decide⟩

theorem test_witness_DecodeOpaqueWithoutAlpha :
    ∃ t, Memory.wf (hashed v1Bytes 24).mem = true ∧ exec .decode (hashed v1Bytes 24) = .next t ∧
      t.status.err = .ok ∧ ((hashed v1Bytes 24).readByte 0x42).getLsbD 7 = false ∧
      1023 < t.outDim.w.toNat * t.outDim.h.toNat :=
  ⟨_, by decide, exec_decode _, by decide, by decide, by decide⟩

/-- V2a's hash (all scales 0), and V7's with the alpha flag. -/
theorem test_witness_FlatHashDecodesToAverage :
    ∀ s ∈ [hashed v2aBytes 19, hashed [0, 8, 0x82, 5, 0] 25], ∃ t u, Memory.wf s.mem = true ∧
      exec .decode s = .next t ∧ exec .avgcol s = .next u ∧ t.status.err = .ok ∧
      (s.readByte 0x42).toNat / 4 % 32 = 0 ∧ (s.readByte 0x43).toNat / 8 = 0 ∧
      (s.readByte 0x44).toNat % 128 = 0 ∧
      ((s.readByte 0x42).getLsbD 7 = true → (s.readByte 0x45).toNat / 16 = 0) ∧
      575 < t.outDim.w.toNat * t.outDim.h.toNat := by
  intro s hs
  simp only [List.mem_cons, List.not_mem_nil, or_false] at hs
  rcases hs with rfl | rfl <;>
    exact ⟨_, _, by decide, exec_decode _, exec_avgcol _, by decide, by decide, by decide, by decide,
      by decide, by decide⟩

theorem test_witness_EncodeThenDecodeSucceeds :
    ∃ t, Memory.wf (image 100 1 []).mem = true ∧ exec .encode (image 100 1 []) = .next t ∧
      t.status.err = .ok :=
  ⟨_, by decide, exec_encode _, by decide⟩

/-- T-CT2's transparent pixel and V1's red one: both branches of the average. -/
theorem test_witness_ColorTransformIsRule :
    ∀ ps ∈ [[(⟨77, 88, 99, 0⟩ : Pixel)], [⟨255, 0, 0, 255⟩]],
      ∃ (al : Pixel → ℝ) (mean : (Pixel → Byte) → ℝ) (mix : (Pixel → Byte) → Pixel → ℝ) (tot : ℝ),
        (∀ p, al p = p.a.toNat / 255) ∧ tot = (ps.map al).sum ∧
        (∀ c, mean c = if 0 < tot
          then (ps.map fun p => al p * al p * (c p).toNat / 255).sum / tot
          else (ps.map fun p => al p * al p * (c p).toNat / 255).sum) ∧
        ∀ c p, mix c p = mean c * (1 - al p) + al p / 255 * (c p).toNat :=
  fun _ _ => ⟨_, _, _, _, fun _ => rfl, rfl, fun _ => rfl, fun _ _ => rfl⟩

theorem test_witness_ColorRanges : ∃ v, v ∈ colorTransform realNum [⟨255, 0, 0, 255⟩] :=
  ⟨_, List.mem_cons_self ..⟩

theorem test_witness_GeometryIsRule :
    ∀ alpha : Bool, ∃ w h limit m : ℕ, 1 ≤ w ∧ 1 ≤ h ∧ limit = (if alpha then 5 else 7) ∧
      m = max w h ∧ h ≤ w ∧ w ≤ h :=
  fun _ => ⟨1, 1, _, _, le_refl _, le_refl _, rfl, rfl, le_refl _, le_refl _⟩

theorem test_witness_ProjectionIsDct : [(1 : ℝ), 1, 0, 0, 1, 1, 0, 0].length = 4 * 2 := rfl

/-- T-DCT5's field. -/
theorem test_witness_ChannelEncodeIsRule :
    ∃ (raw : List ℝ) (ch : Channel ℝ), 1 ≤ 1 ∧ [(1 : ℝ)].length = 1 * 1 ∧
      ch = channelEncode realNum 1 1 [1] 3 3 ∧
      raw = (terms 3 3).map
        (fun c => dctForward 1 1 (fun x y => [(1 : ℝ)].getD (x + y * 1) 0) c.1 c.2) ∧
      ∃ v, v ∈ raw :=
  ⟨_, _, le_refl _, rfl, rfl, rfl, _, List.mem_map.mpr ⟨(1, 0), by decide, rfl⟩⟩

theorem test_witness_ConstantFieldHasNoTerms :
    4 ≤ 4 ∧ 7 ≤ 7 ∧ ∃ v, v ∈ (channelEncode realNum 4 4 (List.replicate (4 * 4) 1) 7 7).ac := by
  refine ⟨le_refl _, le_refl _, ?_⟩
  have hl : (channelEncode realNum 4 4 (List.replicate (4 * 4) 1) 7 7).ac.length = termCount 7 7 := by
    unfold channelEncode normalise
    simp only
    split <;> simp [termCount]
  have h27 : termCount 7 7 = 27 := by decide
  exact List.exists_mem_of_length_pos (by omega)

/-- A stream that begins in the middle of a byte and ends in the last one. -/
theorem test_witness_NibblesReadBack :
    (∀ d ∈ [8, 0, 15], d < 16) ∧
      5 + (51 + [8, 0, 15].length + 1) / 2 ≤ (List.replicate 32 (0 : Byte)).length ∧
      ∀ j < [8, 0, 15].length, nibbleAt (List.replicate 32 0) 5 (51 + j) = 0 := by
  decide

theorem test_witness_AcQuantiserCutPoints :
    (0 : ℝ) ≤ 0 ∧ (1 : ℝ) ≤ 1 ∧ (1 ≤ 1 ∧ 14 ≤ 14) ∧ (0 : ℝ) ≤ 1 / 30 ∧ (1 : ℝ) / 30 ≤ 1 := by norm_num

theorem test_witness_AcDequantiserValues : (0 : ℝ) ≤ 0 ∧ (0 : ℝ) < 1 ∧ 0 ≤ 15 ∧ 15 ≤ 15 := by norm_num

theorem test_witness_HeaderPackParse :
    ∃ (f : HeaderFields) (rest b : List Byte), f.lDc < 64 ∧ f.pDc < 64 ∧ f.qDc < 64 ∧
      f.lScale < 32 ∧ f.geo3 < 8 ∧ f.pScale < 64 ∧ f.qScale < 64 ∧ f.aDc < 16 ∧ f.aScale < 16 ∧
      b = f.toBytes ++ rest ∧ f.hasAlpha = true :=
  ⟨⟨63, 63, 63, 31, true, 7, 63, 63, true, 15, 15⟩, [0xFF], _, by decide, by decide, by decide,
    by decide, by decide, by decide, by decide, by decide, by decide, rfl, rfl⟩

theorem test_witness_HeaderFieldsFit :
    ∃ (ps : List Pixel) (ch : Channels ℝ), 1 ≤ 1 ∧ ps.length = 1 * 1 ∧
      ch = encodeChannels realNum 1 1 ps 7 7 :=
  ⟨[⟨255, 0, 0, 255⟩], _, le_refl _, rfl, rfl⟩

theorem test_witness_OutputSizeIsRule :
    ∀ alpha landscape : Bool, ∃ (lx ly limit : ℕ) (ratio : ℝ), limit = (if alpha then 5 else 7) ∧
      1 ≤ limit ∧ limit ≤ limit ∧ lx = (if landscape then limit else limit) ∧
      ly = (if landscape then limit else limit) ∧ ratio = lx / ly :=
  fun alpha _ => ⟨_, _, _, _, rfl, by cases alpha <;> decide, le_refl _, rfl, rfl, rfl⟩

theorem test_witness_MisalignedRefused :
    (1 ≠ 4) ∧ (0x41#20).toNat % 4 ≠ 0 ∧ (0xFFFFF#20).toNat % 4 ≠ 0 := by decide

/-- Both ends of every unmapped and read-only range. -/
theorem test_witness_UnmappedAndReadOnly :
    (∀ n ∈ [0x2C, 0x3C, 0x60, 0xFFC, 0x2000, 0xFFFC, 0x19C40, 0xFFFFC], n % 4 = 0 ∧ n < 2 ^ 20 ∧
      ((0x2C ≤ n ∧ n < 0x40) ∨ (0x60 ≤ n ∧ n < 0x1000) ∨ (0x2000 ≤ n ∧ n < 0x10000) ∨ 0x19C40 ≤ n)) ∧
    (∀ n ∈ [0x00, 0x08, 0x18, 0x28, 0x1000, 0x1FFC], n % 4 = 0 ∧ n < 2 ^ 20 ∧
      (n = 0x00 ∨ n = 0x08 ∨ (0x18 ≤ n ∧ n ≤ 0x28) ∨ (0x1000 ≤ n ∧ n < 0x2000))) ∧
    (0x04#20).toNat % 4 = 0 ∧ (0x04#20).toNat = 0x04 := by
  decide

/-- Both ends of the three buffers. -/
theorem test_witness_BufferWords :
    (∀ n ∈ [0x40, 0x5C, 0x10000, 0x19C3C], n % 4 = 0 ∧ n < 2 ^ 20 ∧
      ((0x40 ≤ n ∧ n < 0x60) ∨ (0x10000 ≤ n ∧ n < 0x19C40))) ∧
    ∀ n ∈ [0x1000, 0x1FFC], n % 4 = 0 ∧ n < 2 ^ 20 ∧ 0x1000 ≤ n ∧ n < 0x2000 := by
  decide

theorem test_witness_PixelWords :
    1023 < 1024 ∧ Memory.wf State.reset.mem = true ∧ 9999 < 10000 ∧ 10000 ≤ 10000 := by decide

theorem test_witness_CmdWriteStartsCommand :
    ({ State.reset with port := [.write 0x04 4 1, .read 0x08 4] }.status.busy = false ∧
        { State.reset with port := [.write 0x04 4 1, .read 0x08 4] }.port =
          .write 0x04 4 1 :: [.read 0x08 4]) ∧
      (busyWith 1 [] [.write 0x04 4 2]).status.busy = true ∧
        (busyWith 1 [] [.write 0x04 4 2]).port = .write 0x04 4 2 :: [] :=
  ⟨⟨rfl, rfl⟩, rfl, rfl⟩

/-- A `STATUS` read, another read, and a narrow read at the address of `STATUS`. -/
theorem test_witness_BusyStall :
    (∀ tr ∈ [Transaction.read 0x08 4, .read 0x0C 4, .read 0x08 1],
      (busyWith 0 [] [tr]).status.busy = true ∧ (busyWith 0 [] [tr]).port = tr :: []) ∧
      Transaction.read 0x0C 4 ≠ .read 0x08 4 ∧ Transaction.read 0x08 1 ≠ .read 0x08 4 := by
  decide

theorem test_witness_TransactionsCompleteInOrder :
    ∀ turns ∈ [[], [Turn.host]],
      { State.reset with turns := turns, port := [.read 0x1000 4, .write 0x0C 4 7] }.status.busy =
        false ∧
      { State.reset with turns := turns, port := [.read 0x1000 4, .write 0x0C 4 7] }.port =
        .read 0x1000 4 :: [.write 0x0C 4 7] :=
  fun _ _ => ⟨rfl, rfl⟩

/-- A held transaction, a `STATUS` read that is not held, and an empty port. -/
theorem test_witness_ResetInputAbandons : ∀ drop : Bool,
    (∀ port : List Transaction, (busyWith 1 [.reset drop] port).turns = [.reset drop] ∧
      (busyWith 1 [.reset drop] port).port = port) ∧
    (busyWith 1 [.reset drop] []).held (.read 0x0C 4) = true ∧
    (busyWith 1 [.reset drop] []).held (.read 0x08 4) = false :=
  fun _ => ⟨fun _ => ⟨rfl, rfl⟩, rfl, rfl⟩

/-- A state a run reaches: the reset state with an image, and its step. -/
theorem test_witness_StepKeepsInvariant : (image 1 1 [⟨1, 2, 3, 4⟩]).Inv ∧
    ∃ t, step (image 1 1 [⟨1, 2, 3, 4⟩]) = .next t :=
  ⟨⟨by decide, by decide, by decide, .inl ⟨rfl, rfl⟩, .inl rfl, .inl rfl⟩, _, rfl⟩

end Sys2Proof.Tests
end

section
/-! The commands with scalars, on the exact scalars of the machine and on the real numbers (R11): the
unit lemmas of Laws/Reference.lean lifted to whole states. -/

namespace Sys2Proof.Machine

/-- ENCODE forms scalars only after its checks, so its image is not empty and the divisor `w * h` of
the projection (R89) is not zero. -/
theorem encodeWith_num_eq_realNum (s : State) : encodeWith Exact.num s = encodeWith realNum s := by
  unfold encodeWith
  simp only
  split
  case h_1 code _ => rfl
  case h_2 hcheck =>
    obtain ⟨hw, -, hh, -⟩ := encodeCheck_eq_none.mp hcheck
    have hwh : s.width.toNat * s.height.toNat ≠ 0 := Nat.mul_ne_zero (by omega) (by omega)
    rw [encodeImage_eq hwh]

theorem decodeWith_num_eq_realNum (s : State) : decodeWith Exact.num s = decodeWith realNum s := by
  unfold decodeWith
  split
  case h_1 code _ => rfl
  case h_2 sh _ => rw [decodeImage_eq]

theorem avgcolWith_num_eq_realNum (s : State) : avgcolWith Exact.num s = avgcolWith realNum s := by
  unfold avgcolWith
  rw [averageColor_eq]

/-- Settles O17: the check leaves a non-empty image, whose hash is the one over the real numbers. -/
theorem encodeIsReference : Obligations.EncodeIsReference := by
  intro s
  rw [exec_encode, encodeWith_num_eq_realNum]

/-- Settles O24: the decoded image and the average colour are those over the real numbers. -/
theorem decodeIsReference : Obligations.DecodeIsReference := by
  intro s
  rw [exec_decode, exec_avgcol, decodeWith_num_eq_realNum, avgcolWith_num_eq_realNum]
  exact ⟨rfl, rfl⟩

end Sys2Proof.Machine
end

section
/-! The registers, the reset state and the invariant (10_state.md): what the registers store and read
as, what a transaction leaves alone, and the invariant of R39 through every operation, move and step. -/

namespace Sys2Proof.Machine

/-! ## What registers store -/

/-- A write to `WIDTH` or `HEIGHT` stores bits 15:0 (R23). -/
theorem dimOfWord_eq (v : Word) : dimOfWord v = BitVec.ofNat 16 v.toNat := by
  rw [BitVec.ofNat_toNat, BitVec.setWidth_eq_extractLsb' (by omega)]
  rfl

theorem hashLenOfWord_eq (v : Word) :
    hashLenOfWord v = if 32 < v.toNat then 32 else BitVec.ofNat 6 v.toNat := by
  unfold hashLenOfWord hashCap
  split
  next h => rw [min_eq_right h.le]; rfl
  next h => rw [min_eq_left (not_lt.mp h)]

/-- `HASH_LEN` saturates at 32 (R24). -/
theorem hashLenOfWord_toNat (v : Word) : (hashLenOfWord v).toNat = min v.toNat 32 :=
  Nat.mod_eq_of_lt (by unfold hashCap; omega)

/-- Settles O48: each offset is the register's, and what is stored is the word cut to the field. -/
theorem registerWritesStore : Obligations.RegisterWritesStore := by
  intro s v
  rw [← dimOfWord_eq, ← hashLenOfWord_eq, BitVec.ofNat_toNat, BitVec.ofNat_toNat, BitVec.ofNat_toNat]
  exact ⟨rfl, rfl, rfl, rfl, rfl, rfl⟩

/-! ## What registers read as

The words of section 3 of 10_state.md as sums of their fields. -/

theorem toNat_append_eq_add {m n : ℕ} (x : BitVec m) (y : BitVec n) :
    (x ++ y).toNat = 2 ^ n * x.toNat + y.toNat := by
  rw [BitVec.toNat_append, shiftLeft_or_eq _ _ n y.isLt]

theorem Status.toWord_toNat (st : Status) : st.toWord.toNat =
    st.busy.toNat + 2 * st.done.toNat + 2 ^ 4 * st.err.toBits.toNat := by
  unfold Status.toWord
  simp only [toNat_append_eq_add, BitVec.toNat_ofBool, BitVec.toNat_ofNat]
  omega

theorem Geom.toWord_toNat (g : Geom) : g.toWord.toNat =
    g.lx.toNat + 2 ^ 4 * g.ly.toNat + 2 ^ 8 * g.hasAlpha.toNat + 2 ^ 9 * g.isLandscape.toNat
      + 2 ^ 12 * g.nxL.toNat + 2 ^ 16 * g.nyL.toNat := by
  unfold Geom.toWord
  simp only [toNat_append_eq_add, BitVec.toNat_ofBool, BitVec.toNat_ofNat]
  omega

theorem Counts.toWord_toNat (c : Counts) :
    c.toWord.toNat = c.acTotal.toNat + 2 ^ 8 * c.cntL.toNat := by
  unfold Counts.toWord
  simp only [toNat_append_eq_add, BitVec.toNat_ofNat]
  omega

theorem OutDim.toWord_toNat (d : OutDim) : d.toWord.toNat = d.w.toNat + 2 ^ 8 * d.h.toNat := by
  unfold OutDim.toWord
  simp only [toNat_append_eq_add, BitVec.toNat_ofNat]
  omega

theorem Aspect.toWord_toNat (x : Aspect) : x.toWord.toNat = x.lx.toNat + 2 ^ 4 * x.ly.toNat := by
  unfold Aspect.toWord
  simp only [toNat_append_eq_add, BitVec.toNat_ofNat]
  omega

/-- A pixel word is the little-endian word of the pixel's bytes (R43). -/
theorem Pixel.toWord_toNat (p : Pixel) : p.toWord.toNat =
    p.r.toNat + 2 ^ 8 * p.g.toNat + 2 ^ 16 * p.b.toNat + 2 ^ 24 * p.a.toNat :=
  wordOfBytes_toNat p.r p.g p.b p.a

/-- Settles O49: each read answers the register's word, whose fields the lemmas above give. -/
theorem registerWords : Obligations.RegisterWords := by
  intro s
  refine ⟨s.status.toWord, s.geom.toWord, s.counts.toWord, s.outDim.toWord, s.avgRgba.toWord,
    s.aspect.toWord, rfl, rfl, rfl, rfl, rfl, rfl, rfl, ?_, s.geom.toWord_toNat,
    s.counts.toWord_toNat, s.outDim.toWord_toNat, s.avgRgba.toWord_toNat, s.aspect.toWord_toNat⟩
  rw [s.status.toWord_toNat]
  cases s.status.err <;> rfl

/-! ## What a transaction leaves alone -/

/-- Reads have no side effect (R47). -/
theorem State.transact_read_state (s : State) (a : BitVec 20) (n : ℕ) :
    (s.transact (.read a n)).2 = s := by
  unfold State.transact
  by_cases h : aligned a n = true <;> simp [h]

/-- No transaction writes a result register or the outcome code (R16, R46). -/
theorem State.transact_results (s : State) (tr : Transaction) :
    (s.transact tr).2.geom = s.geom ∧ (s.transact tr).2.counts = s.counts ∧
      (s.transact tr).2.outDim = s.outDim ∧ (s.transact tr).2.avgRgba = s.avgRgba ∧
      (s.transact tr).2.aspect = s.aspect ∧ (s.transact tr).2.status.err = s.status.err := by
  rcases State.transact_cases s tr with
    e | ⟨v, -, e⟩ | ⟨v, e⟩ | ⟨v, e⟩ | ⟨v, e⟩ | ⟨a, v, -, -, e⟩ <;> rw [e] <;>
    exact ⟨rfl, rfl, rfl, rfl, rfl, rfl⟩

/-- The words the host stores lie in `HASH` or `PIX`, so a byte of `OUT` reads as before (R32). -/
theorem State.transact_readByte_out (s : State) (tr : Transaction) {k : ℕ} (h1 : 0x1000 ≤ k)
    (h2 : k < 0x2000) : (s.transact tr).2.readByte k = s.readByte k := by
  rcases State.transact_cases s tr with
    e | ⟨v, -, e⟩ | ⟨v, e⟩ | ⟨v, e⟩ | ⟨v, e⟩ | ⟨a, v, -, ha, e⟩ <;> rw [e]
  · exact State.start_readByte s v k
  · exact State.setWidth_readByte s _ k
  · exact State.setHeight_readByte s _ k
  · exact State.setHashLen_readByte s _ k
  · exact State.readByte_writeWord_of_not_mem s v (by omega)

/-- Settles O55, by what a transaction can do: every store is to a register the host owns, or outside
`OUT`. -/
theorem hostCannotWriteResults : Obligations.HostCannotWriteResults := by
  intro s tr
  obtain ⟨hgeom, hcounts, houtDim, havgRgba, haspect, herr⟩ := s.transact_results tr
  refine ⟨hgeom, hcounts, houtDim, havgRgba, haspect, herr,
    fun k h1 h2 => s.transact_readByte_out tr h1 h2, ?_⟩
  rintro a n rfl
  exact s.transact_read_state a n

/-! ## Reset -/

/-- Nothing is listed at reset: a byte of `HASH` is zero, any other buffer byte is the free value of
reset number 0 (R38). -/
theorem State.reset_readByte (a : ℕ) :
    State.reset.readByte a = if Memory.inHash a then 0 else Config.resetByte 0 a := by
  show Memory.unlistedByte 0 a = _
  unfold Memory.unlistedByte Memory.unlisted
  cases Memory.inHash a <;> rfl

/-- Settles O56: the registers by evaluation, the buffers by where the offset lies. -/
theorem resetValues : Obligations.ResetValues := by
  refine ⟨rfl, rfl, rfl, rfl, rfl, rfl, rfl, rfl, rfl, fun k hk => ?_, rfl, fun k hk => ?_⟩
  · rw [State.reset_readByte, if_pos ((Memory.inHash_iff _).mpr (by omega))]
  · rw [State.reset_readByte, if_neg (by rw [Memory.inHash_iff]; omega)]

/-! ## The invariant through each update -/

/-- The offsets of the three buffers (R41). -/
theorem Memory.isBuffer_iff (a : ℕ) : Memory.isBuffer a = true ↔
    (0x40 ≤ a ∧ a < 0x60) ∨ (0x1000 ≤ a ∧ a < 0x2000) ∨ (0x10000 ≤ a ∧ a < 0x19C40) := by
  rw [Memory.isBuffer, Bool.or_eq_true, Bool.or_eq_true, Memory.inHash_iff, Memory.inOut_iff,
    Memory.inPix_iff, or_assoc]

/-! Each update keeps `State.Inv` when what it writes meets the invariant's clause for that field. -/

section
variable {s : State}

theorem State.Inv.writeBytes (h : s.Inv) {a : ℕ} {bs : List Byte}
    (hb : ∀ x, a ≤ x → x < a + bs.length → Memory.isBuffer x = true) : (s.writeBytes a bs).Inv :=
  { h with mem_wf := Memory.wf_writeBytes h.mem_wf hb }

theorem State.Inv.setHashLen (h : s.Inv) {n : BitVec 6} (hn : n.toNat ≤ hashCap) :
    (s.setHashLen n).Inv :=
  { h with hashLen_le := hn }

theorem State.Inv.setGeometry (h : s.Inv) {g : Geom} {c : Counts}
    (hg : (g = .zero ∧ c = .zero) ∨ GeometryConsistent g c) : (s.setGeometry g c).Inv :=
  { h with geometry_ok := hg }

theorem State.Inv.setOutDim (h : s.Inv) {d : OutDim} (hd : d = .zero ∨ OutDimConsistent d) :
    (s.setOutDim d).Inv :=
  { h with outDim_ok := hd }

theorem State.Inv.setAvgRgba (h : s.Inv) (p : Pixel) : (s.setAvgRgba p).Inv :=
  { h with }

theorem State.Inv.setAspect (h : s.Inv) {x : Aspect}
    (hx : x = .zero ∨ (1 ≤ x.lx.toNat ∧ 1 ≤ x.ly.toNat)) : (s.setAspect x).Inv :=
  { h with aspect_ok := hx }

theorem State.Inv.setWidth (h : s.Inv) (v : BitVec 16) : (s.setWidth v).Inv :=
  { h with }

theorem State.Inv.setHeight (h : s.Inv) (v : BitVec 16) : (s.setHeight v).Inv :=
  { h with }

theorem State.Inv.start (h : s.Inv) (w : Word) : (s.start w).Inv :=
  { h with status_ok := by simp }

theorem State.Inv.complete (h : s.Inv) (c : ErrCode) : (s.complete c).Inv :=
  { h with status_ok := by simp }

/-- The invariant says nothing of the schedule and of the host's side of the port. -/
theorem State.Inv.withAgents (h : s.Inv) (ts : List Turn) (ps : List Transaction) (rs : List Reply) :
    State.Inv { s with turns := ts, port := ps, replies := rs } :=
  { h with }

end

/-! ## Geometry and sizes that the commands write -/

/-- The fields of `GEOM` and `COUNTS` hold their values whole, so sides within 1 to 7 whose longer one
is the limit give registers that meet R39. -/
theorem geometryConsistent_of_sides {lx ly : ℕ} {hasAlpha isLandscape : Bool}
    (hx : 1 ≤ lx ∧ lx ≤ 7) (hy : 1 ≤ ly ∧ ly ≤ 7)
    (hlimit : (if isLandscape then lx else ly) = limitOf hasAlpha) :
    GeometryConsistent (geomOf lx ly hasAlpha isLandscape)
      (countsOf (acTotalOf hasAlpha (termCount (max minL lx) (max minL ly)))
        (termCount (max minL lx) (max minL ly))) := by
  have hlx : (geomOf lx ly hasAlpha isLandscape).lx.toNat = lx := Nat.mod_eq_of_lt (by omega)
  have hly : (geomOf lx ly hasAlpha isLandscape).ly.toNat = ly := Nat.mod_eq_of_lt (by omega)
  have hmx : max minL lx ≤ 7 := max_le (by decide) hx.2
  have hmy : max minL ly ≤ 7 := max_le (by decide) hy.2
  have hnx : (geomOf lx ly hasAlpha isLandscape).nxL.toNat = max minL lx :=
    Nat.mod_eq_of_lt (by omega)
  have hny : (geomOf lx ly hasAlpha isLandscape).nyL.toNat = max minL ly :=
    Nat.mod_eq_of_lt (by omega)
  have hcount := termCount_le hmx hmy
  generalize hn : termCount (max minL lx) (max minL ly) = n at hcount
  have htotal : acTotalOf hasAlpha n = n + 10 + (if hasAlpha then 14 else 0) := rfl
  have hcnt : (countsOf (acTotalOf hasAlpha n) n).cntL.toNat = n := Nat.mod_eq_of_lt (by omega)
  have hac : (countsOf (acTotalOf hasAlpha n) n).acTotal.toNat = acTotalOf hasAlpha n :=
    Nat.mod_eq_of_lt (by rw [htotal]; split <;> omega)
  exact
    { lx_pos := by rw [hlx]; exact hx.1
      ly_pos := by rw [hly]; exact hy.1
      nxL_eq := by rw [hnx, hlx]
      nyL_eq := by rw [hny, hly]
      cntL_eq := by rw [hcnt, hnx, hny, hn]
      acTotal_eq := by rw [hac, hcnt, htotal]; rfl
      limit_eq := by rw [hlx, hly]; exact hlimit }

theorem geometrySide_pos (limit side m : ℕ) : 1 ≤ geometrySide limit side m := le_max_left _ _

/-- The geometry of an image (R83): sides from 1 to the limit, the longer one at the limit. -/
theorem geometry_bounds {w h : ℕ} (hw : 1 ≤ w) (hasAlpha : Bool) :
    (1 ≤ (geometry w h hasAlpha).1 ∧ (geometry w h hasAlpha).1 ≤ 7) ∧
    (1 ≤ (geometry w h hasAlpha).2 ∧ (geometry w h hasAlpha).2 ≤ 7) ∧
    (if imageIsLandscape w h then (geometry w h hasAlpha).1 else (geometry w h hasAlpha).2) =
      limitOf hasAlpha := by
  obtain ⟨hl5, hl7⟩ := limitOf_cases hasAlpha
  have hl : 1 ≤ limitOf hasAlpha := by omega
  have hm : 1 ≤ max w h := le_max_of_le_left hw
  refine ⟨⟨geometrySide_pos _ _ _, (geometrySide_le hl (le_max_left w h) hm).trans hl7⟩,
    ⟨geometrySide_pos _ _ _, (geometrySide_le hl (le_max_right w h) hm).trans hl7⟩, ?_⟩
  unfold imageIsLandscape geometry
  by_cases hwh : w > h
  · rw [decide_eq_true hwh, if_pos rfl, max_eq_left hwh.le]
    exact geometrySide_self hl hw
  · rw [decide_eq_false hwh, if_neg Bool.false_ne_true, max_eq_right (not_lt.mp hwh)]
    exact geometrySide_self hl (hw.trans (not_lt.mp hwh))

/-- The geometry of a hash that passed the checks (R111, R113). -/
theorem parseShape_bounds {n : ℕ} {b : List Byte} {sh : HashShape} (hp : parseShape n b = .ok sh) :
    (1 ≤ sh.lx ∧ sh.lx ≤ 7) ∧ (1 ≤ sh.ly ∧ sh.ly ≤ 7) ∧
      (if sh.isLandscape then sh.lx else sh.ly) = limitOf sh.hasAlpha := by
  obtain ⟨hs, -, hg1, hgl⟩ := parseShape_ok hp
  obtain ⟨hlx, hly⟩ := hashShape_geometry b sh hs
  obtain ⟨hl5, hl7⟩ := limitOf_cases sh.hasAlpha
  rw [hlx, hly]
  cases sh.isLandscape <;> simp <;> omega

/-- A hash of any geometry fits in the 32 bytes of `HASH` (R105). -/
theorem hashLenFor_le {hasAlpha : Bool} {lx ly : ℕ} (hx : lx ≤ 7) (hy : ly ≤ 7) :
    hashLenFor hasAlpha lx ly ≤ hashCap := by
  have hcount := termCount_le (max_le (by decide : minL ≤ 7) hx) (max_le (by decide : minL ≤ 7) hy)
  unfold hashLenFor acTotalOf ceilDiv hashCap hdrLen
  cases hasAlpha <;> simp <;> omega

/-- The size of a decoded image (R121) fits in `OUT_DIM` and meets R39. -/
theorem outDimConsistent_of_geo3 {sh : HashShape} (h1 : 1 ≤ sh.geo3)
    (hl : sh.geo3 ≤ limitOf sh.hasAlpha) :
    OutDimConsistent ⟨BitVec.ofNat 6 (outSize sh).1, BitVec.ofNat 6 (outSize sh).2⟩ := by
  obtain ⟨hw, hh⟩ := outSize_le hl
  have ew : (BitVec.ofNat 6 (outSize sh).1).toNat = (outSize sh).1 := Nat.mod_eq_of_lt (by omega)
  have eh : (BitVec.ofNat 6 (outSize sh).2).toNat = (outSize sh).2 := Nat.mod_eq_of_lt (by omega)
  have hge := shortSide_ge (hasAlpha := sh.hasAlpha) h1
  have hle := shortSide_le hl
  have hsides : (outSize sh).1 = 32 ∧ (outSize sh).2 = shortSide sh.hasAlpha sh.geo3 ∨
      (outSize sh).1 = shortSide sh.hasAlpha sh.geo3 ∧ (outSize sh).2 = 32 := by
    unfold outSize outMax
    cases sh.isLandscape <;> simp
  constructor
  · rw [ew]; omega
  · rw [eh]; omega
  · rw [ew, eh, outMax]; omega

/-! ## The invariant through the commands -/

theorem State.Inv.clearResults {s : State} (h : s.Inv) (i : Option Instr) :
    (s.clearResults i).Inv := by
  rcases i with _ | (_ | _ | _ | _ | _)
  case none => exact h
  case some.nop => exact h
  case some.encode =>
    have hb : ∀ x, hashBase ≤ x → x < hashBase + (List.replicate hashCap (0 : Byte)).length →
        Memory.isBuffer x = true := fun x h1 h2 => by
      rw [List.length_replicate] at h2
      exact (Memory.isBuffer_iff x).mpr (.inl ⟨h1, h2⟩)
    exact ((h.writeBytes hb).setHashLen (Nat.zero_le _)).setGeometry (.inl ⟨rfl, rfl⟩)
  case some.decode => exact (h.setOutDim (.inl rfl)).setGeometry (.inl ⟨rfl, rfl⟩)
  case some.avgcol => exact h.setAvgRgba _
  case some.aspect => exact h.setAspect (.inl rfl)

theorem State.Inv.raiseErr {s : State} (h : s.Inv) (i : Option Instr) (c : ErrCode) :
    (s.raiseErr i c).Inv :=
  (h.clearResults i).complete c

theorem State.Inv.storeEncode {s : State} (h : s.Inv) {r : EncodeResult} (hl : r.hash.length = 32)
    (hn : r.hashLen ≤ hashCap) (hg : GeometryConsistent r.geom r.counts) : (s.storeEncode r).Inv :=
  { h with
    mem_wf := State.wf_storeEncode h.mem_wf hl
    hashLen_le := (Nat.mod_le _ _).trans hn
    geometry_ok := .inr hg }

/-- Everything a successful ENCODE writes (R139 step 9) meets the invariant, whatever `NUM` is. -/
theorem State.Inv.storeEncode_encodeImage {S : Type} (N : Num S) {s : State} (h : s.Inv)
    {w h' : ℕ} (hw : 1 ≤ w) (ps : List Pixel) : (s.storeEncode (encodeImage N w h' ps)).Inv := by
  obtain ⟨hx, hy, hlimit⟩ := geometry_bounds (h := h') hw (imageHasAlpha w h' ps)
  exact h.storeEncode (encodeImage_hash_length N w h' ps) (hashLenFor_le hx.2 hy.2)
    (geometryConsistent_of_sides hx hy hlimit)

/-- Everything a successful DECODE writes (R140 steps 3 and 4) meets the invariant, whatever `NUM` is:
the image is at most 32 by 32, so it stays inside `OUT`. -/
theorem State.Inv.storeDecode {S : Type} (N : Num S) {s : State} (h : s.Inv) {n : ℕ} {b : List Byte}
    {sh : HashShape} (hp : parseShape n b = .ok sh) : (s.storeDecode sh (decodeImage N b sh)).Inv := by
  obtain ⟨hx, hy, hlimit⟩ := parseShape_bounds hp
  obtain ⟨-, -, hg1, hgl⟩ := parseShape_ok hp
  have hlen : (decodeImage N b sh).length ≤ 1024 :=
    (reconstruct_length N sh _ _).trans_le
      (Nat.mul_le_mul (outSize_le hgl).1 (outSize_le hgl).2)
  exact
    { h with
      mem_wf := State.wf_storeDecode h.mem_wf sh hlen
      geometry_ok := .inr (geometryConsistent_of_sides hx hy hlimit)
      outDim_ok := .inr (outDimConsistent_of_geo3 hg1 hgl) }

theorem aspectOf_pos {n : ℕ} {b : List Byte} {sh : HashShape} (hp : parseShape n b = .ok sh) :
    1 ≤ (aspectOf sh).lx.toNat ∧ 1 ≤ (aspectOf sh).ly.toNat := by
  obtain ⟨⟨hx1, hx7⟩, ⟨hy1, hy7⟩, -⟩ := parseShape_bounds hp
  have ex : (aspectOf sh).lx.toNat = sh.lx := Nat.mod_eq_of_lt (by omega)
  have ey : (aspectOf sh).ly.toNat = sh.ly := Nat.mod_eq_of_lt (by omega)
  rw [ex, ey]
  exact ⟨hx1, hy1⟩

theorem encodeWith_inv {S : Type} (N : Num S) {s : State} (h : s.Inv) : (encodeWith N s).Inv := by
  unfold encodeWith
  simp only
  split
  case h_1 code _ => exact h.raiseErr _ _
  case h_2 hcheck =>
    exact (h.storeEncode_encodeImage N (encodeCheck_eq_none.mp hcheck).1 _).complete _

theorem decodeWith_inv {S : Type} (N : Num S) {s : State} (h : s.Inv) : (decodeWith N s).Inv := by
  unfold decodeWith
  split
  case h_1 code _ => exact h.raiseErr _ _
  case h_2 sh hp => exact (h.storeDecode N (parseFull_ok hp).1).complete _

theorem avgcolWith_inv {S : Type} (N : Num S) {s : State} (h : s.Inv) : (avgcolWith N s).Inv := by
  unfold avgcolWith
  split
  case h_1 code _ => exact h.raiseErr _ _
  case h_2 _ => exact (h.setAvgRgba _).complete _

theorem execAspect_inv {s t : State} (h : s.Inv) (ht : execAspect s = .next t) : t.Inv := by
  unfold execAspect at ht
  split at ht
  case h_1 code _ => cases ht; exact h.raiseErr _ _
  case h_2 sh hp => cases ht; exact (h.setAspect (.inr (aspectOf_pos hp))).complete _

/-- Every command keeps the invariant, over any `NUM`. -/
theorem execWith_inv {S : Type} {N : Num S} {i : Instr} {s t : State} (h : s.Inv)
    (ht : execWith N i s = .next t) : t.Inv := by
  cases i with
  | nop => cases ht; exact h.complete _
  | encode => cases ht; exact encodeWith_inv N h
  | decode => cases ht; exact decodeWith_inv N h
  | avgcol => cases ht; exact avgcolWith_inv N h
  | aspect => exact execAspect_inv h ht

/-! ## The invariant through moves and steps -/

theorem engineMove_inv {s t : State} (h : s.Inv) (ht : engineMove s = .next t) : t.Inv := by
  rcases engineMove_cases s with ⟨i, -, hi⟩ | ⟨-, hi⟩ <;> rw [hi] at ht
  · rw [exec_eq_execWith] at ht
    exact execWith_inv h ht
  · cases ht
    exact h.complete .badCmd

theorem State.Inv.transact {s : State} (h : s.Inv) (tr : Transaction) : (s.transact tr).2.Inv := by
  rcases State.transact_cases s tr with
    e | ⟨v, -, e⟩ | ⟨v, e⟩ | ⟨v, e⟩ | ⟨v, e⟩ | ⟨a, v, ha, hr, e⟩ <;> rw [e]
  · exact h
  · exact h.start v
  · exact h.setWidth _
  · exact h.setHeight _
  · exact h.setHashLen ((hashLenOfWord_toNat v).trans_le (min_le_right _ _))
  · refine h.writeBytes fun x h1 h2 => ?_
    rw [bytesOfWord_length] at h2
    exact (Memory.isBuffer_iff x).mpr (by omega)

theorem State.Inv.hostMove {s : State} (h : s.Inv) : s.hostMove.Inv := by
  rcases State.hostMove_cases s with e | ⟨tr, rest, -, -, e⟩ <;> rw [e]
  · exact h
  · exact (h.transact tr).withAgents _ _ _

/-- Settles O60: every register is zero and the memory lists nothing. -/
theorem resetHasInvariant : Obligations.ResetHasInvariant where
  mem_wf := rfl
  status_ok := by decide
  hashLen_le := by decide
  geometry_ok := .inl ⟨rfl, rfl⟩
  outDim_ok := .inl rfl
  aspect_ok := .inl rfl

/-- The invariant does not say what number a reset has. -/
theorem State.assertReset_inv (s : State) (dropHeld : Bool) : (s.assertReset dropHeld).Inv :=
  { resetHasInvariant with }

/-- Settles O59, by what a step can do: a command, a transaction, a reset, or the passing of a turn,
each after the used turn is taken off the list. -/
theorem stepKeepsInvariant : Obligations.StepKeepsInvariant := by
  intro s t h ht
  have turn : ∀ r : State, r = { s with turns := r.turns } → r.Inv := fun r hr => by
    rw [hr]
    exact h.withAgents _ _ _
  rcases step_cases s with ⟨r, -, hr, -, e⟩ | ⟨r, hr, e⟩ | ⟨r, d, -, e⟩ | ⟨r, hr, e⟩ <;>
    rw [e] at ht
  · exact engineMove_inv (turn r hr) ht
  · cases ht
    exact (turn r hr).hostMove
  · cases ht
    exact State.assertReset_inv r d
  · cases ht
    exact turn _ hr

end Sys2Proof.Machine
end

section
/-! The slave port (20_memory.md): what each region answers, the words of the buffers, the busy stall
and the order of transactions. -/

namespace Sys2Proof.Machine

/-! ## Transactions no region answers -/

/-- Width and alignment are tested first (R158): such a transaction reaches no region (R45). -/
theorem State.transact_read_refused {a : BitVec 20} {n : ℕ} (s : State)
    (h : ¬(n = 4 ∧ a.toNat % 4 = 0)) : s.transact (.read a n) = (.read .error 0, s) :=
  if_neg (by rwa [aligned_iff])

theorem State.transact_write_refused {a : BitVec 20} {n : ℕ} (s : State) (v : Word)
    (h : ¬(n = 4 ∧ a.toNat % 4 = 0)) : s.transact (.write a n v) = (.write .error, s) :=
  if_neg (by rwa [aligned_iff])

/-- Settles O46: the test of width and alignment fails. -/
theorem misalignedRefused : Obligations.MisalignedRefused := by
  intro s a n v h
  have hbad : ¬(n = 4 ∧ a.toNat % 4 = 0) := by omega
  exact ⟨s.transact_read_refused hbad, s.transact_write_refused v hbad⟩

/-! ## What a region answers -/

theorem State.transact_read_of_locate {s : State} {a : BitVec 20} {loc : Location}
    (h : a.toNat % 4 = 0) (hl : locate a.toNat = loc) : s.transact (.read a 4) =
      (.read (s.readLocation loc).1 (s.readLocation loc).2, s) := by
  rw [State.transact_read h, hl]

theorem State.transact_write_of_locate {s : State} {a : BitVec 20} {loc : Location} {v : Word}
    (h : a.toNat % 4 = 0) (hl : locate a.toNat = loc) : s.transact (.write a 4 v) =
      (.write (s.writeLocation loc v).1, (s.writeLocation loc v).2) := by
  rw [State.transact_write h, hl]

/-- A write to a read-only register or to `OUT` answers `ERROR` and changes nothing (R46). -/
theorem State.writeLocation_readOnly (s : State) (v : Word) {a : ℕ} (h : a % 4 = 0)
    (hr : a = 0x00 ∨ a = 0x08 ∨ (0x18 ≤ a ∧ a ≤ 0x28) ∨ (0x1000 ≤ a ∧ a < 0x2000)) :
    s.writeLocation (locate a) v = (.error, s) := by
  by_cases hout : 0x1000 ≤ a
  · rw [locate_out hout (by omega)]
    rfl
  · have hreg : a = 0x00 ∨ a = 0x08 ∨ a = 0x18 ∨ a = 0x1C ∨ a = 0x20 ∨ a = 0x24 ∨ a = 0x28 := by omega
    rcases hreg with rfl | rfl | rfl | rfl | rfl | rfl | rfl <;> rfl

/-- Settles O47, by the region of the offset: unmapped, read-only, or `CMD`. -/
theorem unmappedAndReadOnly : Obligations.UnmappedAndReadOnly := by
  intro s a v h
  refine ⟨fun hu => ?_, fun hr => ?_, fun hc => ?_⟩
  · have hl := locate_unmapped hu
    exact ⟨State.transact_read_of_locate h hl, State.transact_write_of_locate h hl⟩
  · rw [State.transact_write h, s.writeLocation_readOnly v h hr]
  · exact State.transact_read_of_locate (loc := .cmd) h (by rw [hc]; rfl)

/-! ## Words of the buffers -/

/-- A read of a buffer answers the little-endian word at its offset (R42). -/
theorem State.transact_read_buffer (s : State) {a : BitVec 20} (h : a.toNat % 4 = 0)
    (hb : (0x40 ≤ a.toNat ∧ a.toNat < 0x60) ∨ (0x1000 ≤ a.toNat ∧ a.toNat < 0x2000) ∨
      (0x10000 ≤ a.toNat ∧ a.toNat < 0x19C40)) :
    s.transact (.read a 4) = (.read .okay (s.readWord a.toNat), s) := by
  rcases hb with ⟨h1, h2⟩ | ⟨h1, h2⟩ | ⟨h1, h2⟩
  · exact State.transact_read_of_locate h (locate_hash h1 h2)
  · exact State.transact_read_of_locate h (locate_out h1 h2)
  · exact State.transact_read_of_locate h (locate_pix h1 h2)

/-- A write to `HASH` or `PIX` stores the word at its offset (R47). -/
theorem State.transact_write_buffer (s : State) {a : BitVec 20} (v : Word) (h : a.toNat % 4 = 0)
    (hb : (0x40 ≤ a.toNat ∧ a.toNat < 0x60) ∨ (0x10000 ≤ a.toNat ∧ a.toNat < 0x19C40)) :
    s.transact (.write a 4 v) = (.write .okay, s.writeWord a.toNat v) := by
  rcases hb with ⟨h1, h2⟩ | ⟨h1, h2⟩
  · exact State.transact_write_of_locate h (locate_hash h1 h2)
  · exact State.transact_write_of_locate h (locate_pix h1 h2)

theorem bytesOfWord_getElem (v : Word) {k : ℕ} (hk : k < (bytesOfWord v).length) :
    (bytesOfWord v)[k] = byteOfWord v k := by
  match k, hk with
  | 0, _ | 1, _ | 2, _ | 3, _ => rfl

/-- Byte `k` of a stored word is at offset `a + k` (R42). -/
theorem State.readByte_writeWord_at (s : State) (a : ℕ) (v : Word) {k : ℕ} (hk : k < 4) :
    (s.writeWord a v).readByte (a + k) = byteOfWord v k :=
  (State.readByte_writeBytes_at s (bs := bytesOfWord v) hk).trans (bytesOfWord_getElem v hk)

/-- Settles O50: the port stores and reads whole words, whose bytes the laws of the memory give. -/
theorem bufferWords : Obligations.BufferWords := by
  intro s a v h
  refine ⟨fun hw => ⟨s.writeWord a.toNat v, s.transact_write_buffer v h hw, ?_, fun k hk => ?_,
    fun x hx => s.readByte_writeWord_of_not_mem v hx, rfl⟩, fun hr => ?_⟩
  · rw [State.transact_read_buffer _ h (by omega), State.readWord_writeWord]
  · rw [s.readByte_writeWord_at _ v hk, byteOfWord_toNat]
  · exact ⟨_, s.transact_read_buffer h hr, wordOfBytes_toNat _ _ _ _⟩

/-- The word at an offset is the word of the pixel there (R43). -/
theorem State.readWord_eq_pixelAt (s : State) (a : ℕ) : s.readWord a = (s.pixelAt a).toWord := rfl

/-- A read of a pixel's offset in `OUT` or `PIX` answers the word of the pixel there (R43). -/
theorem State.transact_read_pixel (s : State) {x : ℕ} (h : x % 4 = 0)
    (hx : (0x1000 ≤ x ∧ x < 0x2000) ∨ (0x10000 ≤ x ∧ x < 0x19C40)) :
    s.transact (.read (BitVec.ofNat 20 x) 4) = (.read .okay (s.pixelAt x).toWord, s) := by
  have hoff : (BitVec.ofNat 20 x).toNat = x := Nat.mod_eq_of_lt (by omega)
  rw [s.transact_read_buffer (by rwa [hoff]) (by rw [hoff]; exact .inr hx), hoff,
    s.readWord_eq_pixelAt]

/-- Settles O51: `OUT[i]`, `PIX[i]` and pixel `i` of an image are the pixel at one offset. -/
theorem pixelWords : Obligations.PixelWords := by
  refine ⟨Pixel.toWord_toNat, fun s i hi => s.transact_read_pixel (by omega) (by omega),
    fun s i n hm hi hn => ⟨s.pixelAt (0x10000 + 4 * i), ?_,
      s.transact_read_pixel (by omega) (by omega)⟩⟩
  rw [State.image_eq hm, List.getElem?_map, List.getElem?_range hi]
  rfl

/-! ## The busy stall -/

theorem State.held_eq_false_iff (s : State) (tr : Transaction) :
    s.held tr = false ↔ s.status.busy = true → tr = .read 0x08 4 := by
  rw [← Transaction.isStatusRead_iff, State.held]
  cases s.status.busy <;> simp

theorem State.hostMove_of_held {s : State} {tr : Transaction} {rest : List Transaction}
    (hp : s.port = tr :: rest) (hh : s.held tr = true) : s.hostMove = s := by
  simp [State.hostMove, hp, hh]

theorem State.hostMove_of_not_held {s : State} {tr : Transaction} {rest : List Transaction}
    (hp : s.port = tr :: rest) (hh : s.held tr = false) : s.hostMove =
      { (s.transact tr).2 with port := rest, replies := (s.transact tr).1 :: s.replies } := by
  simp [State.hostMove, hp, hh]

/-- An idle engine holds nothing (R48). -/
theorem State.hostMove_of_idle {s : State} {tr : Transaction} {rest : List Transaction}
    (hp : s.port = tr :: rest) (hb : s.status.busy = false) : s.hostMove =
      { (s.transact tr).2 with port := rest, replies := (s.transact tr).1 :: s.replies } :=
  State.hostMove_of_not_held hp ((s.held_eq_false_iff tr).mpr (by simp [hb]))

/-- The turn of a busy engine ends the command (R144) and leaves the host's side of the port alone. -/
theorem engineTurn_completes {s : State} (hb : s.status.busy = true) :
    ∃ t, engineTurn s = .next t ∧ t.status.busy = false ∧ t.port = s.port ∧ t.replies = s.replies := by
  have hmove : engineTurn s = engineMove s := if_pos hb
  rw [hmove]
  rcases engineMove_cases s with ⟨i, -, hi⟩ | ⟨-, hi⟩
  · obtain ⟨t, ht, hidle, -⟩ := exec_completes i s
    obtain ⟨hport, -, hreplies, -, -⟩ := exec_port ht
    exact ⟨t, hi.trans ht, hidle, hport, hreplies⟩
  · exact ⟨_, hi, rfl, rfl, rfl⟩

/-- Settles O53: only a `STATUS` read is not held, and the engine's turn leaves it idle with the
transaction still the oldest. -/
theorem busyStall : Obligations.BusyStall := by
  intro s tr rest hb hp
  refine ⟨?_, fun hne => ?_, ?_⟩
  · rintro rfl
    exact State.hostMove_of_not_held hp ((s.held_eq_false_iff _).mpr fun _ => rfl)
  · refine State.hostMove_of_held hp (Bool.eq_true_of_not_eq_false fun hh => ?_)
    exact hne ((s.held_eq_false_iff tr).mp hh hb)
  · obtain ⟨t, ht, hidle, hport, hreplies⟩ := engineTurn_completes hb
    refine ⟨t, ht, hidle, ?_⟩
    rw [State.hostMove_of_idle (hport.trans hp) hidle, hreplies]

/-! ## The order of transactions -/

theorem State.readLocation_withTurns (s : State) (ts : List Turn) (loc : Location) :
    State.readLocation { s with turns := ts } loc = s.readLocation loc := by
  cases loc <;> rfl

theorem State.writeLocation_withTurns (s : State) (ts : List Turn) (loc : Location) (v : Word) :
    State.writeLocation { s with turns := ts } loc v =
      ((s.writeLocation loc v).1, { (s.writeLocation loc v).2 with turns := ts }) := by
  cases loc <;> rfl

/-- A transaction neither sees nor changes the schedule. -/
theorem State.transact_withTurns (s : State) (ts : List Turn) (tr : Transaction) :
    State.transact { s with turns := ts } tr =
      ((s.transact tr).1, { (s.transact tr).2 with turns := ts }) := by
  cases tr with
  | read a n =>
    by_cases h : n = 4 ∧ a.toNat % 4 = 0
    · obtain ⟨rfl, h⟩ := h
      rw [State.transact_read h, State.transact_read h, State.readLocation_withTurns]
    · rw [State.transact_read_refused _ h, State.transact_read_refused _ h]
  | write a n v =>
    by_cases h : n = 4 ∧ a.toNat % 4 = 0
    · obtain ⟨rfl, h⟩ := h
      rw [State.transact_write h, State.transact_write h, State.writeLocation_withTurns]
    · rw [State.transact_write_refused _ v h, State.transact_write_refused _ v h]

theorem step_of_idle {s : State} (ht : s.turns = []) (hb : s.status.busy = false) :
    step s = .next s.hostMove := by
  simp [step, nextMove, nextMoveBy, ht, hb]

theorem step_of_host_turn {s : State} {later : List Turn} (ht : s.turns = .host :: later) :
    step s = .next (State.hostMove { s with turns := later }) := by
  simp [step, nextMove, nextMoveBy, ht]

/-- Settles O54: the step is the port's move of an idle engine, whose transaction is the same whatever
turns are left. -/
theorem transactionsCompleteInOrder : Obligations.TransactionsCompleteInOrder := by
  intro s tr rest hb hp
  refine ⟨fun ht => ?_, fun later ht => ?_⟩
  · rw [step_of_idle ht hb, State.hostMove_of_idle hp hb]
  · rw [step_of_host_turn ht, State.hostMove_of_idle (s := { s with turns := later }) hp hb,
      State.transact_withTurns]

end Sys2Proof.Machine
end

section
/-! Command words (30_encoding.md Part A): the decoder by the value of the word, and the obligations of
the opcode map. -/

namespace Sys2Proof.Machine

/-! ## The fields of a command word -/

/-- The field `op` of format `C` (R56) as arithmetic. -/
theorem opcode_toNat (w : Word) : (w.extractLsb' 0 8).toNat = w.toNat % 256 :=
  BitVec.extractLsb'_toNat 0 8 w

/-- The field `zero` of format `C` (R56) is clear exactly in a word below 256. -/
theorem zeroField_eq_zero_iff (w : Word) : w.extractLsb' 8 24 = 0#24 ↔ w.toNat < 256 := by
  have hw := w.isLt
  rw [← BitVec.toNat_inj, BitVec.extractLsb'_toNat, Nat.shiftRight_eq_div_pow]
  simp only [BitVec.toNat_ofNat, Nat.zero_mod]
  omega

theorem commandWord_wellFormed_iff (w : Word) : CommandWord.wellFormed w = true ↔ w.toNat ≤ 4 := by
  unfold CommandWord.wellFormed CommandWord.reservedBitsZero CommandWord.opcodeAssigned
  rw [Bool.and_eq_true, beq_iff_eq, decide_eq_true_iff, zeroField_eq_zero_iff, opcode_toNat]
  omega

/-! ## The decoder by the value of the word -/

@[simp] theorem decodeCommand_encode (i : Instr) : decodeCommand (encode i) = .ok i := by
  cases i <;> rfl

theorem encode_toNat_le (i : Instr) : (encode i).toNat ≤ 4 := by
  cases i <;> decide

theorem exists_eq_encode {w : Word} (h : w.toNat ≤ 4) : ∃ i, w = encode i := by
  have hw : w.toNat = 0 ∨ w.toNat = 1 ∨ w.toNat = 2 ∨ w.toNat = 3 ∨ w.toNat = 4 := by omega
  rcases hw with hw | hw | hw | hw | hw
  · exact ⟨.nop, BitVec.eq_of_toNat_eq hw⟩
  · exact ⟨.encode, BitVec.eq_of_toNat_eq hw⟩
  · exact ⟨.decode, BitVec.eq_of_toNat_eq hw⟩
  · exact ⟨.avgcol, BitVec.eq_of_toNat_eq hw⟩
  · exact ⟨.aspect, BitVec.eq_of_toNat_eq hw⟩

/-- A bit set in 31:8 is refused before the opcode is looked at (R58). -/
theorem decodeCommand_of_ge {w : Word} (h : 256 ≤ w.toNat) :
    decodeCommand w = .error .reservedBits := by
  unfold decodeCommand
  rw [if_neg (by rw [zeroField_eq_zero_iff]; omega)]

/-- An opcode of 0x05 to 0xFF is refused by its value (R58). -/
theorem decodeCommand_of_unassigned {w : Word} (h4 : 4 < w.toNat) (h256 : w.toNat < 256) :
    decodeCommand w = .error (.reservedOpcode (BitVec.ofNat 8 w.toNat)) := by
  have hop : w.extractLsb' 0 8 = BitVec.ofNat 8 w.toNat := BitVec.eq_of_toNat_eq (opcode_toNat w)
  have hval : (w.extractLsb' 0 8).toNat = w.toNat := by rw [opcode_toNat]; omega
  unfold decodeCommand
  rw [if_pos ((zeroField_eq_zero_iff w).mpr h256)]
  split
  case h_6 => rw [hop]
  all_goals omega

/-- A reserved word selects no command. -/
theorem decodeCommand_of_reserved {w : Word} (h : 4 < w.toNat) : ∃ r, decodeCommand w = .error r := by
  by_cases h256 : w.toNat < 256
  · exact ⟨_, decodeCommand_of_unassigned h h256⟩
  · exact ⟨_, decodeCommand_of_ge (not_lt.mp h256)⟩

/-- A word selects a command when all 32 bits match (R57). -/
theorem decodeCommand_eq_ok_iff (w : Word) (i : Instr) : decodeCommand w = .ok i ↔ w = encode i := by
  constructor
  · intro hd
    by_cases h : w.toNat ≤ 4
    · obtain ⟨j, rfl⟩ := exists_eq_encode h
      rw [decodeCommand_encode] at hd
      rw [Except.ok.inj hd]
    · obtain ⟨r, hr⟩ := decodeCommand_of_reserved (not_le.mp h)
      rw [hr] at hd
      cases hd
  · rintro rfl
    exact decodeCommand_encode i

/-- A word selects some command exactly when its value is one of the five of the map. -/
theorem exists_decodeCommand_eq_ok_iff (w : Word) :
    (∃ i, decodeCommand w = .ok i) ↔ w.toNat ≤ 4 := by
  simp only [decodeCommand_eq_ok_iff]
  exact ⟨fun ⟨i, hi⟩ => hi ▸ encode_toNat_le i, exists_eq_encode⟩

theorem commandOf_eq_none_iff (w : Word) : commandOf w = none ↔ 4 < w.toNat := by
  rw [← not_le, ← exists_decodeCommand_eq_ok_iff]
  unfold commandOf
  cases decodeCommand w <;> simp

/-- The four bytes the encoder lays out decode to the command and leave the rest (R42, R57). -/
theorem decodeBytes_encodeBytes_append (i : Instr) (rest : List Byte) :
    decodeBytes (encodeBytes i ++ rest) = .ok (i, rest) := by
  have hword := wordOfBytes_bytesOfWord (encode i)
  simp only [encodeBytes, bytesOfWord, List.cons_append, List.nil_append, decodeBytes, hword,
    decodeCommand_encode]

/-! ## The opcode map -/

/-- Settles O1: the words are the table's by definition; a word decodes to a command exactly when it is
the command's word, and so do its bytes in memory order. -/
theorem decodeEncodeAgree : Obligations.DecodeEncodeAgree :=
  ⟨⟨rfl, rfl, rfl, rfl, rfl⟩, decodeCommand_eq_ok_iff, decodeBytes_encodeBytes_append⟩

/-- Settles O2: the words that select a command are those up to 4, and a word above is refused by its
field `zero` from 256 on, by its opcode below. -/
theorem reservedWordsRefused : Obligations.ReservedWordsRefused := fun w =>
  ⟨commandOf_eq_none_iff w,
    (commandWord_wellFormed_iff w).trans (exists_decodeCommand_eq_ok_iff w).symm,
    decodeCommand_of_ge, decodeCommand_of_unassigned⟩

/-- Settles O3: the bytes of each row are those the encoder lays out. -/
theorem commandWordsDecode : Obligations.CommandWordsDecode :=
  ⟨decodeBytes_encodeBytes_append .nop [], decodeBytes_encodeBytes_append .encode [],
    decodeBytes_encodeBytes_append .decode [], decodeBytes_encodeBytes_append .avgcol [],
    decodeBytes_encodeBytes_append .aspect [], by decide, by decide, by decide⟩

end Sys2Proof.Machine
end

section
/-! The hash (30_encoding.md Part B): its lengths, what DECODE reads of it, and the nibble stream that
ENCODE writes. -/

namespace Sys2Proof.Machine

/-! ## Lengths -/

theorem hashLenFor_of_termCount {hasAlpha : Bool} {lx ly cnt : ℕ}
    (h : termCount (max 3 lx) (max 3 ly) = cnt) :
    hashLenFor hasAlpha lx ly = hdrLen hasAlpha + ceilDiv (acTotalOf hasAlpha cnt) 2 := by
  subst h
  rfl

/-- Settles O44: the counts by evaluating the scan for each geometry, the lengths by R105. -/
theorem hashLengthTable : Obligations.HashLengthTable := by
  rintro row hrow landscape _ rfl
  have hcount : termCount (max 3 (hashGeometry row.1 landscape row.2.1).1)
      (max 3 (hashGeometry row.1 landscape row.2.1).2) = row.2.2.1 := by
    revert row landscape
    decide
  have hlengths : acTotalOf row.1 row.2.2.1 = row.2.2.2.1 ∧ ceilDiv row.2.2.2.1 2 = row.2.2.2.2.1 ∧
      hdrLen row.1 + row.2.2.2.2.1 = row.2.2.2.2.2 := by
    clear hcount
    revert row
    decide
  obtain ⟨htotal, hpayload, hlen⟩ := hlengths
  exact ⟨hcount, htotal, hpayload,
    by rw [hashLenFor_of_termCount hcount, htotal, hpayload, hlen], hlen⟩

/-! ## What DECODE reads of a hash -/

section
variable {S : Type} (N : Num S)

/-- The mode bits and the geometry are in bytes 2, 3 and 4 (R67). -/
theorem hashShape_congr {b b' : List Byte} (h : ∀ k < 6, hashByte b k = hashByte b' k) :
    hashShape b = hashShape b' := by
  unfold hashShape
  rw [h 2 (by omega), h 3 (by omega), h 4 (by omega)]

/-- The header is in bytes 0 to 5 (R60, R63). -/
theorem dequantiseHeader_congr {b b' : List Byte} (hasAlpha : Bool)
    (h : ∀ k < 6, hashByte b k = hashByte b' k) :
    dequantiseHeader N b hasAlpha = dequantiseHeader N b' hasAlpha := by
  have h24 : h24Of b = h24Of b' := by
    unfold h24Of
    rw [h 0 (by omega), h 1 (by omega), h 2 (by omega)]
  have h16 : h16Of b = h16Of b' := by
    unfold h16Of
    rw [h 3 (by omega), h 4 (by omega)]
  unfold dequantiseHeader
  rw [h24, h16, h 5 (by omega)]

theorem channelDecode_congr {b b' : List Byte} {start idx count : ℕ} (scale : S)
    (h : ∀ j < idx + count, nibbleAt b start j = nibbleAt b' start j) :
    channelDecode N b start idx count scale = channelDecode N b' start idx count scale := by
  refine Prod.ext (List.map_congr_left fun j hj => ?_) rfl
  rw [h (idx + j) (Nat.add_lt_add_left (List.mem_range.mp hj) idx)]

/-- The four sequences by the slots they start at (R64, R140 step 2). -/
theorem readChannels_eq (b : List Byte) (sh : HashShape) (hd : Header S) {cntL : ℕ}
    (hcnt : termCount (max minL sh.lx) (max minL sh.ly) = cntL) :
    readChannels N b sh hd =
      { l := (channelDecode N b (hdrLen sh.hasAlpha) 0 cntL hd.lScale).1
        p := (channelDecode N b (hdrLen sh.hasAlpha) cntL 5 (boosted N hd.pScale)).1
        q := (channelDecode N b (hdrLen sh.hasAlpha) (cntL + 5) 5 (boosted N hd.qScale)).1
        a := if sh.hasAlpha
          then (channelDecode N b (hdrLen sh.hasAlpha) (cntL + 5 + 5) 14 hd.aScale).1 else [] } := by
  unfold readChannels channelDecode
  simp only [hcnt, Nat.zero_add]

/-- The coefficients are the first `AC_TOTAL` nibbles of the payload (R64, R105). -/
theorem readChannels_congr {b b' : List Byte} {sh : HashShape} (hd : Header S)
    (h : ∀ j < acTotalOf sh.hasAlpha (termCount (max minL sh.lx) (max minL sh.ly)),
      nibbleAt b (hdrLen sh.hasAlpha) j = nibbleAt b' (hdrLen sh.hasAlpha) j) :
    readChannels N b sh hd = readChannels N b' sh hd := by
  generalize hcnt : termCount (max minL sh.lx) (max minL sh.ly) = cntL at h
  have htotal : acTotalOf sh.hasAlpha cntL = cntL + 5 + 5 + (if sh.hasAlpha then 14 else 0) := rfl
  have channel : ∀ (idx count : ℕ) (scale : S), idx + count ≤ acTotalOf sh.hasAlpha cntL →
      channelDecode N b (hdrLen sh.hasAlpha) idx count scale =
        channelDecode N b' (hdrLen sh.hasAlpha) idx count scale :=
    fun _ _ scale hle => channelDecode_congr N scale fun j hj => h j (hj.trans_le hle)
  rw [readChannels_eq N b sh hd hcnt, readChannels_eq N b' sh hd hcnt,
    channel 0 cntL _ (by omega), channel cntL 5 _ (by omega), channel (cntL + 5) 5 _ (by omega)]
  cases halpha : sh.hasAlpha
  case false => rfl
  case true =>
    rw [halpha] at channel htotal
    simp only [if_true] at htotal ⊢
    rw [channel (cntL + 5 + 5) 14 _ (by omega)]

/-- The decoded image is a function of the header and of the nibbles counted by `AC_TOTAL` (R67). -/
theorem decodeImage_congr {b b' : List Byte} {sh : HashShape}
    (hheader : ∀ k < 6, hashByte b k = hashByte b' k)
    (hnibbles : ∀ j < acTotalOf sh.hasAlpha (termCount (max minL sh.lx) (max minL sh.ly)),
      nibbleAt b (hdrLen sh.hasAlpha) j = nibbleAt b' (hdrLen sh.hasAlpha) j) :
    decodeImage N b sh = decodeImage N b' sh := by
  unfold decodeImage
  simp only [dequantiseHeader_congr N sh.hasAlpha hheader, readChannels_congr N _ hnibbles]

/-- What a successful DECODE is (R140): the checks passed, and the image is stored. -/
theorem decodeWith_of_ok {s : State} (h : (decodeWith N s).status.err = .ok) :
    ∃ sh, parseFull s.hashLen.toNat s.hash = .ok sh ∧
      decodeWith N s = (s.storeDecode sh (decodeImage N s.hash sh)).complete .ok := by
  unfold decodeWith at h ⊢
  split at h
  case h_1 c hp =>
    have hc : c = .ok := h
    rcases parseFull_error hp with h' | h' <;> rw [h'] at hc <;> cases hc
  case h_2 sh hp => exact ⟨sh, hp, rfl⟩

end

/-! ## The results of a successful DECODE -/

section
variable {s : State} {n : ℕ} {b : List Byte} {sh : HashShape} (hp : parseShape n b = .ok sh)
include hp

/-- `AC_TOTAL` fits its field (R26). -/
theorem acTotal_toNat_storeDecode (ps : List Pixel) :
    (s.storeDecode sh ps).counts.acTotal.toNat =
      acTotalOf sh.hasAlpha (termCount (max minL sh.lx) (max minL sh.ly)) := by
  obtain ⟨⟨-, hx⟩, ⟨-, hy⟩, -⟩ := parseShape_bounds hp
  have hcount := termCount_le (max_le (by decide : minL ≤ 7) hx) (max_le (by decide : minL ≤ 7) hy)
  refine Nat.mod_eq_of_lt ?_
  unfold acTotalOf
  split <;> omega

/-- `OUT_DIM` holds the output size whole (R27), so it counts the pixels of the decoded image. -/
theorem outDim_toNat_storeDecode (ps : List Pixel) :
    (s.storeDecode sh ps).outDim.w.toNat = (outSize sh).1 ∧
      (s.storeDecode sh ps).outDim.h.toNat = (outSize sh).2 := by
  obtain ⟨-, -, -, hgl⟩ := parseShape_ok hp
  obtain ⟨hw, hh⟩ := outSize_le hgl
  exact ⟨Nat.mod_eq_of_lt (by omega), Nat.mod_eq_of_lt (by omega)⟩

end

theorem decodeImage_length {S : Type} (N : Num S) (b : List Byte) (sh : HashShape) :
    (decodeImage N b sh).length = (outSize sh).1 * (outSize sh).2 := reconstruct_length N sh _ _

/-! ## The bytes DECODE needs -/

/-- Two hashes agree on the first `total` nibbles from `start` on if they agree on the bytes before the
last one those nibbles reach, and on that one but for the pad nibble of an odd `total` (R65). -/
theorem nibbleAt_congr_of_total {b b' : List Byte} {start total : ℕ}
    (hbytes : ∀ k < start + ceilDiv total 2 - 1, hashByte b k = hashByte b' k)
    (hlast : (hashByte b (start + ceilDiv total 2 - 1)).toNat % (if total % 2 = 1 then 16 else 256) =
      (hashByte b' (start + ceilDiv total 2 - 1)).toNat % (if total % 2 = 1 then 16 else 256)) :
    ∀ j < total, nibbleAt b start j = nibbleAt b' start j := by
  intro j hj
  have hceil : ceilDiv total 2 = (total + 1) / 2 := rfl
  rw [nibbleAt_eq, nibbleAt_eq]
  by_cases hk : start + j / 2 < start + ceilDiv total 2 - 1
  · rw [hbytes _ hk]
  · rw [show start + j / 2 = start + ceilDiv total 2 - 1 by omega]
    have hb := (hashByte b (start + ceilDiv total 2 - 1)).isLt
    have hb' := (hashByte b' (start + ceilDiv total 2 - 1)).isLt
    by_cases hodd : total % 2 = 1
    · rw [if_pos hodd] at hlast
      rw [show j % 2 = 0 by omega, pow_zero, Nat.div_one, Nat.div_one, hlast]
    · rw [if_neg hodd, Nat.mod_eq_of_lt hb, Nat.mod_eq_of_lt hb'] at hlast
      rw [hlast]

/-- `need` of R113 is at most the 32 bytes of `HASH`, and its last byte lies behind the header. -/
theorem hashLenFor_bounds {n : ℕ} {b : List Byte} {sh : HashShape} (hp : parseShape n b = .ok sh) :
    6 < hashLenFor sh.hasAlpha sh.lx sh.ly ∧ hashLenFor sh.hasAlpha sh.lx sh.ly ≤ 32 := by
  obtain ⟨⟨-, hx⟩, ⟨-, hy⟩, -⟩ := parseShape_bounds hp
  refine ⟨?_, hashLenFor_le hx hy⟩
  unfold hashLenFor ceilDiv acTotalOf hdrLen
  split <;> omega

/-- Two accepted hashes that agree below `need`, but for the pad nibble, have one shape and one decoded
image (R65, R67): the shape, the header and the counted nibbles all lie there. -/
theorem decodeImage_eq_of_agree_below_need {S : Type} (N : Num S) {n n' : ℕ} {b b' : List Byte}
    {sh sh' : HashShape} (hp : parseShape n b = .ok sh) (hp' : parseShape n' b' = .ok sh')
    {need total : ℕ}
    (htotal : total = acTotalOf sh.hasAlpha (termCount (max minL sh.lx) (max minL sh.ly)))
    (hneed : need = hdrLen sh.hasAlpha + ceilDiv total 2)
    (hbytes : ∀ k < need - 1, hashByte b k = hashByte b' k)
    (hlast : (hashByte b (need - 1)).toNat % (if total % 2 = 1 then 16 else 256) =
      (hashByte b' (need - 1)).toNat % (if total % 2 = 1 then 16 else 256)) :
    sh' = sh ∧ decodeImage N b' sh = decodeImage N b sh := by
  have hlen : need = hashLenFor sh.hasAlpha sh.lx sh.ly := by rw [hneed, htotal]; rfl
  have hlow := (hashLenFor_bounds hp).1
  have hheader : ∀ k < 6, hashByte b' k = hashByte b k := fun k hk => (hbytes k (by omega)).symm
  subst hneed
  refine ⟨?_, decodeImage_congr N hheader ?_⟩
  · rw [(parseShape_ok hp).1, (parseShape_ok hp').1]
    exact hashShape_congr hheader
  · rw [← htotal]
    exact fun j hj => (nibbleAt_congr_of_total hbytes hlast j hj).symm

/-- The results of DECODE are those of its shape and image, whatever state they are stored to. -/
theorem State.storeDecode_results (s s' : State) {sh : HashShape} {ps : List Pixel}
    (hsize : (s.storeDecode sh ps).outDim.w.toNat * (s.storeDecode sh ps).outDim.h.toNat = ps.length) :
    (s.storeDecode sh ps).outDim = (s'.storeDecode sh ps).outDim ∧
      (s.storeDecode sh ps).geom = (s'.storeDecode sh ps).geom ∧
      (s.storeDecode sh ps).counts = (s'.storeDecode sh ps).counts ∧
      ∀ i < (s.storeDecode sh ps).outDim.w.toNat * (s.storeDecode sh ps).outDim.h.toNat,
        (s.storeDecode sh ps).outPixel i = (s'.storeDecode sh ps).outPixel i := by
  refine ⟨rfl, rfl, rfl, fun i hi => ?_⟩
  rw [hsize] at hi
  rw [State.outPixel_storeDecode s sh hi, State.outPixel_storeDecode s' sh hi]

/-- Settles O27: both hashes are accepted and agree on all that DECODE reads, so the same shape and
image are stored. `NUM` is generalised because the argument does not depend on it. -/
theorem decodeIgnoresTrailingBytes : Obligations.DecodeIgnoresTrailingBytes := by
  intro s s' t t' need hm hm' ht ht' hok hok' hneed hbytes hlast
  rw [exec_decode] at ht ht'
  generalize Exact.num = N at ht ht'
  cases ht
  cases ht'
  obtain ⟨sh, hp, hdec⟩ := decodeWith_of_ok N hok
  obtain ⟨sh', hp', hdec'⟩ := decodeWith_of_ok N hok'
  obtain ⟨hshape, -⟩ := parseFull_ok hp
  obtain ⟨hshape', -⟩ := parseFull_ok hp'
  rw [hdec] at hneed hlast ⊢
  rw [hdec']
  simp only [State.complete_geom, State.complete_counts, acTotal_toNat_storeDecode hshape]
    at hneed hlast
  have hlen : need = hashLenFor sh.hasAlpha sh.lx sh.ly := hneed
  obtain ⟨hlow, hcap⟩ := hashLenFor_bounds hshape
  rw [← hlen] at hlow hcap
  rw [← State.hashByte_hash hm (by omega), ← State.hashByte_hash hm' (by omega)] at hlast
  obtain ⟨rfl, himage⟩ := decodeImage_eq_of_agree_below_need N hshape hshape' rfl hneed
    (fun k hk => by
      rw [State.hashByte_hash hm (by omega), State.hashByte_hash hm' (by omega), hbytes k hk]) hlast
  obtain ⟨hw, hh⟩ := outDim_toNat_storeDecode hshape (s := s) (decodeImage N s.hash sh')
  rw [himage]
  exact State.storeDecode_results s s' (by rw [hw, hh, decodeImage_length])

/-! ## Nibbles written and read back -/

theorem orNibble_length (b : List Byte) (start idx d : ℕ) :
    (orNibble b start idx d).length = b.length := List.length_modify _ _ _

/-- What a nibble in half `q` of a byte shows in half `p`. -/
theorem nibble_of_half {d p q : ℕ} (hd : d < 16) (hp : p < 2) (hq : q < 2) :
    d <<< (4 * q) >>> (4 * p) &&& 15 = if p = q then d else 0 := by
  have h : ∀ d < 16, ∀ p < 2, ∀ q < 2,
      d <<< (4 * q) >>> (4 * p) &&& 15 = if p = q then d else 0 := by decide
  exact h d hd p hp q hq

/-- ORing a nibble into a slot changes that slot only (R97). -/
theorem nibbleAt_orNibble {b : List Byte} {start idx d : ℕ} (hlen : start + idx / 2 < b.length)
    (hd : d < 16) (j : ℕ) : nibbleAt (orNibble b start idx d) start j =
      if j = idx then nibbleAt b start j ||| d else nibbleAt b start j := by
  have hp := Nat.mod_lt j two_pos
  have hq := Nat.mod_lt idx two_pos
  unfold nibbleAt
  rw [hashByte_orNibble _ _ _ _ _ hlen]
  by_cases hbyte : j / 2 = idx / 2
  · have hfit : d <<< (4 * (idx % 2)) < 256 := by
      rw [Nat.shiftLeft_eq]
      calc d * 2 ^ (4 * (idx % 2)) < 16 * 2 ^ 4 :=
            Nat.mul_lt_mul_of_lt_of_le hd (Nat.pow_le_pow_right two_pos (by omega)) (by decide)
        _ = 256 := rfl
    rw [if_pos (by rw [hbyte]), BitVec.toNat_or, BitVec.toNat_ofNat, Nat.mod_eq_of_lt hfit,
      Nat.shiftRight_or_distrib, Nat.and_or_distrib_right, nibble_of_half hd hp hq]
    by_cases hj : j = idx
    · rw [if_pos hj, if_pos (by rw [hj])]
    · rw [if_neg hj, if_neg (by omega), Nat.or_zero]
  · rw [if_neg (by omega), if_neg (by rintro rfl; exact hbyte rfl)]

/-- Slots outside the written ones keep their nibbles (R98). -/
theorem nibbleAt_writeNibbles_of_not_mem {b : List Byte} {start idx : ℕ} {ds : List ℕ}
    (hds : ∀ d ∈ ds, d < 16) (hlen : start + (idx + ds.length + 1) / 2 ≤ b.length) {j : ℕ}
    (hj : j < idx ∨ idx + ds.length ≤ j) :
    nibbleAt (writeNibbles b start idx ds) start j = nibbleAt b start j := by
  induction ds generalizing b idx with
  | nil => rfl
  | cons d ds ih =>
    rw [List.length_cons] at hlen hj
    rw [writeNibbles, ih (List.forall_mem_cons.mp hds).2 (by rw [orNibble_length]; omega) (by omega),
      nibbleAt_orNibble (by omega) (List.forall_mem_cons.mp hds).1, if_neg (by omega)]

/-- Nibbles ORed into zero slots are read back in order (R97, R98). -/
theorem nibbleAt_writeNibbles_at {b : List Byte} {start idx : ℕ} {ds : List ℕ}
    (hds : ∀ d ∈ ds, d < 16) (hlen : start + (idx + ds.length + 1) / 2 ≤ b.length)
    (hzero : ∀ j < ds.length, nibbleAt b start (idx + j) = 0) {j : ℕ} (hj : j < ds.length) :
    nibbleAt (writeNibbles b start idx ds) start (idx + j) = ds[j] := by
  induction ds generalizing b idx j with
  | nil => cases hj
  | cons d ds ih =>
    obtain ⟨hd, hds⟩ := List.forall_mem_cons.mp hds
    rw [List.length_cons] at hlen hzero hj
    have hlen' : start + (idx + 1 + ds.length + 1) / 2 ≤ (orNibble b start idx d).length := by
      rw [orNibble_length]; omega
    have hslot := fun j => nibbleAt_orNibble (b := b) (start := start) (idx := idx) (by omega) hd j
    rw [writeNibbles]
    cases j with
    | zero =>
      rw [nibbleAt_writeNibbles_of_not_mem hds hlen' (by omega), hslot, if_pos (Nat.add_zero idx),
        hzero 0 (by omega), Nat.zero_or, List.getElem_cons_zero]
    | succ j =>
      rw [show idx + (j + 1) = idx + 1 + j by omega,
        ih hds hlen' (fun i hi => ?_) (by omega), List.getElem_cons_succ]
      rw [hslot, if_neg (by omega), show idx + 1 + i = idx + (i + 1) by omega, hzero _ (by omega)]

/-- Behind the header the buffer of R139 step 6 is zero. -/
theorem hashByte_headerBuffer_of_ge (f : HeaderFields) {k : ℕ} (hk : hdrLen f.hasAlpha ≤ k) :
    hashByte (headerBuffer f) k = 0 := by
  unfold hashByte headerBuffer
  rw [List.getD_append_right _ _ _ _ (by rw [HeaderFields.toBytes_length]; exact hk),
    List.getD_eq_getElem?_getD, List.getElem?_replicate]
  split <;> rfl

theorem nibbleAt_headerBuffer (f : HeaderFields) (j : ℕ) :
    nibbleAt (headerBuffer f) (hdrLen f.hasAlpha) j = 0 := by
  rw [nibbleAt_eq, hashByte_headerBuffer_of_ge f (Nat.le_add_right _ _)]
  simp

/-- A stream behind the header: its nibbles from slot 0 on, then zeros (R65, R139). -/
theorem nibbleAt_writeNibbles_headerBuffer (f : HeaderFields) {ds : List ℕ} (hds : ∀ d ∈ ds, d < 16)
    (hfit : hdrLen f.hasAlpha + (ds.length + 1) / 2 ≤ 32) :
    (∀ (j : ℕ) (hj : j < ds.length), nibbleAt
      (writeNibbles (headerBuffer f) (hdrLen f.hasAlpha) 0 ds) (hdrLen f.hasAlpha) j = ds[j]) ∧
    ∀ j, ds.length ≤ j → nibbleAt
      (writeNibbles (headerBuffer f) (hdrLen f.hasAlpha) 0 ds) (hdrLen f.hasAlpha) j = 0 := by
  have hlen : hdrLen f.hasAlpha + (0 + ds.length + 1) / 2 ≤ (headerBuffer f).length := by
    rwa [headerBuffer_length, Nat.zero_add]
  refine ⟨fun j hj => ?_, fun j hj => ?_⟩
  · have h := nibbleAt_writeNibbles_at hds hlen (fun i _ => nibbleAt_headerBuffer f (0 + i)) hj
    rwa [Nat.zero_add] at h
  · rw [nibbleAt_writeNibbles_of_not_mem hds hlen (.inr (by omega)), nibbleAt_headerBuffer]

/-! ## The terms of a channel -/

theorem channelEncode_ac_length {S : Type} (N : Num S) (w h : ℕ) (f : List S) (nx ny : ℕ) :
    (channelEncode N w h f nx ny).ac.length = termCount nx ny := by
  unfold channelEncode normalise
  simp only
  split <;> simp [termCount]

/-- A running maximum of magnitudes stays at or above its start and every magnitude it has passed. -/
theorem le_foldl_max_abs (ac : List ℝ) (m : ℝ) :
    m ≤ ac.foldl (fun m f => max m |f|) m ∧ ∀ v ∈ ac, |v| ≤ ac.foldl (fun m f => max m |f|) m := by
  induction ac generalizing m with
  | nil => exact ⟨le_rfl, fun _ hv => nomatch hv⟩
  | cons u ac ih =>
    obtain ⟨hstart, hpassed⟩ := ih (max m |u|)
    exact ⟨(le_max_left m |u|).trans hstart,
      List.forall_mem_cons.mpr ⟨(le_max_right m |u|).trans hstart, hpassed⟩⟩

/-- The scale bounds every term (R90, R91). -/
theorem abs_le_scaleOf {ac : List ℝ} {v : ℝ} (hv : v ∈ ac) : |v| ≤ scaleOf realNum ac :=
  (le_foldl_max_abs ac 0).2 v hv

theorem normaliseTerm_real (scale c : ℝ) :
    normaliseTerm realNum scale c = 1 / 2 + 1 / 2 * c / scale := by
  simp [normaliseTerm, lit, realNum]

/-- Normalised by their own scale, terms lie between 0 and 1: either remapped by a positive scale, or
all zero (R92). -/
theorem normalise_scaleOf_mem_unit {ac : List ℝ} {v : ℝ}
    (hv : v ∈ normalise realNum (scaleOf realNum ac) ac) : 0 ≤ v ∧ v ≤ 1 := by
  unfold normalise at hv
  split at hv
  case isTrue hlt =>
    have hpos : 0 < scaleOf realNum ac := of_decide_eq_true hlt
    obtain ⟨c, hc, rfl⟩ := List.mem_map.mp hv
    obtain ⟨hlo, hhi⟩ := abs_le.mp (abs_le_scaleOf hc)
    rw [normaliseTerm_real, mul_div_assoc]
    have h1 : -1 ≤ c / scaleOf realNum ac := by rw [le_div_iff₀ hpos]; linarith
    have h2 : c / scaleOf realNum ac ≤ 1 := by rw [div_le_one hpos]; exact hhi
    constructor <;> linarith
  case isFalse hlt =>
    have hle : scaleOf realNum ac ≤ 0 := not_lt.mp fun h => hlt (decide_eq_true h)
    rw [abs_nonpos_iff.mp ((abs_le_scaleOf hv).trans hle)]
    exact ⟨le_rfl, zero_le_one⟩

theorem channelEncode_ac_mem_unit {w h nx ny : ℕ} {f : List ℝ} {v : ℝ}
    (hv : v ∈ (channelEncode realNum w h f nx ny).ac) : 0 ≤ v ∧ v ≤ 1 :=
  normalise_scaleOf_mem_unit hv

/-! ## The quantiser on the real numbers -/

/-- For an argument in the range of the field the saturation of D36 does nothing (R106). -/
theorem quantise_real {top : ℕ} {x : ℝ} (h0 : 0 ≤ x) (htop : x ≤ top) :
    ((quantise realNum top x : ℕ) : ℤ) = roundReal x := by
  have hround : roundReal x = ⌊x + 1 / 2⌋ := if_pos h0
  have hlo : 0 ≤ roundReal x := by
    rw [hround]
    exact Int.floor_nonneg.mpr (by linarith)
  have hhi : roundReal x < top + 1 := by
    rw [hround, Int.floor_lt]
    push_cast
    linarith
  have hval : quantise realNum top x = min top (roundReal x).toNat := rfl
  omega

theorem quantiseAc_real {v : ℝ} (h0 : 0 ≤ v) (h1 : v ≤ 1) :
    ((quantiseAc realNum v : ℕ) : ℤ) = roundReal (15 * v) := by
  have harg : realNum.mul (realNum.ofInt 15) v = 15 * v := by simp [realNum]
  unfold quantiseAc
  rw [harg]
  exact quantise_real (by linarith) (by push_cast; linarith)

theorem quantiseAc_lt {S : Type} (N : Num S) (v : S) : quantiseAc N v < 16 :=
  Nat.lt_succ_of_le (min_le_left _ _)

/-! ## The payload of ENCODE -/

/-- The terms in the order of the nibble stream (R64). -/
def payloadTerms {S : Type} (ch : Channels S) (hasAlpha : Bool) : List S :=
  ch.l.ac ++ ch.p.ac ++ ch.q.ac ++ (if hasAlpha then ch.a.ac else [])

theorem payloadTerms_length {S : Type} (N : Num S) (w h : ℕ) (ps : List Pixel) (lx ly : ℕ)
    (hasAlpha : Bool) :
    (payloadTerms (encodeChannels N w h ps lx ly) hasAlpha).length =
      acTotalOf hasAlpha (termCount (max minL lx) (max minL ly)) := by
  have h3 : termCount pqN pqN = 5 := by decide
  have h5 : termCount aN aN = 14 := by decide
  unfold payloadTerms encodeChannels acTotalOf
  cases hasAlpha <;> simp [channelEncode_ac_length, h3, h5]

theorem payloadTerms_mem_unit {w h lx ly : ℕ} {ps : List Pixel} {hasAlpha : Bool} {v : ℝ}
    (hv : v ∈ payloadTerms (encodeChannels realNum w h ps lx ly) hasAlpha) : 0 ≤ v ∧ v ≤ 1 := by
  simp only [payloadTerms, List.mem_append] at hv
  rcases hv with ((hv | hv) | hv) | hv
  · exact channelEncode_ac_mem_unit hv
  · exact channelEncode_ac_mem_unit hv
  · exact channelEncode_ac_mem_unit hv
  · cases hasAlpha
    case false => cases hv
    case true => exact channelEncode_ac_mem_unit hv

/-- The payload of an image fits behind the header in the 32 bytes of `HASH` (R105). -/
theorem payloadTerms_fit {S : Type} (N : Num S) {w h lx ly : ℕ} {hasAlpha : Bool} (hw : 1 ≤ w)
    (hgeom : (lx, ly) = geometry w h hasAlpha) (ps : List Pixel) :
    hdrLen hasAlpha + ((payloadTerms (encodeChannels N w h ps lx ly) hasAlpha).length + 1) / 2 ≤ 32 := by
  obtain ⟨⟨-, hlx⟩, ⟨-, hly⟩, -⟩ := geometry_bounds (h := h) hw hasAlpha
  rw [← hgeom] at hlx hly
  rw [payloadTerms_length]
  exact hashLenFor_le hlx hly

/-- Past the header, the hash ENCODE computes holds the quantised terms from slot 0 on, then zeros
(R64, R65). -/
theorem nibbleAt_encodeImage {S : Type} (N : Num S) {w h lx ly : ℕ} {hasAlpha : Bool} (hw : 1 ≤ w)
    {ps : List Pixel} {vs : List S} (halpha : hasAlpha = imageHasAlpha w h ps)
    (hgeom : (lx, ly) = geometry w h hasAlpha)
    (hvs : vs = payloadTerms (encodeChannels N w h ps lx ly) hasAlpha) :
    (∀ (j : ℕ) (hj : j < vs.length),
      nibbleAt (encodeImage N w h ps).hash (hdrLen hasAlpha) j = quantiseAc N vs[j]) ∧
    ∀ j, vs.length ≤ j → nibbleAt (encodeImage N w h ps).hash (hdrLen hasAlpha) j = 0 := by
  have hhash : (encodeImage N w h ps).hash =
      writeNibbles (headerBuffer (headerFields N (encodeChannels N w h ps lx ly) hasAlpha
        (imageIsLandscape w h) lx ly)) (hdrLen hasAlpha) 0 (vs.map (quantiseAc N)) := by
    rw [hvs]
    obtain ⟨rfl, rfl⟩ := Prod.mk.inj hgeom
    subst halpha
    exact writeChannels_stream N _ _ _
  have hfit := payloadTerms_fit N hw hgeom ps
  rw [← hvs, ← List.length_map (quantiseAc N)] at hfit
  obtain ⟨hterm, hzero⟩ := nibbleAt_writeNibbles_headerBuffer
    (headerFields N (encodeChannels N w h ps lx ly) hasAlpha (imageIsLandscape w h) lx ly)
    (List.forall_mem_map.mpr fun v _ => quantiseAc_lt N v) hfit
  simp only [List.length_map, List.getElem_map] at hterm hzero
  rw [hhash]
  exact ⟨hterm, hzero⟩

/-- What ENCODE on a size of R139 is: the checks pass, and the encoded image is stored. -/
theorem encodeWith_of_size {S : Type} (N : Num S) {s : State} {w h : ℕ} (hw : w = s.width.toNat)
    (hh : h = s.height.toNat) (hsize : 1 ≤ w ∧ w ≤ 100 ∧ 1 ≤ h ∧ h ≤ 100) :
    encodeWith N s = (s.storeEncode (encodeImage N w h (s.image (w * h)))).complete .ok := by
  subst hw hh
  unfold encodeWith
  simp only [encodeCheck_eq_none.mpr hsize]

/-- Settles O19: the bytes of `HASH` are those of the encoded image over the real numbers, whose terms
lie in the range of the quantiser. -/
theorem encodeNibbleStream : Obligations.EncodeNibbleStream := by
  intro s t w h lx ly start alpha fields ch vs nib _ hw hh hw1 hw2 hh1 hh2 halpha hgeom hfields
    hl hp hq ha hvs hstart ht hnib
  rw [encodeIsReference s, encodeWith_of_size realNum hw hh ⟨hw1, hw2, hh1, hh2⟩] at ht
  cases ht
  subst hfields
  replace hstart : start = hdrLen alpha := hstart
  replace hvs : vs = payloadTerms (encodeChannels realNum w h (s.image (w * h)) lx ly) alpha := by
    rw [hvs, hl, hp, hq]
    cases alpha
    case false => rfl
    case true => rw [ha rfl]; rfl
  have hlen := encodeImage_hash_length realNum w h (s.image (w * h))
  obtain ⟨hterm, hzero⟩ := nibbleAt_encodeImage realNum hw1 halpha hgeom hvs
  have hslot : ∀ j, start + j / 2 < 32 →
      nib j = nibbleAt (encodeImage realNum w h (s.image (w * h))).hash (hdrLen alpha) j := by
    intro j hj
    rw [hnib, nibbleAt_eq, State.complete_readByte, Nat.add_assoc, State.readByte_storeEncode s hlen hj,
      hstart]
  refine ⟨fun j hj => ?_, fun j hj hin => by rw [hslot j hin, hzero j hj]⟩
  have hunit : ∀ v ∈ vs, 0 ≤ v ∧ v ≤ 1 := by
    rw [hvs]
    exact fun _ => payloadTerms_mem_unit
  have hfit := payloadTerms_fit realNum hw1 hgeom (s.image (w * h))
  rw [← hvs, ← hstart] at hfit
  have hin : start + j / 2 < 32 := by omega
  obtain ⟨h0, h1⟩ := hunit _ (List.getElem_mem hj)
  rw [hslot j hin, hterm j hj, quantiseAc_real h0 h1]

end Sys2Proof.Machine
end

section
/-! The colour transform and the truncation geometry (40_color_transform.md) over the real numbers. -/

namespace Sys2Proof.Machine

/-! ## The operations of the colour transform -/

theorem alphaOf_real (p : Pixel) : alphaOf realNum p = p.a.toNat / 255 := by
  simp [alphaOf, realNum]

theorem weighted_real (a : ℝ) (c : Byte) : weighted realNum a c = a * a * c.toNat / 255 := by
  simp [weighted, realNum]

theorem averageOf_real (t x : ℝ) : averageOf realNum t x = if 0 < t then x / t else x := by
  simp [averageOf, realNum]

theorem blend_real (m a : ℝ) (c : Byte) :
    blend realNum m a c = m * (1 - a) + a / 255 * c.toNat := by
  simp [blend, realNum]

theorem lpqaOf_real (r g b a : ℝ) :
    lpqaOf realNum r g b a = ⟨(r + g + b) / 3, (r + g) / 2 - b, r - g, a⟩ := by
  simp [lpqaOf, realNum]

/-! ## The average colour and the blend toward it -/

/-- The total alpha of R77. -/
noncomputable def alphaSum (ps : List Pixel) : ℝ := (ps.map (alphaOf realNum)).sum

/-- The accumulated colour of R77 in one of the channels red, green and blue. -/
noncomputable def weightedSum (ps : List Pixel) (c : Pixel → Byte) : ℝ :=
  (ps.map fun p => weighted realNum (alphaOf realNum p) (c p)).sum

/-- The average of R78 in one of the channels red, green and blue. -/
noncomputable def channelAverage (ps : List Pixel) (c : Pixel → Byte) : ℝ :=
  averageOf realNum (alphaSum ps) (weightedSum ps c)

/-- The accumulation from any start: each accumulator gains its sum. -/
theorem foldl_accumulate_real (ps : List Pixel) (acc : ColorSums ℝ) :
    ps.foldl (accumulate realNum) acc =
      ⟨acc.totA + alphaSum ps, acc.r + weightedSum ps (·.r), acc.g + weightedSum ps (·.g),
        acc.b + weightedSum ps (·.b)⟩ := by
  induction ps generalizing acc with
  | nil => simp [alphaSum, weightedSum]
  | cons p ps ih =>
    rw [List.foldl_cons, ih]
    simp [accumulate, alphaSum, weightedSum, realNum, add_assoc]

theorem colorSums_real (ps : List Pixel) :
    colorSums realNum ps =
      ⟨alphaSum ps, weightedSum ps (·.r), weightedSum ps (·.g), weightedSum ps (·.b)⟩ := by
  unfold colorSums
  rw [foldl_accumulate_real]
  simp [realNum]

/-- R79 for one pixel and channel: its colour blended toward the average. -/
noncomputable def blended (ps : List Pixel) (c : Pixel → Byte) (p : Pixel) : ℝ :=
  blend realNum (channelAverage ps c) (alphaOf realNum p) (c p)

/-- R80: the matrix on the blended colour of each pixel. -/
theorem colorTransform_real (ps : List Pixel) :
    colorTransform realNum ps = ps.map fun p =>
      lpqaOf realNum (blended ps (·.r) p) (blended ps (·.g) p) (blended ps (·.b) p)
        (alphaOf realNum p) := by
  unfold colorTransform
  rw [colorSums_real]
  rfl

/-- Settles O31: the hypotheses on `al`, `mean` and `mix` are the model's alpha, average and blend. -/
theorem colorTransformIsRule : Obligations.ColorTransformIsRule := by
  intro ps al mean mix tot hal htot hmean hmix
  have hal' : al = alphaOf realNum := funext fun p => (hal p).trans (alphaOf_real p).symm
  subst hal' htot
  have hmean' : ∀ c, mean c = channelAverage ps c := fun c => by
    simp only [hmean, channelAverage, averageOf_real, alphaSum, weightedSum, weighted_real]
  have hmix' : ∀ c p, mix c p = blended ps c p := fun c p => by
    rw [hmix, hmean', blended, blend_real]
  simp only [colorTransform_real, lpqaOf_real, hmix']

/-! ## Ranges -/

theorem byte_div_255_mem_unit (c : Byte) : 0 ≤ (c.toNat : ℝ) / 255 ∧ (c.toNat : ℝ) / 255 ≤ 1 := by
  have hc : (c.toNat : ℝ) ≤ 255 := by exact_mod_cast Nat.le_of_lt_succ c.isLt
  exact ⟨by positivity, (div_le_one (by norm_num)).mpr hc⟩

theorem alphaOf_mem_unit (p : Pixel) : 0 ≤ alphaOf realNum p ∧ alphaOf realNum p ≤ 1 := by
  rw [alphaOf_real]
  exact byte_div_255_mem_unit p.a

/-- An accumulated term `a * a * c / 255` is at most `a` (R82). -/
theorem weighted_mem {a : ℝ} (h0 : 0 ≤ a) (h1 : a ≤ 1) (c : Byte) :
    0 ≤ weighted realNum a c ∧ weighted realNum a c ≤ a := by
  obtain ⟨hc0, hc1⟩ := byte_div_255_mem_unit c
  rw [weighted_real, mul_div_assoc, mul_assoc]
  exact ⟨by positivity, mul_le_of_le_one_right h0 (mul_le_one₀ h1 hc0 hc1)⟩

/-- An accumulated colour is at most the total alpha (R82). -/
theorem weightedSum_mem (ps : List Pixel) (c : Pixel → Byte) :
    0 ≤ weightedSum ps c ∧ weightedSum ps c ≤ alphaSum ps := by
  have hterm := fun p : Pixel => weighted_mem (alphaOf_mem_unit p).1 (alphaOf_mem_unit p).2 (c p)
  refine ⟨List.sum_nonneg ?_, List.sum_le_sum fun p _ => (hterm p).2⟩
  exact List.forall_mem_map.mpr fun p _ => (hterm p).1

theorem channelAverage_mem_unit (ps : List Pixel) (c : Pixel → Byte) :
    0 ≤ channelAverage ps c ∧ channelAverage ps c ≤ 1 := by
  obtain ⟨hs0, hs1⟩ := weightedSum_mem ps c
  rw [channelAverage, averageOf_real]
  split_ifs with ht
  · exact ⟨by positivity, (div_le_one ht).mpr hs1⟩
  · exact ⟨hs0, by linarith⟩

/-- A blend is a convex combination of the average and `c / 255` (R82). -/
theorem blended_mem_unit (ps : List Pixel) (c : Pixel → Byte) (p : Pixel) :
    0 ≤ blended ps c p ∧ blended ps c p ≤ 1 := by
  obtain ⟨ha0, ha1⟩ := alphaOf_mem_unit p
  have hconvex : blended ps c p =
      (1 - alphaOf realNum p) * channelAverage ps c + alphaOf realNum p * ((c p).toNat / 255) := by
    rw [blended, blend_real]
    ring
  rw [hconvex]
  exact (convex_Icc (0 : ℝ) 1) (channelAverage_mem_unit ps c) (byte_div_255_mem_unit (c p))
    (by linarith) ha0 (by ring)

/-- Settles O32: alpha and the three blended colours of a pixel lie between 0 and 1, and the rows of
the matrix of R80 carry that to the ranges. -/
theorem colorRanges : Obligations.ColorRanges := by
  intro ps v hv
  rw [colorTransform_real] at hv
  obtain ⟨p, -, rfl⟩ := List.mem_map.mp hv
  obtain ⟨ha0, ha1⟩ := alphaOf_mem_unit p
  obtain ⟨hr0, hr1⟩ := blended_mem_unit ps (·.r) p
  obtain ⟨hg0, hg1⟩ := blended_mem_unit ps (·.g) p
  obtain ⟨hb0, hb1⟩ := blended_mem_unit ps (·.b) p
  rw [lpqaOf_real]
  refine ⟨?_, ?_, ?_, ?_, ?_, ?_, ha0, ha1⟩ <;> linarith

/-! ## Truncation geometry -/

/-- The integer expression of R83 is the rounded quotient. -/
theorem roundReal_side (limit side : ℕ) {m : ℕ} (hm : 1 ≤ m) :
    roundReal ((limit * side : ℕ) / m) = ((2 * limit * side + m) / (2 * m) : ℕ) := by
  rw [roundReal_div _ _ hm, Nat.mul_assoc]

theorem geometrySide_eq_roundReal (limit side : ℕ) {m : ℕ} (hm : 1 ≤ m) :
    (geometrySide limit side m : ℤ) = max 1 (roundReal ((limit * side : ℕ) / m)) := by
  rw [roundReal_side limit side hm, geometrySide, Nat.cast_max, Nat.cast_one]

theorem imageIsLandscape_iff (w h : ℕ) : imageIsLandscape w h = true ↔ h < w :=
  decide_eq_true_iff

/-- Settles O33: each side is the rounded quotient; the side that is `m` gets the limit, and no side
is above `m`. -/
theorem geometryIsRule : Obligations.GeometryIsRule := by
  intro w h limit m alpha hw _ hlimit hmax
  replace hlimit : limit = limitOf alpha := hlimit
  have hl : 1 ≤ limit := by have := limitOf_cases alpha; omega
  have hm : 1 ≤ m := by omega
  have hgeom : geometry w h alpha = (geometrySide limit w m, geometrySide limit h m) := by
    rw [hlimit, hmax, geometry]
  rw [hgeom]
  refine ⟨geometrySide_eq_roundReal limit w hm, geometrySide_eq_roundReal limit h hm,
    roundReal_side limit w hm, imageIsLandscape_iff w h, fun hhw => ?_, fun hwh => ?_,
    geometrySide_le hl (by omega) hm, geometrySide_le hl (by omega) hm⟩
  · rw [hmax, max_eq_left hhw]
    exact geometrySide_self hl hw
  · rw [hmax, max_eq_right hwh]
    exact geometrySide_self hl (hw.trans hwh)

end Sys2Proof.Machine
end

section
/-! The forward DCT (41_dct_forward.md): the term set, the projection and a channel over the real
numbers, constant fields, and the ranges that make the header fields fit. -/

namespace Sys2Proof.Machine

/-! ## The term set -/

/-- Under the triangle `cx` is below `nx`, so the scan's range cuts nothing off (R87). -/
theorem lt_of_under_triangle {nx ny cx cy : ℕ} (h : cx * ny < nx * (ny - cy)) : cx < nx :=
  Nat.lt_of_mul_lt_mul_right (h.trans_le (Nat.mul_le_mul_left nx (Nat.sub_le ny cy)))

theorem mem_termRow {nx ny cy : ℕ} {c : ℕ × ℕ} :
    c ∈ termRow nx ny cy ↔ c.2 = cy ∧ c ≠ (0, 0) ∧ c.1 * ny < nx * (ny - cy) := by
  obtain ⟨cx, cy'⟩ := c
  simp only [termRow, List.mem_map, List.mem_filter, List.mem_range, decide_eq_true_eq,
    Prod.mk.injEq, ne_eq]
  constructor
  · rintro ⟨_, ⟨-, hne, htri⟩, rfl, rfl⟩
    exact ⟨rfl, by omega, htri⟩
  · rintro ⟨rfl, hne, htri⟩
    exact ⟨cx, ⟨lt_of_under_triangle htri, by omega, htri⟩, rfl, rfl⟩

theorem mem_terms {nx ny : ℕ} {c : ℕ × ℕ} :
    c ∈ terms nx ny ↔ c.2 < ny ∧ c ≠ (0, 0) ∧ c.1 * ny < nx * (ny - c.2) := by
  simp only [terms, List.mem_flatMap, List.mem_range, mem_termRow]
  constructor
  · rintro ⟨_, hcy, rfl, hne, htri⟩
    exact ⟨hcy, hne, htri⟩
  · rintro ⟨hcy, hne, htri⟩
    exact ⟨c.2, hcy, rfl, hne, htri⟩

/-- The frequencies of a channel are below its bounds. -/
theorem lt_of_mem_terms {nx ny : ℕ} {c : ℕ × ℕ} (h : c ∈ terms nx ny) : c.1 < nx ∧ c.2 < ny := by
  obtain ⟨hcy, -, htri⟩ := mem_terms.mp h
  exact ⟨lt_of_under_triangle htri, hcy⟩

theorem termRow_pairwise (nx ny cy : ℕ) :
    (termRow nx ny cy).Pairwise fun c d => c.2 = d.2 ∧ c.1 < d.1 := by
  rw [termRow, List.pairwise_map]
  exact (List.pairwise_lt_range.filter _).imp fun h => ⟨rfl, h⟩

/-- Settles O34: membership row by row; within a row `cx` rises, and the rows come by `cy`. -/
theorem termsAreTriangle : Obligations.TermsAreTriangle := by
  intro nx ny
  refine ⟨fun cx cy => mem_terms, List.pairwise_flatMap.mpr ⟨fun cy _ => ?_, ?_⟩⟩
  · exact (termRow_pairwise nx ny cy).imp .inr
  · refine List.pairwise_lt_range.imp fun hlt c hc d hd => .inl ?_
    rwa [(mem_termRow.mp hc).1, (mem_termRow.mp hd).1]

/-- Settles O35: the scan runs for each bound of the table. -/
theorem termCountTable : Obligations.TermCountTable :=
  ⟨by decide, fun _ _ => rfl, by decide, by decide, by decide, by decide, by decide⟩

/-! ## The projection -/

theorem projCos_real (n c x : ℕ) :
    projCos realNum n c x = Real.cos (Real.pi / n * c * (x + 1 / 2)) := by
  simp [projCos, halfStep, lit, realNum]

/-- The double sum of R89 in the model's cosines. -/
theorem dctForward_eq (w h : ℕ) (f : ℕ → ℕ → ℝ) (cx cy : ℕ) :
    dctForward w h f cx cy = (∑ y ∈ Finset.range h, ∑ x ∈ Finset.range w,
      f x y * projCos realNum w cx x * projCos realNum h cy y) / (w * h) := by
  simp only [dctForward, projCos_real]

/-- A running sum over a list and a table of equal length is the sum over their indices. -/
theorem foldl_zip_table {α β : Type} (k : α × β → ℝ) (d : α) (l : List α) (t : ℕ → β) (acc : ℝ) :
    (l.zip ((List.range l.length).map t)).foldl (fun acc u => acc + k u) acc
      = acc + ∑ i ∈ Finset.range l.length, k (l.getD i d, t i) := by
  induction l generalizing t acc with
  | nil => simp
  | cons a l ih =>
    rw [List.length_cons, List.range_succ_eq_map, List.map_cons, List.map_map, List.zip_cons_cons,
      List.foldl_cons, ih, Finset.sum_range_succ', add_assoc, add_comm (k _)]
    rfl

/-- What one row adds to the running sum (R89). -/
theorem addRow_real {w : ℕ} {row : List ℝ} (hrow : row.length = w) (cx : ℕ) (cosY acc : ℝ) :
    addRow realNum (projTable realNum w cx) acc (row, cosY)
      = acc + ∑ x ∈ Finset.range w, row.getD x 0 * projCos realNum w cx x * cosY := by
  subst hrow
  exact foldl_zip_table (fun u => u.1 * u.2 * cosY) 0 row _ acc

theorem fieldRows_length {S : Type} (w h : ℕ) (f : List S) : (fieldRows w h f).length = h := by
  induction h generalizing f with
  | zero => rfl
  | succ h ih => rw [fieldRows, List.length_cons, ih]

theorem length_of_mem_fieldRows {S : Type} {w h : ℕ} {f row : List S} (hf : f.length = w * h)
    (hrow : row ∈ fieldRows w h f) : row.length = w := by
  induction h generalizing f with
  | zero => cases hrow
  | succ h ih =>
    rw [Nat.mul_succ] at hf
    rcases List.mem_cons.mp hrow with rfl | hrow
    · rw [List.length_take]; omega
    · exact ih (by rw [List.length_drop]; omega) hrow

/-- Element `x` of row `y` is element `x + y * W` of the field (R30). -/
theorem fieldRows_getD {S : Type} (d : S) {w h x y : ℕ} (f : List S) (hx : x < w) (hy : y < h) :
    ((fieldRows w h f).getD y []).getD x d = f.getD (x + y * w) d := by
  induction h generalizing f y with
  | zero => omega
  | succ h ih =>
    cases y with
    | zero => simp [fieldRows, List.getD_eq_getElem?_getD, hx]
    | succ y =>
      rw [fieldRows, List.getD_cons_succ, ih _ (by omega)]
      simp only [List.getD_eq_getElem?_getD, List.getElem?_drop]
      congr 2
      ring

/-- A field as a function of column and row (R89, R30). -/
noncomputable def fieldAt (w : ℕ) (f : List ℝ) (x y : ℕ) : ℝ := f.getD (x + y * w) 0

/-- The running sum adds one row after the other, and a row one pixel after the other. -/
theorem proj_fieldRows {w h : ℕ} {f : List ℝ} (hf : f.length = w * h) (c : ℕ × ℕ) :
    proj realNum w h (fieldRows w h f) c = dctForward w h (fieldAt w f) c.1 c.2 := by
  have hrow : ∀ (acc : ℝ), ∀ u ∈ (fieldRows w h f).zip (projTable realNum h c.2),
      addRow realNum (projTable realNum w c.1) acc u = acc + ∑ x ∈ Finset.range w,
        u.1.getD x 0 * projCos realNum w c.1 x * u.2 := fun acc u hu =>
    addRow_real (length_of_mem_fieldRows hf (List.of_mem_zip hu).1) c.1 u.2 acc
  have hrows := foldl_zip_table (fun u : List ℝ × ℝ => ∑ x ∈ Finset.range w,
    u.1.getD x 0 * projCos realNum w c.1 x * u.2) [] (fieldRows w h f) (projCos realNum h c.2) 0
  rw [fieldRows_length, zero_add] at hrows
  have hden : realNum.ofInt (w * h) = (w * h : ℝ) := by simp [realNum]
  rw [proj, List.foldl_ext _ _ _ hrow, hden, dctForward_eq]
  refine congrArg (· / (w * h : ℝ)) (hrows.trans ?_)
  refine Finset.sum_congr rfl fun y hy => Finset.sum_congr rfl fun x hx => ?_
  rw [fieldRows_getD 0 f (Finset.mem_range.mp hx) (Finset.mem_range.mp hy), fieldAt]

/-- Settles O36: the projection of the field's rows at one frequency. -/
theorem projectionIsDct : Obligations.ProjectionIsDct := fun _ _ _ cx cy hf =>
  proj_fieldRows hf (cx, cy)

/-! ## Ranges of the projection -/

theorem dctForward_congr {w h : ℕ} {f g : ℕ → ℕ → ℝ} (hfg : ∀ x < w, ∀ y < h, f x y = g x y)
    (cx cy : ℕ) : dctForward w h f cx cy = dctForward w h g cx cy := by
  refine congrArg (· / (w * h : ℝ)) ?_
  refine Finset.sum_congr rfl fun y hy => Finset.sum_congr rfl fun x hx => ?_
  rw [hfg x (Finset.mem_range.mp hx) y (Finset.mem_range.mp hy)]

theorem area_pos {w h : ℕ} (hw : 1 ≤ w) (hh : 1 ≤ h) : (0 : ℝ) < w * h := by positivity

theorem abs_fieldAt_le {f : List ℝ} {m : ℝ} (hm : 0 ≤ m) (hf : ∀ v ∈ f, |v| ≤ m) (w x y : ℕ) :
    |fieldAt w f x y| ≤ m := by
  unfold fieldAt
  rcases lt_or_ge (x + y * w) f.length with hin | hout
  · rw [List.getD_eq_getElem _ _ hin]
    exact hf _ (List.getElem_mem hin)
  · rwa [List.getD_eq_default _ _ hout, abs_zero]

theorem abs_sum_range_le {g : ℕ → ℝ} {m : ℝ} (hg : ∀ i, |g i| ≤ m) (n : ℕ) :
    |∑ i ∈ Finset.range n, g i| ≤ n * m :=
  calc |∑ i ∈ Finset.range n, g i| ≤ ∑ i ∈ Finset.range n, |g i| := Finset.abs_sum_le_sum_abs _ _
    _ ≤ (Finset.range n).card • m := Finset.sum_le_card_nsmul _ _ m fun i _ => hg i
    _ = n * m := by rw [Finset.card_range, nsmul_eq_mul]

theorem abs_projCos_le_one (n c x : ℕ) : |projCos realNum n c x| ≤ 1 := by
  rw [projCos_real]
  exact Real.abs_cos_le_one _

/-- Each cosine is at most 1 in magnitude, so a projection is at most the field's bound (R93). -/
theorem abs_dctForward_le {w h : ℕ} (hw : 1 ≤ w) (hh : 1 ≤ h) {f : ℕ → ℕ → ℝ} {m : ℝ}
    (hf : ∀ x y, |f x y| ≤ m) (cx cy : ℕ) : |dctForward w h f cx cy| ≤ m := by
  have hterm : ∀ y x, |f x y * projCos realNum w cx x * projCos realNum h cy y| ≤ m := fun y x =>
    calc |f x y * projCos realNum w cx x * projCos realNum h cy y|
        = |f x y| * |projCos realNum w cx x| * |projCos realNum h cy y| := by simp only [abs_mul]
      _ ≤ |f x y| * |projCos realNum w cx x| :=
        mul_le_of_le_one_right (by positivity) (abs_projCos_le_one h cy y)
      _ ≤ |f x y| := mul_le_of_le_one_right (abs_nonneg _) (abs_projCos_le_one w cx x)
      _ ≤ m := hf x y
  rw [dctForward_eq, abs_div, abs_of_pos (area_pos hw hh), div_le_iff₀ (area_pos hw hh)]
  calc _ ≤ (h : ℝ) * (w * m) := abs_sum_range_le (fun y => abs_sum_range_le (hterm y) w) h
    _ = m * (w * h) := by ring

/-- The indices of an image, row by row. -/
theorem sum_rows (g : ℕ → ℝ) (w h : ℕ) :
    ∑ y ∈ Finset.range h, ∑ x ∈ Finset.range w, g (x + y * w)
      = ∑ i ∈ Finset.range (w * h), g i := by
  induction h with
  | zero => simp
  | succ h ih =>
    rw [Finset.sum_range_succ, ih, Nat.mul_succ, Finset.sum_range_add, Nat.mul_comm w h]
    simp only [Nat.add_comm]

theorem sum_getD (f : List ℝ) : ∑ i ∈ Finset.range f.length, f.getD i 0 = f.sum := by
  rw [← Fin.sum_univ_getElem f, Finset.sum_range]
  exact Finset.sum_congr rfl fun i _ => List.getD_eq_getElem _ _ i.isLt

/-- The projection at `(0, 0)` is the mean: both cosines are `cos 0` (R90). -/
theorem dctForward_fieldAt_zero {w h : ℕ} {f : List ℝ} (hf : f.length = w * h) :
    dctForward w h (fieldAt w f) 0 0 = f.sum / (w * h) := by
  rw [← sum_getD, hf, ← sum_rows]
  simp [dctForward, fieldAt]

/-! ## The channel -/

/-- The AC terms of a field before the normalisation, in scan order (R90). -/
noncomputable def rawTerms (w h : ℕ) (f : List ℝ) (nx ny : ℕ) : List ℝ :=
  (terms nx ny).map fun c => dctForward w h (fieldAt w f) c.1 c.2

theorem channelEncode_real {w h : ℕ} {f : List ℝ} (hf : f.length = w * h) (nx ny : ℕ) :
    channelEncode realNum w h f nx ny =
      { nx := nx
        ny := ny
        dc := f.sum / (w * h)
        scale := scaleOf realNum (rawTerms w h f nx ny)
        ac := normalise realNum (scaleOf realNum (rawTerms w h f nx ny)) (rawTerms w h f nx ny) } := by
  have hraw : (terms nx ny).map (proj realNum w h (fieldRows w h f)) = rawTerms w h f nx ny :=
    List.map_congr_left fun c _ => proj_fieldRows hf c
  simp only [channelEncode, hraw, proj_fieldRows hf, dctForward_fieldAt_zero hf]

theorem scaleOf_nonneg (ac : List ℝ) : 0 ≤ scaleOf realNum ac := (le_foldl_max_abs ac 0).1

/-- A running maximum of magnitudes is its start or a magnitude it has passed. -/
theorem foldl_max_abs_mem (ac : List ℝ) (m : ℝ) :
    ac.foldl (fun m f => max m |f|) m = m ∨ ∃ v ∈ ac, |v| = ac.foldl (fun m f => max m |f|) m := by
  induction ac generalizing m with
  | nil => exact .inl rfl
  | cons u ac ih =>
    rw [List.foldl_cons]
    rcases ih (max m |u|) with h | ⟨v, hv, h⟩
    · rcases max_choice m |u| with hm | hu
      · exact .inl (h.trans hm)
      · exact .inr ⟨u, List.mem_cons_self, (h.trans hu).symm⟩
    · exact .inr ⟨v, List.mem_cons_of_mem u hv, h⟩

theorem scaleOf_eq_zero_iff {ac : List ℝ} : scaleOf realNum ac = 0 ↔ ∀ v ∈ ac, v = 0 := by
  refine ⟨fun h v hv => abs_nonpos_iff.mp (h ▸ abs_le_scaleOf hv), fun h => ?_⟩
  rcases foldl_max_abs_mem ac 0 with h0 | ⟨v, hv, hmax⟩
  · exact h0
  · exact hmax.symm.trans (abs_eq_zero.mpr (h v hv))

/-- The scale is attained (R91). -/
theorem scaleOf_mem (ac : List ℝ) : ac = [] ∨ ∃ v ∈ ac, |v| = scaleOf realNum ac := by
  rcases foldl_max_abs_mem ac 0 with h0 | hmem
  · cases ac with
    | nil => exact .inl rfl
    | cons u ac =>
      have hu : u = 0 := scaleOf_eq_zero_iff.mp h0 u List.mem_cons_self
      exact .inr ⟨u, List.mem_cons_self, (abs_eq_zero.mpr hu).trans h0.symm⟩
  · exact .inr hmem

theorem scaleOf_le {ac : List ℝ} {m : ℝ} (hm : 0 ≤ m) (h : ∀ v ∈ ac, |v| ≤ m) :
    scaleOf realNum ac ≤ m := by
  rcases foldl_max_abs_mem ac 0 with h0 | ⟨v, hv, hmax⟩
  · exact h0.trans_le hm
  · exact hmax.symm.trans_le (h v hv)

theorem normalise_real (scale : ℝ) (ac : List ℝ) :
    normalise realNum scale ac =
      if 0 < scale then ac.map (fun v => 1 / 2 + 1 / 2 * v / scale) else ac := by
  have hterm : normaliseTerm realNum scale = fun v => 1 / 2 + 1 / 2 * v / scale :=
    funext (normaliseTerm_real scale)
  rw [normalise, hterm]
  simp [realNum]

/-- Settles O37, by what the scale of the raw terms is. -/
theorem channelEncodeIsRule : Obligations.ChannelEncodeIsRule := by
  intro w h nx ny f raw ch _ _ hf hch hraw
  have hac : ch.ac.length = termCount nx ny := by rw [hch, channelEncode_ac_length]
  have hunit : ∀ v ∈ ch.ac, 0 ≤ v ∧ v ≤ 1 := by
    rw [hch]
    exact fun _ => channelEncode_ac_mem_unit
  replace hraw : raw = rawTerms w h f nx ny := hraw
  rw [channelEncode_real hf, ← hraw] at hch
  subst hch
  exact ⟨(dctForward_fieldAt_zero hf).symm, rfl, hac, fun _ => abs_le_scaleOf, scaleOf_mem raw,
    scaleOf_eq_zero_iff, normalise_real _ _, hunit⟩

/-! ## Constant fields -/

/-- The step of the telescope: a cosine times twice the sine of half the frequency's step. -/
theorem two_sin_mul_projCos (n c x : ℕ) :
    2 * Real.sin (Real.pi / n * c / 2) * projCos realNum n c x
      = Real.sin (Real.pi / n * c * (x + 1 : ℕ)) - Real.sin (Real.pi / n * c * x) := by
  rw [projCos_real, Real.sin_sub_sin]
  push_cast
  ring_nf

theorem sin_half_step_pos {n c : ℕ} (hc : 0 < c) (hcn : c < 2 * n) :
    0 < Real.sin (Real.pi / n * c / 2) := by
  have hn : 0 < n := by omega
  have hratio : (c : ℝ) / (2 * n) < 1 := (div_lt_one (by positivity)).mpr (by exact_mod_cast hcn)
  have hangle : Real.pi / n * c / 2 = Real.pi * (c / (2 * n)) := by field_simp
  rw [hangle]
  exact Real.sin_pos_of_pos_of_lt_pi (by positivity) (mul_lt_of_lt_one_right Real.pi_pos hratio)

/-- R94 (a), one axis: the cosines of a frequency between 0 and `2 n` cancel, as their sum times
`2 sin(pi c / 2 n)` telescopes to `sin(pi c)`. -/
theorem sum_projCos_eq_zero {n c : ℕ} (hc : 0 < c) (hcn : c < 2 * n) :
    ∑ x ∈ Finset.range n, projCos realNum n c x = 0 := by
  have hn : (n : ℝ) ≠ 0 := by exact_mod_cast (by omega : n ≠ 0)
  have htotal : Real.pi / n * c * n = c * Real.pi := by field_simp
  have htelescope :
      2 * Real.sin (Real.pi / n * c / 2) * ∑ x ∈ Finset.range n, projCos realNum n c x = 0 := by
    rw [Finset.mul_sum, Finset.sum_congr rfl fun x _ => two_sin_mul_projCos n c x,
      Finset.sum_range_sub fun x : ℕ => Real.sin (Real.pi / n * c * x), htotal,
      Real.sin_nat_mul_pi, Nat.cast_zero, mul_zero, Real.sin_zero, sub_zero]
  have hsin := sin_half_step_pos hc hcn
  exact (mul_eq_zero.mp htelescope).resolve_left (by positivity)

theorem dctForward_const (w h : ℕ) (a : ℝ) (cx cy : ℕ) :
    dctForward w h (fun _ _ => a) cx cy = a * (∑ x ∈ Finset.range w, projCos realNum w cx x)
      * (∑ y ∈ Finset.range h, projCos realNum h cy y) / (w * h) := by
  rw [dctForward_eq, Finset.mul_sum, Finset.mul_sum]
  simp only [← Finset.sum_mul]

/-- R94 (a): on one of the axes the frequency is not 0, and there the cosines cancel. -/
theorem dctForward_const_eq_zero {w h cx cy : ℕ} (hne : (cx, cy) ≠ (0, 0)) (hx : cx < 2 * w)
    (hy : cy < 2 * h) (a : ℝ) : dctForward w h (fun _ _ => a) cx cy = 0 := by
  rw [dctForward_const]
  rcases Nat.eq_zero_or_pos cx with rfl | hcx
  · rw [sum_projCos_eq_zero (Nat.pos_of_ne_zero fun h0 => hne (by rw [h0])) hy, mul_zero, zero_div]
  · rw [sum_projCos_eq_zero hcx hx, mul_zero, zero_mul, zero_div]

theorem fieldAt_replicate {w h x y : ℕ} (a : ℝ) (hx : x < w) (hy : y < h) :
    fieldAt w (List.replicate (w * h) a) x y = a := by
  have hlt : x + y * w < w * h := by nlinarith
  simp [fieldAt, List.getD_eq_getElem?_getD, hlt]

theorem rawTerms_replicate {w h nx ny : ℕ} (hw : 4 ≤ w) (hh : 4 ≤ h) (hnx : nx ≤ 7) (hny : ny ≤ 7)
    {a v : ℝ} (hv : v ∈ rawTerms w h (List.replicate (w * h) a) nx ny) : v = 0 := by
  obtain ⟨c, hc, rfl⟩ := List.mem_map.mp hv
  obtain ⟨hcx, hcy⟩ := lt_of_mem_terms hc
  rw [dctForward_congr fun x hx y hy => fieldAt_replicate a hx hy]
  exact dctForward_const_eq_zero (mem_terms.mp hc).2.1 (by omega) (by omega) a

/-- Settles O38: with sides of 4 or more every frequency is below twice the side. -/
theorem constantFieldHasNoTerms : Obligations.ConstantFieldHasNoTerms := by
  intro w h nx ny a hw hh hnx hny
  have hscale := scaleOf_eq_zero_iff.mpr fun v hv => rawTerms_replicate (a := a) hw hh hnx hny hv
  rw [channelEncode_real List.length_replicate]
  refine ⟨?_, hscale, fun v hv => ?_⟩
  · have hwh := area_pos (Nat.one_le_of_lt hw) (Nat.one_le_of_lt hh)
    rw [List.sum_replicate, nsmul_eq_mul, Nat.cast_mul, mul_div_cancel_left₀ _ hwh.ne']
  · simp only [hscale, normalise_real, lt_irrefl, if_false] at hv
    exact rawTerms_replicate hw hh hnx hny hv

/-! ## Header fields -/

/-- The mean of a field lies in every interval that holds its values (R93). -/
theorem channelEncode_dc_mem {w h : ℕ} (hw : 1 ≤ w) (hh : 1 ≤ h) {f : List ℝ}
    (hf : f.length = w * h) {lo hi : ℝ} (hv : ∀ v ∈ f, lo ≤ v ∧ v ≤ hi) (nx ny : ℕ) :
    lo ≤ (channelEncode realNum w h f nx ny).dc ∧ (channelEncode realNum w h f nx ny).dc ≤ hi := by
  have hwh := area_pos hw hh
  have hlo := List.card_nsmul_le_sum f lo fun v h => (hv v h).1
  have hhi := List.sum_le_card_nsmul f hi fun v h => (hv v h).2
  rw [hf, nsmul_eq_mul, Nat.cast_mul, mul_comm] at hlo hhi
  rw [channelEncode_real hf]
  exact ⟨(le_div_iff₀ hwh).mpr hlo, (div_le_iff₀ hwh).mpr hhi⟩

/-- The scale of a field is at most the bound of its magnitudes (R93). -/
theorem channelEncode_scale_mem {w h : ℕ} (hw : 1 ≤ w) (hh : 1 ≤ h) {f : List ℝ}
    (hlen : f.length = w * h) {m : ℝ} (hm : 0 ≤ m) (hf : ∀ v ∈ f, |v| ≤ m) (nx ny : ℕ) :
    0 ≤ (channelEncode realNum w h f nx ny).scale ∧
      (channelEncode realNum w h f nx ny).scale ≤ m := by
  rw [channelEncode_real hlen]
  refine ⟨scaleOf_nonneg _, scaleOf_le hm fun v hv => ?_⟩
  obtain ⟨c, -, rfl⟩ := List.mem_map.mp hv
  exact abs_dctForward_le hw hh (abs_fieldAt_le hm hf w) c.1 c.2

/-- One of the four channels of an image: DC and scale inherit the range of the values (R93). -/
theorem imageChannel_ranges {w h : ℕ} (hw : 1 ≤ w) (hh : 1 ≤ h) {ps : List Pixel}
    (hps : ps.length = w * h) {sel : Lpqa ℝ → ℝ} {lo : ℝ} (hlo : -1 ≤ lo)
    (hsel : ∀ v ∈ colorTransform realNum ps, lo ≤ sel v ∧ sel v ≤ 1) {nx ny : ℕ} {ch : Channel ℝ}
    (hch : ch = channelEncode realNum w h ((colorTransform realNum ps).map sel) nx ny) :
    (lo ≤ ch.dc ∧ ch.dc ≤ 1) ∧ 0 ≤ ch.scale ∧ ch.scale ≤ 1 := by
  have hlen : ((colorTransform realNum ps).map sel).length = w * h := by
    rw [List.length_map, colorTransform_real, List.length_map, hps]
  have hrange : ∀ u ∈ (colorTransform realNum ps).map sel, lo ≤ u ∧ u ≤ 1 :=
    List.forall_mem_map.mpr hsel
  subst hch
  exact ⟨channelEncode_dc_mem hw hh hlen hrange nx ny,
    channelEncode_scale_mem hw hh hlen zero_le_one
      (fun v hv => abs_le.mpr ⟨hlo.trans (hrange v hv).1, (hrange v hv).2⟩) nx ny⟩

theorem quantiseField_real (top : ℕ) {v : ℝ} (hv : 0 ≤ v ∧ v ≤ 1) :
    ((quantiseField realNum top v : ℕ) : ℤ) = roundReal (top * v) := by
  have harg : realNum.mul (realNum.ofInt top) v = top * v := by simp [realNum]
  rw [quantiseField, harg]
  exact quantise_real (mul_nonneg top.cast_nonneg hv.1) (mul_le_of_le_one_right top.cast_nonneg hv.2)

theorem quantiseChromaDc_real {v : ℝ} (hv : -1 ≤ v ∧ v ≤ 1) :
    ((quantiseChromaDc realNum v : ℕ) : ℤ) = roundReal (63 / 2 + 63 / 2 * v) := by
  obtain ⟨hlo, hhi⟩ := hv
  have harg : realNum.add (lit realNum 63 2) (realNum.mul (lit realNum 63 2) v)
      = 63 / 2 + 63 / 2 * v := by simp [realNum, lit]
  rw [quantiseChromaDc, harg]
  exact quantise_real (by linarith) (by push_cast; linarith)

/-- Settles O43: the ranges of the colour transform carry over to means and scales, and in those
ranges no quantiser saturates. -/
theorem headerFieldsFit : Obligations.HeaderFieldsFit := by
  intro w h lx ly ps ch hw hh hps hch
  have hneg : (-1 : ℝ) ≤ 0 := by norm_num
  have hl : ∀ v ∈ colorTransform realNum ps, 0 ≤ v.l ∧ v.l ≤ 1 := fun v hv => by
    obtain ⟨h0, h1, -⟩ := colorRanges ps v hv
    exact ⟨h0, h1⟩
  have hp : ∀ v ∈ colorTransform realNum ps, -1 ≤ v.p ∧ v.p ≤ 1 := fun v hv => by
    obtain ⟨-, -, h0, h1, -⟩ := colorRanges ps v hv
    exact ⟨h0, h1⟩
  have hq : ∀ v ∈ colorTransform realNum ps, -1 ≤ v.q ∧ v.q ≤ 1 := fun v hv => by
    obtain ⟨-, -, -, -, h0, h1, -⟩ := colorRanges ps v hv
    exact ⟨h0, h1⟩
  have ha : ∀ v ∈ colorTransform realNum ps, 0 ≤ v.a ∧ v.a ≤ 1 := fun v hv => by
    obtain ⟨-, -, -, -, -, -, ha⟩ := colorRanges ps v hv
    exact ha
  obtain ⟨hlDc, hlScale⟩ := imageChannel_ranges hw hh hps hneg hl (congrArg Channels.l hch)
  obtain ⟨hpDc, hpScale⟩ := imageChannel_ranges hw hh hps le_rfl hp (congrArg Channels.p hch)
  obtain ⟨hqDc, hqScale⟩ := imageChannel_ranges hw hh hps le_rfl hq (congrArg Channels.q hch)
  obtain ⟨haDc, haScale⟩ := imageChannel_ranges hw hh hps hneg ha (congrArg Channels.a hch)
  exact ⟨hlDc, hpDc, hqDc, haDc, hlScale, hpScale, hqScale, haScale, quantiseField_real 63 hlDc,
    quantiseChromaDc_real hpDc, quantiseChromaDc_real hqDc, quantiseField_real 31 hlScale,
    quantiseField_real 63 hpScale, quantiseField_real 63 hqScale, quantiseField_real 15 haDc,
    quantiseField_real 15 haScale⟩

end Sys2Proof.Machine
end

section
/-! The nibble quantiser and dequantiser (42_nibble_quantiser.md): nibbles below the header, and the
quantiser and the dequantiser of the AC terms over the real numbers. -/

namespace Sys2Proof.Machine

/-! ## Nibbles and the bytes before them -/

/-- A nibble stream changes no byte before its start (R97). -/
theorem hashByte_writeNibbles_of_lt {b : List Byte} {start idx : ℕ} {ds : List ℕ}
    (hlen : start + (idx + ds.length + 1) / 2 ≤ b.length) {k : ℕ} (hk : k < start) :
    hashByte (writeNibbles b start idx ds) k = hashByte b k := by
  induction ds generalizing b idx with
  | nil => rfl
  | cons d ds ih =>
    rw [List.length_cons] at hlen
    rw [writeNibbles, ih (by rw [orNibble_length]; omega), hashByte_orNibble _ _ _ _ _ (by omega),
      if_neg (by omega)]

/-- Settles O39: the slots written, the other slots, and the header's bytes. -/
theorem nibblesReadBack : Obligations.NibblesReadBack :=
  fun _ _ _ _ hds hlen hzero =>
    ⟨fun _ hj => nibbleAt_writeNibbles_at hds hlen hzero hj,
      fun _ hj => nibbleAt_writeNibbles_of_not_mem hds hlen hj,
      fun _ hk => hashByte_writeNibbles_of_lt hlen hk⟩

/-! ## The AC quantiser -/

/-- The cut points of the AC quantiser, one interval for each code (R99). -/
theorem quantiseAc_eq_iff {v : ℝ} (h0 : 0 ≤ v) (h1 : v ≤ 1) (d : ℕ) :
    quantiseAc realNum v = d ↔ (2 * d - 1) / 30 ≤ v ∧ v < (2 * d + 1) / 30 := by
  have hround : roundReal (15 * v) = ⌊15 * v + 1 / 2⌋ := if_pos (by linarith)
  rw [← Nat.cast_inj (R := ℤ), quantiseAc_real h0 h1, hround, Int.floor_eq_iff, Int.cast_natCast]
  constructor <;> rintro ⟨hle, hlt⟩ <;> constructor <;> linarith

/-- Settles O40: the intervals of the codes; those of 0 and 15 reach past the ends of the range, where
one of their two bounds says nothing. -/
theorem acQuantiserCutPoints : Obligations.AcQuantiserCutPoints := by
  intro v h0 h1
  refine ⟨quantiseAc_real h0 h1, ?_, fun k _ _ => quantiseAc_eq_iff h0 h1 k, ?_⟩
  · have hlo : (2 * (0 : ℕ) - 1 : ℝ) / 30 ≤ v := by push_cast; linarith
    rw [quantiseAc_eq_iff h0 h1, and_iff_right hlo]
    norm_num
  · have hhi : v < (2 * (15 : ℕ) + 1 : ℝ) / 30 := by push_cast; linarith
    rw [quantiseAc_eq_iff h0 h1, and_iff_left hhi]
    norm_num

/-! ## The AC dequantiser -/

/-- The multiple of the scale that a nibble stands for (R102). -/
theorem dequantiseAc_real (s : ℝ) (d : ℕ) : dequantiseAc realNum s d = (2 * d - 15) / 15 * s := by
  have hval : dequantiseAc realNum s d = (d / (15 / 2) - 1) * s := by
    simp [dequantiseAc, lit, realNum]
  rw [hval]
  ring

theorem abs_dequantiseAc_le {s : ℝ} (hs : 0 ≤ s) {d : ℕ} (hd : d ≤ 15) :
    |dequantiseAc realNum s d| ≤ s := by
  have hd' : (d : ℝ) ≤ 15 := by exact_mod_cast hd
  have hfactor : |(2 * (d : ℝ) - 15) / 15| ≤ 1 :=
    abs_le.mpr ⟨by linarith [d.cast_nonneg (α := ℝ)], by linarith⟩
  rw [dequantiseAc_real, abs_mul, abs_of_nonneg hs]
  exact mul_le_of_le_one_left hs hfactor

/-- No nibble stands for zero, as `2 d` is never 15 (R102). -/
theorem dequantiseAc_ne_zero {s : ℝ} (hs : 0 < s) (d : ℕ) : dequantiseAc realNum s d ≠ 0 := by
  have hodd : (2 * d : ℝ) ≠ 15 := by exact_mod_cast (by omega : 2 * d ≠ 15)
  rw [dequantiseAc_real]
  exact mul_ne_zero (div_ne_zero (sub_ne_zero.mpr hodd) (by norm_num)) hs.ne'

/-- Normalising a dequantised term by its scale gives `d / 15` (R102). -/
theorem normalise_dequantiseAc {s : ℝ} (hs : 0 < s) (d : ℕ) :
    1 / 2 + 1 / 2 * dequantiseAc realNum s d / s = d / 15 := by
  rw [dequantiseAc_real]
  field_simp
  ring

theorem quantiseAc_div_fifteen {d : ℕ} (hd : d ≤ 15) : quantiseAc realNum (d / 15) = d := by
  have hd' : (d : ℝ) ≤ 15 := by exact_mod_cast hd
  rw [quantiseAc_eq_iff (by positivity) (by linarith)]
  constructor <;> linarith

/-- Settles O41: the factor `(2 d - 15) / 15` has an odd numerator and is at most 1 in magnitude, and
the term normalises to `d / 15`, the middle of the interval of code `d`. -/
theorem acDequantiserValues : Obligations.AcDequantiserValues :=
  fun s d hs hd =>
    ⟨dequantiseAc_real s d, abs_dequantiseAc_le hs hd, fun hpos => dequantiseAc_ne_zero hpos d,
      fun hpos => by rw [normalise_dequantiseAc hpos, quantiseAc_div_fifteen hd]⟩

end Sys2Proof.Machine
end

section
/-! The header packer and parser (43_header_packer.md): packing and parsing as inverses, the parser's
checks and DECODE's errors, and the header that ENCODE writes. -/

namespace Sys2Proof.Machine

/-! ## Packing and parsing -/

/-- Every field of a header is in the range of its bits (R61 to R63, R106). -/
structure HeaderFields.Fits (f : HeaderFields) : Prop where
  lDc : f.lDc < 64
  pDc : f.pDc < 64
  qDc : f.qDc < 64
  lScale : f.lScale < 32
  geo3 : f.geo3 < 8
  pScale : f.pScale < 64
  qScale : f.qScale < 64
  aDc : f.aDc < 16
  aScale : f.aScale < 16

section
variable {f : HeaderFields} (hf : f.Fits) (rest : List Byte)
include hf

/-- The first three bytes of a packed header are `h24` (R60, R61). -/
theorem h24Of_toBytes : h24Of (f.toBytes ++ rest) =
    f.lDc + 2 ^ 6 * f.pDc + 2 ^ 12 * f.qDc + 2 ^ 18 * f.lScale + 2 ^ 23 * f.hasAlpha.toNat := by
  have h24 := HeaderFields.h24_eq hf.lDc hf.pDc hf.qDc hf.lScale
  obtain ⟨h0, h1, h2, -⟩ := f.hashByte_toBytes rest
  obtain ⟨hlDc, hpDc, hqDc, hlScale, -⟩ := hf
  have halpha := f.hasAlpha.toNat_le
  rw [h24Of_eq, h0, h1, h2]
  simp only [BitVec.toNat_ofNat, Nat.shiftRight_eq_div_pow]
  omega

/-- The next two bytes are `h16` (R60, R62). -/
theorem h16Of_toBytes : h16Of (f.toBytes ++ rest) =
    f.geo3 + 2 ^ 3 * f.pScale + 2 ^ 9 * f.qScale + 2 ^ 15 * f.isLandscape.toNat := by
  have h16 := HeaderFields.h16_eq hf.geo3 hf.pScale hf.qScale
  obtain ⟨-, -, -, h3, h4, -⟩ := f.hashByte_toBytes rest
  obtain ⟨-, -, -, -, hgeo3, hpScale, hqScale, -⟩ := hf
  have hlandscape := f.isLandscape.toNat_le
  rw [h16Of_eq, h3, h4]
  simp only [BitVec.toNat_ofNat, Nat.shiftRight_eq_div_pow]
  omega

/-- With alpha, one more byte holds the two alpha fields (R63). -/
theorem alphaByte_toBytes (halpha : f.hasAlpha = true) :
    (hashByte (f.toBytes ++ rest) 5).toNat = f.aDc + 2 ^ 4 * f.aScale := by
  obtain ⟨-, -, -, -, -, h5⟩ := f.hashByte_toBytes rest
  obtain ⟨-, -, -, -, -, -, -, haDc, haScale⟩ := hf
  rw [h5 halpha, HeaderFields.alphaByte, or_shiftLeft_eq _ _ 4 haDc, BitVec.toNat_ofNat]
  omega

end

theorem bool_toNat_injective : Function.Injective Bool.toNat := by decide

theorem byte_msb_toNat (b : Byte) : (b.getLsbD 7).toNat = b.toNat / 128 := by
  have hb := b.isLt
  rw [byte_msb_eq]
  by_cases hle : 128 ≤ b.toNat
  · rw [decide_eq_true hle, Bool.toNat_true]
    omega
  · rw [decide_eq_false hle, Bool.toNat_false]
    omega

/-- The mode bits and `GEO3` as the parts of the header words they are (R61, R62, R112). -/
theorem hashShape_eq_headerWords (b : List Byte) :
    (hashShape b).hasAlpha.toNat = h24Of b / 2 ^ 23 ∧ (hashShape b).geo3 = h16Of b % 8 ∧
      (hashShape b).isLandscape.toNat = h16Of b / 2 ^ 15 := by
  have h0 := (hashByte b 0).isLt
  have h1 := (hashByte b 1).isLt
  have h3 := (hashByte b 3).isLt
  have hgeo3 : (hashShape b).geo3 = (hashByte b 3).toNat % 8 := Nat.and_two_pow_sub_one_eq_mod _ 3
  have halpha : (hashShape b).hasAlpha.toNat = (hashByte b 2).toNat / 128 := byte_msb_toNat _
  have hlandscape : (hashShape b).isLandscape.toNat = (hashByte b 4).toNat / 128 := byte_msb_toNat _
  rw [halpha, hgeo3, hlandscape, h24Of_eq, h16Of_eq]
  refine ⟨?_, ?_, ?_⟩ <;> omega

/-- Settles O42: the header words are sums of the fields, each cut out again by its width. -/
theorem headerPackParse : Obligations.HeaderPackParse := by
  rintro f rest _ hlDc hpDc hqDc hlScale hgeo3 hpScale hqScale haDc haScale rfl
  have hf : f.Fits := ⟨hlDc, hpDc, hqDc, hlScale, hgeo3, hpScale, hqScale, haDc, haScale⟩
  obtain ⟨halpha, hgeo, hlandscape⟩ := hashShape_eq_headerWords (f.toBytes ++ rest)
  have h24 := h24Of_toBytes hf rest
  have h16 := h16Of_toBytes hf rest
  simp only [field_eq]
  refine ⟨by omega, by omega, by omega, by omega, bool_toNat_injective (by omega), by omega,
    bool_toNat_injective (by omega), by omega, by omega, fun h => ?_⟩
  have h5 := alphaByte_toBytes hf rest h
  constructor <;> omega

/-! ## The checks of the parser -/

section
variable {n : ℕ} {b : List Byte}

theorem parseShape_of_short (h : n < 5) : parseShape n b = .error .malformedLen := if_pos h

theorem parseShape_of_badGeometry (h : 5 ≤ n)
    (hg : (hashShape b).geo3 = 0 ∨ limitOf (hashShape b).hasAlpha < (hashShape b).geo3) :
    parseShape n b = .error .malformedGeom :=
  (if_neg (not_lt.mpr h)).trans (if_pos (decide_eq_true hg))

theorem parseShape_of_valid (h : 5 ≤ n) (hg1 : 1 ≤ (hashShape b).geo3)
    (hgl : (hashShape b).geo3 ≤ limitOf (hashShape b).hasAlpha) :
    parseShape n b = .ok (hashShape b) := by
  have hgood : ¬geometryBad (hashShape b).hasAlpha (hashShape b).geo3 = true := by
    rw [geometryBad, decide_eq_true_iff]
    omega
  exact (if_neg (not_lt.mpr h)).trans (if_neg hgood)

/-- DECODE's first two tests are those of ASPECT (R113, R134). -/
theorem parseFull_of_parseShape_error {c : ErrCode} (h : parseShape n b = .error c) :
    parseFull n b = .error c := by
  rw [parseFull, h]

theorem parseFull_of_below_need {sh : HashShape} (h : parseShape n b = .ok sh)
    (hneed : n < hashLenFor sh.hasAlpha sh.lx sh.ly) : parseFull n b = .error .malformedLen := by
  rw [parseFull, h]
  exact if_pos hneed

end

/-- The shape of the hash in `HASH` by its bytes (R67, R111). -/
theorem hashShape_hash {s : State} (hm : Memory.wf s.mem = true) {alpha landscape : Bool}
    {g limit : ℕ} (halpha : alpha = (s.readByte 0x42).getLsbD 7)
    (hlandscape : landscape = (s.readByte 0x44).getLsbD 7)
    (hg : g = (s.readByte 0x43).toNat % 8) (hlimit : limit = limitOf alpha) :
    hashShape s.hash = ⟨alpha, landscape, g, if landscape then limit else g,
      if landscape then g else limit⟩ := by
  have hg' : (hashByte s.hash 3).toNat &&& 7 = g := by
    rw [hg, State.hashByte_hash hm (by omega)]
    exact Nat.and_two_pow_sub_one_eq_mod _ 3
  subst halpha hlandscape hlimit
  unfold hashShape hashGeometry
  rw [hg', State.hashByte_hash hm (by omega), State.hashByte_hash hm (by omega)]
  unfold hashHasAlpha hashIsLandscape
  cases (s.readByte 0x44).getLsbD 7 <;> rfl

/-- What DECODE does on a hash that a test refuses (R155). -/
theorem exec_decode_of_error {s : State} {c : ErrCode}
    (h : parseFull s.hashLen.toNat s.hash = .error c) : exec .decode s = .next
      { s with outDim := .zero, geom := .zero, counts := .zero, status := ⟨false, true, c⟩ } := by
  rw [exec_decode, decodeWith, h]
  exact congrArg Host.Outcome.next (State.raiseErr_decode s c)

/-- Settles O22: each test refuses the hash after the tests before it passed, and every refusal raises
its code with the clearing of DECODE. -/
theorem decodeErrors : Obligations.DecodeErrors := by
  intro s alpha landscape g limit need hm halpha hlandscape hg hlimit hneed
  replace hlimit : limit = limitOf alpha := hlimit
  replace hneed : need = hashLenFor alpha (if landscape then limit else g)
    (if landscape then g else limit) := hneed
  have hshape := hashShape_hash hm halpha hlandscape hg hlimit
  refine ⟨fun hlen => ?short, fun hlen hbad => ?geometry, fun hlen hg1 hgl hlt => ?tooShort⟩
  case short => exact exec_decode_of_error (parseFull_of_parseShape_error (parseShape_of_short hlen))
  case geometry =>
    refine exec_decode_of_error (parseFull_of_parseShape_error (parseShape_of_badGeometry hlen ?_))
    rwa [hshape, ← hlimit]
  case tooShort =>
    refine exec_decode_of_error (parseFull_of_below_need (parseShape_of_valid hlen ?_ ?_) ?_)
    · rwa [hshape]
    · rwa [hshape, ← hlimit]
    · rwa [hshape, ← hneed]

/-! ## The header of ENCODE -/

section
variable {S : Type} (N : Num S)

theorem quantise_lt_succ (top : ℕ) (v : S) : quantise N top v < top + 1 :=
  Nat.lt_succ_of_le (min_le_left _ _)

/-- The quantisers saturate and the sides of an image are at most 7, so every field fits. -/
theorem headerFields_fits (ch : Channels S) (hasAlpha isLandscape : Bool) {lx ly : ℕ} (hx : lx ≤ 7)
    (hy : ly ≤ 7) : (headerFields N ch hasAlpha isLandscape lx ly).Fits := by
  have hgeo3 : (if isLandscape then ly else lx) < 8 := by split <;> omega
  have halpha : ∀ v : S, (if hasAlpha then quantiseField N 15 v else 0) < 16 := fun v => by
    split
    · exact quantise_lt_succ N 15 _
    · omega
  exact
    { lDc := quantise_lt_succ N 63 _
      pDc := quantise_lt_succ N 63 _
      qDc := quantise_lt_succ N 63 _
      lScale := quantise_lt_succ N 31 _
      geo3 := hgeo3
      pScale := quantise_lt_succ N 63 _
      qScale := quantise_lt_succ N 63 _
      aDc := halpha ch.a.dc
      aScale := halpha ch.a.scale }

variable {N} {w h lx ly : ℕ} {hasAlpha : Bool} (hw : 1 ≤ w) {ps : List Pixel} {f : HeaderFields}
  (halpha : hasAlpha = imageHasAlpha w h ps) (hgeom : (lx, ly) = geometry w h hasAlpha)
  (hf : f = headerFields N (encodeChannels N w h ps lx ly) hasAlpha (imageIsLandscape w h) lx ly)
include hw halpha hgeom hf

/-- The bytes before the nibble stream are the packed header (R139 steps 7 and 8). -/
theorem hashByte_encodeImage_of_lt {k : ℕ} (hk : k < hdrLen hasAlpha) :
    hashByte (encodeImage N w h ps).hash k = hashByte (headerBuffer f) k := by
  have hfit := payloadTerms_fit N hw hgeom ps
  obtain ⟨rfl, rfl⟩ := Prod.mk.inj hgeom
  subst halpha hf
  refine (congrArg (hashByte · k) (writeChannels_stream N _ _ _)).trans
    (hashByte_writeNibbles_of_lt ?_ hk)
  rw [List.length_map, headerBuffer_length, Nat.zero_add]
  exact hfit

/-- The header words of the hash that ENCODE computes (R107, R110), over any `NUM`. -/
theorem encodeImage_headerWords :
    h24Of (encodeImage N w h ps).hash =
        f.lDc + 2 ^ 6 * f.pDc + 2 ^ 12 * f.qDc + 2 ^ 18 * f.lScale + 2 ^ 23 * f.hasAlpha.toNat ∧
      h16Of (encodeImage N w h ps).hash =
        f.geo3 + 2 ^ 3 * f.pScale + 2 ^ 9 * f.qScale + 2 ^ 15 * f.isLandscape.toNat ∧
      (hasAlpha = true →
        (hashByte (encodeImage N w h ps).hash 5).toNat = f.aDc + 2 ^ 4 * f.aScale) := by
  have hbyte := fun k => hashByte_encodeImage_of_lt hw halpha hgeom hf (k := k)
  have hlen : 5 ≤ hdrLen hasAlpha := by cases hasAlpha <;> decide
  obtain ⟨⟨-, hlx⟩, ⟨-, hly⟩, -⟩ := geometry_bounds (h := h) hw hasAlpha
  rw [← hgeom] at hlx hly
  have hfits : f.Fits := hf ▸ headerFields_fits N _ hasAlpha (imageIsLandscape w h) hlx hly
  refine ⟨?_, ?_, fun hset => ?_⟩
  · rw [h24Of_eq, hbyte 0 (by omega), hbyte 1 (by omega), hbyte 2 (by omega), ← h24Of_eq]
    exact h24Of_toBytes hfits _
  · rw [h16Of_eq, hbyte 3 (by omega), hbyte 4 (by omega), ← h16Of_eq]
    exact h16Of_toBytes hfits _
  · rw [hbyte 5 (by rw [hset]; decide)]
    exact alphaByte_toBytes hfits _ (by rw [hf]; exact hset)

end

/-- The quantised fields of an image over the real numbers are the rounded values of R107 to R110, and
its mode bits and `GEO3` are those of R104. -/
theorem headerFields_real {w h lx ly : ℕ} (hw : 1 ≤ w) (hh : 1 ≤ h) {ps : List Pixel}
    (hps : ps.length = w * h) {hasAlpha : Bool} {ch : Channels ℝ} {f : HeaderFields}
    (hch : ch = encodeChannels realNum w h ps lx ly)
    (hf : f = headerFields realNum ch hasAlpha (imageIsLandscape w h) lx ly) :
    ((f.lDc : ℤ) = roundReal (63 * ch.l.dc) ∧ (f.pDc : ℤ) = roundReal (63 / 2 + 63 / 2 * ch.p.dc) ∧
      (f.qDc : ℤ) = roundReal (63 / 2 + 63 / 2 * ch.q.dc) ∧
      (f.lScale : ℤ) = roundReal (31 * ch.l.scale) ∧
      (f.hasAlpha.toNat : ℤ) = if hasAlpha then 1 else 0) ∧
    (f.geo3 = (if w > h then ly else lx) ∧ (f.pScale : ℤ) = roundReal (63 * ch.p.scale) ∧
      (f.qScale : ℤ) = roundReal (63 * ch.q.scale) ∧
      (f.isLandscape.toNat : ℤ) = if w > h then 1 else 0) ∧
    (hasAlpha = true →
      (f.aDc : ℤ) = roundReal (15 * ch.a.dc) ∧ (f.aScale : ℤ) = roundReal (15 * ch.a.scale)) := by
  obtain ⟨-, -, -, -, -, -, -, -, hlDc, hpDc, hqDc, hlScale, hpScale, hqScale, haDc, haScale⟩ :=
    headerFieldsFit w h lx ly ps ch hw hh hps hch
  subst hf
  refine ⟨⟨hlDc, hpDc, hqDc, hlScale, ?_⟩, ⟨?_, hpScale, hqScale, ?_⟩, fun hset => ?_⟩
  · cases hasAlpha <;> rfl
  · simp only [headerFields, imageIsLandscape, decide_eq_true_eq]
  · simp only [headerFields, imageIsLandscape]
    split <;> simp [*]
  · subst hset
    exact ⟨haDc, haScale⟩

/-- Settles O18: the first bytes of `HASH` are the header words of the encoded image over the real
numbers, whose fields are quantised without saturation. -/
theorem encodeHeaderFields : Obligations.EncodeHeaderFields := by
  intro s t w h lx ly alpha fields ch b _ hw hh hw1 hw2 hh1 hh2 halpha hgeom hfields hl hp hq ha ht hb
  rw [encodeIsReference s, encodeWith_of_size realNum hw hh ⟨hw1, hw2, hh1, hh2⟩] at ht
  cases ht
  have hpixels := State.image_length s (w * h)
  generalize s.image (w * h) = ps at *
  subst hfields
  have hbyte : ∀ k < 32, b k = (hashByte (encodeImage realNum w h ps).hash k).toNat := fun k hk => by
    rw [hb, State.complete_readByte,
      State.readByte_storeEncode s (encodeImage_hash_length realNum w h ps) hk]
  obtain ⟨h24, h16, h5⟩ := encodeImage_headerWords hw1 halpha hgeom rfl
  obtain ⟨⟨hlDc, hpDc, hqDc, hlScale, hflag⟩, ⟨hgeo3, hpScale, hqScale, hlandscape⟩, hfieldsA⟩ :=
    headerFields_real hw1 hh1 hpixels (hasAlpha := alpha) rfl rfl
  refine ⟨?_, ?_, fun hset => ?_⟩
  · rw [hbyte 0 (by omega), hbyte 1 (by omega), hbyte 2 (by omega), ← h24Of_eq, h24, hl, hp, hq]
    push_cast
    rw [hlDc, hpDc, hqDc, hlScale, hflag]
    rfl
  · rw [hbyte 3 (by omega), hbyte 4 (by omega), ← h16Of_eq, h16, hgeo3, hp, hq]
    push_cast
    rw [hpScale, hqScale, hlandscape]
    rfl
  · obtain ⟨haDc, haScale⟩ := hfieldsA hset
    rw [hbyte 5 (by omega), h5 hset, ha hset]
    push_cast
    rw [haDc, haScale]
    rfl

end Sys2Proof.Machine
end

section
/-! Reconstruction (44_reconstruction.md): the output size, and the pixels of the decoded image over the
real numbers. -/

namespace Sys2Proof.Machine

/-! ## The output size -/

/-- The integer expression of R121 is the rounded quotient. -/
theorem shortSide_eq_roundReal (alpha : Bool) (g : ℕ) :
    (shortSide alpha g : ℤ) = roundReal (32 * g / limitOf alpha) := by
  have hround := roundReal_div (32 * g) (limitOf alpha) (by linarith [limitOf_cases alpha])
  rw [← Nat.mul_assoc] at hround
  exact_mod_cast hround.symm

/-- The limits are odd, so `64 * g` is never an odd multiple of one (R121). -/
theorem shortSide_not_tie (alpha : Bool) (g : ℕ) (k : ℤ) :
    (32 * g / limitOf alpha : ℝ) ≠ k + 1 / 2 := by
  have hodd : Odd (limitOf alpha) := by cases alpha <;> decide
  have hpos : (limitOf alpha : ℝ) ≠ 0 := Nat.cast_ne_zero.mpr hodd.pos.ne'
  intro htie
  rw [div_eq_iff hpos] at htie
  have heq : (64 * g : ℤ) = (2 * k + 1) * limitOf alpha := by
    have hreal : (64 * g : ℝ) = (2 * k + 1) * limitOf alpha := by linarith
    exact_mod_cast hreal
  have hright : Odd ((2 * k + 1) * (limitOf alpha : ℤ)) :=
    (odd_two_mul_add_one k).mul ((Int.odd_coe_nat _).mpr hodd)
  rw [← heq] at hright
  exact Int.not_odd_iff_even.mpr ⟨32 * g, by ring⟩ hright

/-- A side at the limit is decoded to the longer side (R121). -/
theorem shortSide_limitOf (alpha : Bool) : shortSide alpha (limitOf alpha) = 32 := by
  cases alpha <;> decide

/-- The sides of the output by the ratio of the geometry, which is at most 1 for a portrait or square
hash (R121). -/
theorem portraitSize_eq_ratio {alpha : Bool} {g : ℕ} (hgl : g ≤ limitOf alpha) {ratio : ℝ}
    (hratio : ratio = g / limitOf alpha) :
    ((shortSide alpha g : ℤ), (32 : ℤ)) =
      if 1 < ratio then (32, roundReal (32 / ratio)) else (roundReal (32 * ratio), 32) := by
  have hle : ratio ≤ 1 := hratio ▸ div_le_one_of_le₀ (by exact_mod_cast hgl) (Nat.cast_nonneg _)
  rw [if_neg (not_lt.mpr hle), shortSide_eq_roundReal, hratio, mul_div_assoc]

/-- The ratio of a landscape hash is at least 1, and 1 when its short side is at the limit (R121). -/
theorem landscapeSize_eq_ratio {alpha : Bool} {g : ℕ} (hg1 : 1 ≤ g) (hgl : g ≤ limitOf alpha)
    {ratio : ℝ} (hratio : ratio = limitOf alpha / g) :
    ((32 : ℤ), (shortSide alpha g : ℤ)) =
      if 1 < ratio then (32, roundReal (32 / ratio)) else (roundReal (32 * ratio), 32) := by
  have hpos : (0 : ℝ) < g := by exact_mod_cast hg1
  rcases hgl.lt_or_eq with hlt | heq
  · have hgt : 1 < ratio := by
      rw [hratio, one_lt_div hpos]
      exact_mod_cast hlt
    rw [if_pos hgt, shortSide_eq_roundReal, hratio, div_div_eq_mul_div]
  · have hone : ratio = g / limitOf alpha := by rw [hratio, ← heq]
    rw [← portraitSize_eq_ratio hgl hone, heq, shortSide_limitOf]
    rfl

/-- Settles O45: the short side is the rounded quotient, the ratio says which side that is, and both
sides are at most 32. -/
theorem outputSizeIsRule : Obligations.OutputSizeIsRule := by
  refine ⟨?_, by decide, by decide⟩
  intro alpha landscape g lx ly limit ratio hlimit hg1 hgl hlx hly hratio
  obtain rfl : limit = limitOf alpha := hlimit
  obtain ⟨hw, hh⟩ := outSize_le (sh := ⟨alpha, landscape, g, lx, ly⟩) hgl
  refine ⟨?_, ?_, shortSide_not_tie alpha g, Nat.mul_le_mul hw hh⟩
  · subst hlx hly
    cases landscape
    case false => exact portraitSize_eq_ratio hgl hratio
    case true => exact landscapeSize_eq_ratio hg1 hgl hratio
  · exact (shortSide_eq_roundReal alpha g).symm

/-! ## The pixels of the decoded image -/

/-- Every pixel is evaluated by R123 from the tables of its column and row. -/
theorem exists_evalPixel_of_mem_decodeImage {S : Type} {N : Num S} {b : List Byte} {sh : HashShape}
    {p : Pixel} (hp : p ∈ decodeImage N b sh) :
    ∃ fx fy, p = evalPixel N sh (dequantiseHeader N b sh.hasAlpha)
      (readChannels N b sh (dequantiseHeader N b sh.hasAlpha)) fx fy := by
  obtain ⟨y, -, hy⟩ := List.mem_flatMap.mp hp
  obtain ⟨fx, -, rfl⟩ := List.mem_map.mp hy
  exact ⟨fx, _, rfl⟩

@[simp] theorem State.complete_outPixel (s : State) (c : ErrCode) (i : ℕ) :
    (s.complete c).outPixel i = s.outPixel i := rfl

/-- The pixels in `OUT` after a successful DECODE are those of the decoded image, over the real
numbers (R11, R140). -/
theorem outPixel_mem_decodeImage {s t : State} (ht : exec .decode s = .next t)
    (hok : t.status.err = .ok) :
    ∃ sh, parseFull s.hashLen.toNat s.hash = .ok sh ∧
      ∀ i < t.outDim.w.toNat * t.outDim.h.toNat,
        t.outPixel i ∈ decodeImage realNum s.hash sh := by
  rw [(decodeIsReference s).1] at ht
  cases ht
  obtain ⟨sh, hp, hdec⟩ := decodeWith_of_ok realNum hok
  obtain ⟨hw, hh⟩ := outDim_toNat_storeDecode (parseFull_ok hp).1 (s := s)
    (decodeImage realNum s.hash sh)
  refine ⟨sh, hp, fun i hi => ?_⟩
  rw [hdec] at hi ⊢
  rw [State.complete_outDim, hw, hh, ← decodeImage_length realNum s.hash sh] at hi
  rw [State.complete_outPixel, State.outPixel_storeDecode s sh hi]
  exact List.getElem_mem hi

/-- The alpha flag of an accepted hash is bit 7 of its byte 2 (R61). -/
theorem hasAlpha_of_parseShape {s : State} (hm : Memory.wf s.mem = true) {n : ℕ} {sh : HashShape}
    (hp : parseShape n s.hash = .ok sh) : sh.hasAlpha = (s.readByte 0x42).getLsbD 7 := by
  rw [(parseShape_ok hp).1]
  exact congrArg hashHasAlpha (State.hashByte_hash hm (by omega : 2 < 32))

/-- The scalar 1 is the member 255 (R126, R127). -/
theorem quantiseMember_one : quantiseMember realNum realNum.one = 255 := by
  have hround : roundReal (255 * max 0 (min 1 1)) = 255 := by norm_num [roundReal]
  rw [quantiseMember_real]
  exact congrArg (fun k : ℤ => BitVec.ofNat 8 k.toNat) hround

theorem evalPixel_a_of_opaque {sh : HashShape} (h : sh.hasAlpha = false) (hd : Header ℝ)
    (co : Coefficients ℝ) (fx fy : List ℝ) : (evalPixel realNum sh hd co fx fy).a = 255 := by
  have hone : (if sh.hasAlpha then evalChannel realNum fx fy hd.aDc co.a aN aN else realNum.one) =
      realNum.one := by rw [h]; rfl
  exact (congrArg (quantiseMember realNum) hone).trans quantiseMember_one

/-- Settles O28: without the flag the alpha of every pixel is the scalar 1. -/
theorem decodeOpaqueWithoutAlpha : Obligations.DecodeOpaqueWithoutAlpha := by
  intro s t hm ht hok hflag i hi
  obtain ⟨sh, hp, himage⟩ := outPixel_mem_decodeImage ht hok
  obtain ⟨fx, fy, hpixel⟩ := exists_evalPixel_of_mem_decodeImage (himage i hi)
  rw [hpixel]
  exact evalPixel_a_of_opaque ((hasAlpha_of_parseShape hm (parseFull_ok hp).1).trans hflag) _ _ fx fy

/-! ## Hashes with all scales 0 -/

/-- A channel without AC terms is its DC at every pixel (R129). -/
theorem evalChannel_of_zero_terms {ac : List ℝ} (h : ∀ v ∈ ac, v = 0) (fx fy : List ℝ) (dc : ℝ)
    (nx ny : ℕ) : evalChannel realNum fx fy dc ac nx ny = dc := by
  refine List.foldlRecOn (motive := (· = dc)) _ _ rfl fun v hv t ht => ?_
  have hzero : t.1 = 0 := h _ (List.of_mem_zip ht).1
  simp [addTerm, realNum, hzero, hv]

/-- A nibble under scale 0 stands for 0 (R102). -/
theorem channelDecode_of_zero_scale (b : List Byte) (start idx count : ℕ) :
    ∀ v ∈ (channelDecode realNum b start idx count 0).1, v = 0 := by
  refine List.forall_mem_map.mpr fun j _ => ?_
  rw [dequantiseAc_real, mul_zero]

theorem boosted_zero : boosted realNum 0 = 0 := zero_mul _

/-- All scales of a dequantised header are 0 (R129 (a)). -/
structure Header.Flat (hd : Header ℝ) : Prop where
  lScale : hd.lScale = 0
  pScale : hd.pScale = 0
  qScale : hd.qScale = 0
  aScale : hd.aScale = 0

/-- With all scales 0 a pixel is the colour of the DC values alone (R129 (a)). -/
theorem evalPixel_of_flat {hd : Header ℝ} (hf : hd.Flat) (b : List Byte) (sh : HashShape)
    (fx fy : List ℝ) :
    evalPixel realNum sh hd (readChannels realNum b sh hd) fx fy =
      pixelOf realNum hd.lDc hd.pDc hd.qDc (if sh.hasAlpha then hd.aDc else realNum.one) := by
  obtain ⟨hl, hp, hq, ha⟩ := hf
  rw [readChannels_eq realNum b sh hd rfl, hl, hp, hq, ha, boosted_zero]
  cases halpha : sh.hasAlpha <;>
    simp [evalPixel, halpha, evalChannel_of_zero_terms (channelDecode_of_zero_scale _ _ _ _)]

theorem dequantiseField_zero (top : ℕ) : dequantiseField realNum top 0 = 0 := by
  simp [dequantiseField, realNum]

/-- The scale fields of the header words are the bits named in R61 to R63. -/
theorem dequantiseHeader_flat {b : List Byte} {alpha : Bool}
    (hl : (hashByte b 2).toNat / 4 % 32 = 0) (hp : (hashByte b 3).toNat / 8 = 0)
    (hq : (hashByte b 4).toNat % 128 = 0)
    (ha : alpha = true → (hashByte b 5).toNat / 16 = 0) :
    (dequantiseHeader realNum b alpha).Flat := by
  have h0 := (hashByte b 0).isLt
  have h1 := (hashByte b 1).isLt
  have hl24 : field (h24Of b) 18 5 = 0 := by rw [field_eq, h24Of_eq]; omega
  have hp16 : field (h16Of b) 3 6 = 0 := by rw [field_eq, h16Of_eq]; omega
  have hq16 : field (h16Of b) 9 6 = 0 := by rw [field_eq, h16Of_eq]; omega
  have hscaleA : (dequantiseHeader realNum b alpha).aScale = 0 := by
    cases alpha
    case false => rfl
    case true =>
      have ha5 : field (hashByte b 5).toNat 4 4 = 0 := by
        have h5 := ha rfl
        rw [field_eq]
        omega
      exact (congrArg (dequantiseField realNum 15) ha5).trans (dequantiseField_zero 15)
  exact
    { lScale := (congrArg (dequantiseField realNum 31) hl24).trans (dequantiseField_zero 31)
      pScale := (congrArg (dequantiseField realNum 63) hp16).trans (dequantiseField_zero 63)
      qScale := (congrArg (dequantiseField realNum 63) hq16).trans (dequantiseField_zero 63)
      aScale := hscaleA }

/-- A hash that DECODE accepts is long enough for AVGCOL (R113, R114). -/
theorem averageCheck_of_parseFull {n : ℕ} {b : List Byte} {sh : HashShape}
    (hp : parseFull n b = .ok sh) : averageCheck n b = none := by
  obtain ⟨hshape, hlen⟩ := parseFull_ok hp
  have hlow := (hashLenFor_bounds hshape).1
  have h5 : ¬n < 5 := by omega
  have h6 : ¬n < 6 := by omega
  simp [averageCheck, h5, h6]

/-- AVGCOL on a hash that DECODE accepts, over the real numbers (R11, R141). -/
theorem avgRgba_of_parseFull {s u : State} {sh : HashShape}
    (hp : parseFull s.hashLen.toNat s.hash = .ok sh) (hu : exec .avgcol s = .next u) :
    u.avgRgba = averageColor realNum s.hash := by
  rw [(decodeIsReference s).2, avgcolWith, averageCheck_of_parseFull hp] at hu
  cases hu
  rfl

/-- The average colour of R132; without an alpha byte its alpha is the scalar 1 (R112). -/
theorem averageColor_eq_pixelOf {S : Type} {N : Num S} {b : List Byte} {hd : Header S}
    (hhd : hd = dequantiseHeader N b (hashShape b).hasAlpha) :
    averageColor N b = pixelOf N hd.lDc hd.pDc hd.qDc
      (if (hashShape b).hasAlpha then hd.aDc else N.one) := by
  subst hhd
  unfold averageColor dequantiseHeader
  simp only [show hashHasAlpha (hashByte b 2) = (hashShape b).hasAlpha from rfl]
  split <;> rfl

/-- Settles O29: with all scales 0 every pixel has the colour of the DC values, and so has AVGCOL, whose
checks DECODE's imply. -/
theorem flatHashDecodesToAverage : Obligations.FlatHashDecodesToAverage := by
  intro s t u hm ht hu hok hl hpq hq ha i hi
  obtain ⟨sh, hp, himage⟩ := outPixel_mem_decodeImage ht hok
  obtain ⟨fx, fy, hpixel⟩ := exists_evalPixel_of_mem_decodeImage (himage i hi)
  have hshape := (parseFull_ok hp).1
  have hbyte : ∀ k < 32, hashByte s.hash k = s.readByte (0x40 + k) :=
    fun _ hk => State.hashByte_hash hm hk
  have hflat : (dequantiseHeader realNum s.hash sh.hasAlpha).Flat := by
    refine dequantiseHeader_flat ?_ ?_ ?_ fun h => ?_
    · rwa [hbyte 2 (by omega)]
    · rwa [hbyte 3 (by omega)]
    · rwa [hbyte 4 (by omega)]
    · rw [hbyte 5 (by omega)]
      exact ha ((hasAlpha_of_parseShape hm hshape).symm.trans h)
  obtain rfl := (parseShape_ok hshape).1
  rw [hpixel, evalPixel_of_flat hflat, avgRgba_of_parseFull hp hu, averageColor_eq_pixelOf rfl]

end Sys2Proof.Machine
end

section
/-! AVGCOL (45_metadata_extractors.md): its length check, the average colour over the real numbers, and
the bytes of the hash it reads. -/

namespace Sys2Proof.Machine

/-! ## The length check -/

/-- The alpha flag is bit 7 of byte 2 (R61). -/
theorem hashHasAlpha_hash {s : State} (hm : Memory.wf s.mem = true) :
    hashHasAlpha (hashByte s.hash 2) = (s.readByte 0x42).getLsbD 7 :=
  congrArg hashHasAlpha (State.hashByte_hash hm (by omega : 2 < 32))

/-- The two checks of R131 are one test, against the length of the header. -/
theorem averageCheck_eq (n : ℕ) (b : List Byte) {alpha : Bool}
    (halpha : hashHasAlpha (hashByte b 2) = alpha) : averageCheck n b =
      if n < (if alpha then 6 else 5) then some .malformedLen else none := by
  unfold averageCheck
  rw [halpha]
  cases alpha
  case false => rfl
  case true =>
    by_cases h5 : n < 5
    · have h6 : n < 6 := by omega
      simp [h5, h6]
    · simp [h5]

/-! ## The two outcomes of the command -/

section
variable {S : Type} (N : Num S) {s : State}

theorem avgcolWith_of_refused {c : ErrCode} (h : averageCheck s.hashLen.toNat s.hash = some c) :
    avgcolWith N s = { s with avgRgba := .zero, status := ⟨false, true, c⟩ } := by
  rw [avgcolWith, h]
  exact State.raiseErr_avgcol s c

theorem avgcolWith_of_accepted (h : averageCheck s.hashLen.toNat s.hash = none) :
    avgcolWith N s =
      { s with avgRgba := averageColor N s.hash, status := ⟨false, true, .ok⟩ } := by
  rw [avgcolWith, h]
  rfl

/-- `AVG_RGBA` and `STATUS` are functions of the check and of the average colour. -/
theorem avgcolWith_congr {s' : State}
    (hcheck : averageCheck s.hashLen.toNat s.hash = averageCheck s'.hashLen.toNat s'.hash)
    (hcolor : averageColor N s.hash = averageColor N s'.hash) :
    (avgcolWith N s).avgRgba = (avgcolWith N s').avgRgba ∧
      (avgcolWith N s).status = (avgcolWith N s').status := by
  cases h : averageCheck s'.hashLen.toNat s'.hash with
  | some c =>
    rw [avgcolWith_of_refused N (hcheck.trans h), avgcolWith_of_refused N h]
    exact ⟨rfl, rfl⟩
  | none =>
    rw [avgcolWith_of_accepted N (hcheck.trans h), avgcolWith_of_accepted N h]
    exact ⟨hcolor, rfl⟩

/-! ## The average colour -/

/-- The colour by the DC fields of `h24` and of the alpha byte (R112, R132). -/
theorem averageColor_eq_dcFields (b : List Byte) {alpha : Bool}
    (halpha : hashHasAlpha (hashByte b 2) = alpha) : averageColor N b =
      pixelOf N (dequantiseField N 63 (h24Of b % 64)) (dequantiseChromaDc N (h24Of b / 2 ^ 6 % 64))
        (dequantiseChromaDc N (h24Of b / 2 ^ 12 % 64))
        (if alpha then dequantiseField N 15 ((hashByte b 5).toNat % 16) else N.one) := by
  subst halpha
  unfold averageColor dequantiseHeader
  simp only [field_eq, pow_zero, Nat.div_one]
  rfl

/-- The DC fields are in bytes 0 to 2 and, with alpha, byte 5 (R133 (a)). -/
theorem averageColor_congr {b b' : List Byte} (hdc : ∀ k < 3, hashByte b k = hashByte b' k)
    (ha : hashHasAlpha (hashByte b 2) = true → hashByte b 5 = hashByte b' 5) :
    averageColor N b = averageColor N b' := by
  have h24 : h24Of b = h24Of b' := by
    unfold h24Of
    rw [hdc 0 (by omega), hdc 1 (by omega), hdc 2 (by omega)]
  have hflag : hashHasAlpha (hashByte b' 2) = hashHasAlpha (hashByte b 2) :=
    congrArg hashHasAlpha (hdc 2 (by omega)).symm
  rw [averageColor_eq_dcFields N b rfl, averageColor_eq_dcFields N b' hflag, h24]
  cases halpha : hashHasAlpha (hashByte b 2)
  case false => rfl
  case true => rw [ha halpha]

end

theorem dequantiseField_real (top d : ℕ) : dequantiseField realNum top d = d / top := by
  simp [dequantiseField, realNum]

theorem dequantiseChromaDc_real (d : ℕ) : dequantiseChromaDc realNum d = d / (63 / 2) - 1 := by
  simp [dequantiseChromaDc, lit, realNum]

/-- The inverse colour matrix with clamp and rounding over the real numbers (R124, R125, R127). -/
theorem pixelOf_real {l p q r g b : ℝ} (a : ℝ) (hb : b = l - 2 / 3 * p)
    (hr : r = (3 * l - b + q) / 2) (hg : g = r - q) :
    pixelOf realNum l p q a = ⟨realMember r, realMember g, realMember b, realMember a⟩ := by
  have hrgb : rgbOf realNum l p q = ⟨r, g, b⟩ := by
    subst hg hr hb
    simp [rgbOf, lit, realNum]
  simp only [pixelOf, hrgb, quantiseMember_real]

/-- Settles O11: a hash as long as its header is accepted, and the dequantised DC fields are the real
quotients of R112. -/
theorem avgcolResult : Obligations.AvgcolResult := by
  intro s alpha h24 l p q a r g b hm halpha hh24 hlen hl hp hq ha hb hr hg
  have hflag := (hashHasAlpha_hash hm).trans halpha.symm
  have hcheck : averageCheck s.hashLen.toNat s.hash = none :=
    (averageCheck_eq _ _ hflag).trans (if_neg (not_lt.mpr hlen))
  have hword : h24Of s.hash = h24 := by
    rw [h24Of_eq, State.hashByte_hash hm (by omega), State.hashByte_hash hm (by omega),
      State.hashByte_hash hm (by omega)]
    exact hh24.symm
  have hcolor : averageColor realNum s.hash = pixelOf realNum l p q a := by
    rw [averageColor_eq_dcFields realNum _ hflag, hword, State.hashByte_hash hm (by omega),
      dequantiseField_real, dequantiseField_real, dequantiseChromaDc_real, dequantiseChromaDc_real,
      hl, hp, hq, ha]
    rfl
  rw [(decodeIsReference s).2, avgcolWith_of_accepted realNum hcheck, hcolor, pixelOf_real a hb hr hg]

/-- Settles O12: a hash shorter than its header is refused by the one length test. -/
theorem avgcolErrors : Obligations.AvgcolErrors := by
  intro s alpha hm halpha hlen
  have hcheck : averageCheck s.hashLen.toNat s.hash = some .malformedLen :=
    (averageCheck_eq _ _ ((hashHasAlpha_hash hm).trans halpha.symm)).trans (if_pos hlen)
  rw [exec_avgcol, avgcolWith_of_refused Exact.num hcheck]

/-- Settles O13: the length check reads `HASH_LEN` and the flag in byte 2, the colour reads the DC
fields. -/
theorem avgcolReadsDcOnly : Obligations.AvgcolReadsDcOnly := by
  intro s s' t t' hm hm' hlen hdc ha ht ht'
  cases ht
  cases ht'
  have hbytes : ∀ k < 3, hashByte s.hash k = hashByte s'.hash k := fun k hk => by
    rw [State.hashByte_hash hm (by omega), State.hashByte_hash hm' (by omega), hdc k hk]
  have hbyte5 : hashHasAlpha (hashByte s.hash 2) = true → hashByte s.hash 5 = hashByte s'.hash 5 := by
    rw [hashHasAlpha_hash hm, State.hashByte_hash hm (by omega), State.hashByte_hash hm' (by omega)]
    exact ha
  have hflag := congrArg hashHasAlpha (hbytes 2 (by omega))
  refine avgcolWith_congr Exact.num ?_ (averageColor_congr Exact.num hbytes hbyte5)
  rw [averageCheck_eq _ _ hflag, averageCheck_eq _ _ rfl, hlen]

end Sys2Proof.Machine
end

section
/-! The engine's turn and the start of a command (46_commands.md R137, R143, R144): the busy engine runs
the latched command, the idle one does nothing. -/

namespace Sys2Proof.Machine

/-! ## The engine's move -/

theorem engineMove_of_command {s : State} {i : Instr} (h : commandOf s.cmdLatch = some i) :
    engineMove s = exec i s := by
  rcases engineMove_cases s with ⟨j, hj, hmove⟩ | ⟨hnone, -⟩
  · obtain rfl := Option.some.inj (h.symm.trans hj)
    exact hmove
  · cases h.symm.trans hnone

theorem engineMove_of_reserved {s : State} (h : 4 < s.cmdLatch.toNat) :
    engineMove s = .next { s with status := ⟨false, true, .badCmd⟩ } := by
  have hnone := (commandOf_eq_none_iff _).mpr h
  rcases engineMove_cases s with ⟨i, hi, -⟩ | ⟨-, hmove⟩
  · cases hnone.symm.trans hi
  · exact hmove

theorem engineTurn_of_busy {s : State} (hb : s.status.busy = true) : engineTurn s = engineMove s :=
  if_pos hb

/-! ## Whose step it is -/

theorem step_of_busy {s : State} (ht : s.turns = []) (hb : s.status.busy = true) :
    step s = engineMove s := by
  simp [step, nextMove, nextMoveBy, engineMove, ht, hb]

theorem step_of_busy_turn {s : State} {rest : List Turn} (ht : s.turns = .engine :: rest)
    (hb : s.status.busy = true) : step s = engineMove { s with turns := rest } := by
  simp [step, nextMove, nextMoveBy, engineTurnBy, engineMove, ht, hb]

theorem step_of_idle_turn {s : State} {rest : List Turn} (ht : s.turns = .engine :: rest)
    (hb : s.status.busy = false) : step s = .next { s with turns := rest } := by
  simp [step, nextMove, nextMoveBy, engineTurnBy, ht, hb]

/-- With nothing to complete the port's move changes nothing. -/
theorem State.hostMove_of_no_port {s : State} (hp : s.port = []) : s.hostMove = s := by
  simp [State.hostMove, hp]

/-! ## A command placed for the next step -/

theorem commandOf_encode (i : Instr) : commandOf (encode i) = some i := by
  rw [commandOf, decodeCommand_encode]

theorem tableWord_toNat (w : Word) : tableWord 32 w.toNat = w := by
  rw [tableWord, Nat.mod_eq_of_lt w.isLt, BitVec.ofNat_toNat, BitVec.setWidth_eq]

/-- The engine's turn is the very next one, and the turns after it are those there were. -/
theorem step_withFetchWord (s : State) (w : Word) :
    step (s.withFetchWord 32 w.toNat) = engineMove (s.start w) := by
  rw [State.withFetchWord, tableWord_toNat]
  exact step_of_busy_turn rfl rfl

/-- Settles O4: a step at the engine's turn, or of a busy engine with no turn named, is the engine's
move, and that is the command the latch selects or the refusal of a reserved word. -/
theorem stepRunsLatchedCommand : Obligations.StepRunsLatchedCommand := by
  refine ⟨fun s i hb hi => ⟨fun ht => ?_, fun rest ht => ?_⟩,
    fun s hb hw => ⟨fun ht => ?_, fun rest ht => ?_⟩, fun s i => ?_⟩
  · exact (step_of_busy ht hb).trans (engineMove_of_command hi)
  · exact (step_of_busy_turn ht hb).trans (engineMove_of_command hi)
  · exact (step_of_busy ht hb).trans (engineMove_of_reserved hw)
  · exact (step_of_busy_turn ht hb).trans (engineMove_of_reserved hw)
  · exact (step_withFetchWord s _).trans (engineMove_of_command (commandOf_encode i))

/-- Settles O7: an idle engine's turn, and the move of a port that has nothing to complete. -/
theorem idleEngineDoesNothing : Obligations.IdleEngineDoesNothing := by
  refine fun s hb => ⟨fun rest ht => step_of_idle_turn ht hb, fun ht hp => ?_⟩
  rw [step_of_idle ht hb, State.hostMove_of_no_port hp]

/-! ## The start of a command -/

theorem State.transact_write_cmd (s : State) (w : Word) :
    s.transact (.write 0x04 4 w) = (.write .okay, s.start w) :=
  State.transact_write_of_locate (loc := .cmd) rfl rfl

/-- Settles O5: the write starts the word, which the busy engine's turn then refuses. -/
theorem reservedWordCompletes : Obligations.ReservedWordCompletes := fun s w hw =>
  ⟨s.transact_write_cmd w, (engineTurn_of_busy rfl).trans (engineMove_of_reserved hw)⟩

/-- Settles O52: an idle engine holds no transaction, a busy one every write. -/
theorem cmdWriteStartsCommand : Obligations.CmdWriteStartsCommand := by
  refine fun s w rest hp => ⟨fun hb => ?_, fun hb => State.hostMove_of_held hp ?_⟩
  · rw [State.hostMove_of_idle hp hb, State.transact_write_cmd]
    rfl
  · simp [State.held, hb, Transaction.isStatusRead]

/-- Settles O9: NOP is the completion alone. -/
theorem nopCompletes : Obligations.NopCompletes := fun _ => rfl

end Sys2Proof.Machine
end

section
/-! The commands that write registers alone: the outcomes of ASPECT (R134, R142), and the frame of NOP,
AVGCOL and ASPECT (R138, R141, R142). -/

namespace Sys2Proof.Machine

/-! ## ASPECT -/

section
variable {s : State}

theorem exec_aspect_of_error {c : ErrCode} (h : parseShape s.hashLen.toNat s.hash = .error c) :
    exec .aspect s = .next { s with aspect := .zero, status := ⟨false, true, c⟩ } := by
  simp only [exec, execAspect, h, State.raiseErr_aspect]

theorem exec_aspect_of_ok {sh : HashShape} (h : parseShape s.hashLen.toNat s.hash = .ok sh) :
    exec .aspect s = .next { s with aspect := aspectOf sh, status := ⟨false, true, .ok⟩ } := by
  simp only [exec, execAspect, h]
  rfl

end

/-- Settles O10: the parser's two checks decide between the three outcomes, and the shape of the hash
holds the unfloored pair. -/
theorem aspectIsRule : Obligations.AspectIsRule := by
  intro s alpha landscape g limit hm halpha hlandscape hg hlimit
  replace hlimit : limit = limitOf alpha := hlimit
  have hshape := hashShape_hash hm halpha hlandscape hg hlimit
  refine ⟨fun hlen hg1 hgl => ?valid, fun hlen => ?short, fun hlen hbad => ?geometry⟩
  case valid =>
    rw [exec_aspect_of_ok (parseShape_of_valid hlen (by rwa [hshape]) (by rwa [hshape, ← hlimit])),
      hshape]
    rfl
  case short => exact exec_aspect_of_error (parseShape_of_short hlen)
  case geometry =>
    exact exec_aspect_of_error (parseShape_of_badGeometry hlen (by rwa [hshape, ← hlimit]))

/-! ## The frame of NOP, AVGCOL and ASPECT -/

/-- Everything AVGCOL can do: it writes `AVG_RGBA` and `STATUS`. -/
theorem exec_avgcol_frame (s : State) :
    ∃ p c, exec .avgcol s = .next { s with avgRgba := p, status := ⟨false, true, c⟩ } := by
  rw [exec_avgcol]
  cases h : averageCheck s.hashLen.toNat s.hash with
  | some c => exact ⟨_, _, congrArg _ (avgcolWith_of_refused Exact.num h)⟩
  | none => exact ⟨_, _, congrArg _ (avgcolWith_of_accepted Exact.num h)⟩

/-- Everything ASPECT can do: it writes `ASPECT` and `STATUS`. -/
theorem exec_aspect_frame (s : State) :
    ∃ x c, exec .aspect s = .next { s with aspect := x, status := ⟨false, true, c⟩ } := by
  cases h : parseShape s.hashLen.toNat s.hash with
  | error c => exact ⟨_, _, exec_aspect_of_error h⟩
  | ok sh => exact ⟨_, _, exec_aspect_of_ok h⟩

theorem exec_header_frame {i : Instr} (hi : i = .nop ∨ i = .avgcol ∨ i = .aspect) (s : State) :
    ∃ p x c, exec i s = .next { s with avgRgba := p, aspect := x, status := ⟨false, true, c⟩ } ∧
      (i ≠ .avgcol → p = s.avgRgba) ∧ (i ≠ .aspect → x = s.aspect) := by
  rcases hi with rfl | rfl | rfl
  · exact ⟨_, _, _, nopCompletes s, fun _ => rfl, fun _ => rfl⟩
  · obtain ⟨p, c, h⟩ := exec_avgcol_frame s
    exact ⟨p, _, c, h, fun hne => absurd rfl hne, fun _ => rfl⟩
  · obtain ⟨x, c, h⟩ := exec_aspect_frame s
    exact ⟨_, x, c, h, fun _ => rfl, fun hne => absurd rfl hne⟩

/-- Settles O14: what the three commands write leaves every other field as it was. -/
theorem headerCommandsFrame : Obligations.HeaderCommandsFrame := by
  intro i s t hi ht
  obtain ⟨p, x, c, h, havg, haspect⟩ := exec_header_frame hi s
  rw [h] at ht
  cases ht
  exact ⟨fun _ => rfl, rfl, rfl, rfl, rfl, rfl, rfl, rfl, havg, haspect, rfl, rfl, rfl, rfl⟩

end Sys2Proof.Machine
end

section
/-! ENCODE as a function of its operands (46_commands.md R139, R150): the outcome of an image, its errors,
its frame, and what of a transparent pixel it does not see. -/

namespace Sys2Proof.Machine

/-! ## The outcome of an image -/

/-- The empty result, which a failed ENCODE writes (R155). -/
def EncodeResult.empty : EncodeResult := ⟨List.replicate hashCap 0, 0, .zero, .zero⟩

section
variable {S : Type} (N : Num S)

/-- What ENCODE writes for an image, and its code (R139): a function of the operands alone (R150). -/
def encodeOutcome (w h : ℕ) (ps : List Pixel) : EncodeResult × ErrCode :=
  match encodeCheck w h with
  | some c => (.empty, c)
  | none => (encodeImage N w h ps, .ok)

theorem encodeOutcome_of_refused {w h : ℕ} {c : ErrCode} (hc : encodeCheck w h = some c)
    (ps : List Pixel) : encodeOutcome N w h ps = (.empty, c) := by
  rw [encodeOutcome, hc]

theorem encodeOutcome_of_accepted {w h : ℕ} (hc : encodeCheck w h = none) (ps : List Pixel) :
    encodeOutcome N w h ps = (encodeImage N w h ps, .ok) := by
  rw [encodeOutcome, hc]

/-- Clearing the results of ENCODE is storing the empty one, so both ways of ENCODE are one store and
the completion. -/
theorem encodeWith_eq_store {s : State} {o : EncodeResult × ErrCode}
    (ho : o = encodeOutcome N s.width.toNat s.height.toNat
      (s.image (s.width.toNat * s.height.toNat))) :
    encodeWith N s = (s.storeEncode o.1).complete o.2 := by
  subst ho
  unfold encodeWith
  cases hc : encodeCheck s.width.toNat s.height.toNat with
  | some c =>
    simp only [encodeOutcome_of_refused N hc, hc]
    rfl
  | none => simp only [encodeOutcome_of_accepted N hc, hc]

/-- Whatever the outcome, all 32 bytes of `HASH` are written. -/
theorem encodeOutcome_hash_length (w h : ℕ) (ps : List Pixel) :
    (encodeOutcome N w h ps).1.hash.length = 32 := by
  cases hc : encodeCheck w h with
  | some c => rw [encodeOutcome_of_refused N hc]; rfl
  | none => rw [encodeOutcome_of_accepted N hc]; exact encodeImage_hash_length N w h ps

end

/-! ## Errors and frame -/

/-- The code of the first test that fails (R154). -/
theorem encodeCheck_of_bad {w h : ℕ} (hbad : w > 100 ∨ h > 100 ∨ w = 0 ∨ h = 0) :
    encodeCheck w h = some (if w > 100 ∨ h > 100 then .tooLarge else .emptyImage) := by
  unfold encodeCheck maxDim
  by_cases hlarge : w > 100 ∨ h > 100
  · rw [if_pos hlarge, if_pos hlarge]
  · rw [if_neg hlarge, if_neg hlarge, if_pos (by omega)]

theorem hashByte_empty (k : ℕ) : hashByte EncodeResult.empty.hash k = 0 := by
  show (List.replicate 32 (0 : Byte)).getD k 0 = 0
  rw [List.getD_eq_getElem?_getD, List.getElem?_replicate]
  split <;> rfl

/-- Settles O15: the outcome of a refused size is the empty result with the code of the test. -/
theorem encodeErrors : Obligations.EncodeErrors := by
  intro s hbad
  have ho := encodeOutcome_of_refused Exact.num (encodeCheck_of_bad hbad)
    (s.image (s.width.toNat * s.height.toNat))
  refine ⟨_, by rw [exec_encode, encodeWith_eq_store Exact.num ho.symm], rfl, fun k hk => ?_, rfl, rfl,
    rfl⟩
  rw [State.complete_readByte, State.readByte_storeEncode s rfl hk, hashByte_empty]

/-- Settles O20: the one store of either outcome is to `HASH` and the result registers. -/
theorem encodeFrame : Obligations.EncodeFrame := by
  intro s t ht
  rw [exec_encode, encodeWith_eq_store Exact.num rfl] at ht
  cases ht
  exact ⟨fun k hk => State.readByte_storeEncode_of_not_mem s (encodeOutcome_hash_length _ _ _ _) hk,
    rfl, rfl, rfl, rfl, rfl, rfl, rfl, rfl, rfl, rfl⟩

/-! ## Success -/

/-- The integer form of R81: the alpha values fall short of 255 in all exactly when one of them does. -/
theorem sum_alpha_lt_iff (ps : List Pixel) :
    (ps.map fun p => p.a.toNat).sum < 255 * ps.length ↔ ∃ p ∈ ps, p.a ≠ 255 := by
  induction ps with
  | nil => simp
  | cons p ps ih =>
    have hle : (ps.map fun p => p.a.toNat).sum ≤ 255 * ps.length := by
      simpa [Nat.mul_comm] using List.sum_le_card_nsmul (ps.map fun p => p.a.toNat) 255
        (List.forall_mem_map.mpr fun q _ => Nat.le_of_lt_succ q.a.isLt)
    have hp := p.a.isLt
    have hopaque : p.a = 255 ↔ p.a.toNat = 255 := BitVec.toNat_inj.symm
    rw [List.exists_mem_cons_iff, ← ih, ne_eq, hopaque, List.map_cons, List.sum_cons, List.length_cons]
    omega

/-- The alpha flag of the image in `PIX` (R81). -/
theorem imageHasAlpha_image_iff {s : State} (hm : Memory.wf s.mem = true) (w h : ℕ) :
    imageHasAlpha w h (s.image (w * h)) = true ↔
      ∃ i < w * h, s.readByte (0x10000 + 4 * i + 3) ≠ 255 := by
  have hsum := sum_alpha_lt_iff (s.image (w * h))
  rw [State.image_length, ← Nat.mul_assoc] at hsum
  rw [imageHasAlpha, decide_eq_true_iff, hsum, State.image_eq hm]
  simp only [List.mem_map, List.mem_range, exists_exists_and_eq_and]
  rfl

/-- `HASH_LEN` holds the length of the encoded hash whole (R24, R105). -/
theorem hashLen_toNat_storeEncode {S : Type} (N : Num S) (s : State) {w : ℕ} (h : ℕ) (hw : 1 ≤ w)
    (ps : List Pixel) :
    (s.storeEncode (encodeImage N w h ps)).hashLen.toNat = (encodeImage N w h ps).hashLen := by
  obtain ⟨⟨-, hlx⟩, ⟨-, hly⟩, -⟩ := geometry_bounds (h := h) hw (imageHasAlpha w h ps)
  exact Nat.mod_eq_of_lt (Nat.lt_of_le_of_lt (hashLenFor_le hlx hly) (by decide))

/-- What a successful ENCODE is (R139): the size passed the checks, and the encoded image is stored. -/
theorem encodeWith_of_ok {S : Type} {N : Num S} {s : State} {w h : ℕ} (hw : w = s.width.toNat)
    (hh : h = s.height.toNat) (hok : (encodeWith N s).status.err = .ok) :
    (1 ≤ w ∧ w ≤ 100 ∧ 1 ≤ h ∧ h ≤ 100) ∧
      encodeWith N s = (s.storeEncode (encodeImage N w h (s.image (w * h)))).complete .ok := by
  have hsize : 1 ≤ w ∧ w ≤ 100 ∧ 1 ≤ h ∧ h ≤ 100 := by
    subst hw hh
    by_contra hbad
    have hrefused := encodeCheck_of_bad (w := s.width.toNat) (h := s.height.toNat) (by omega)
    have ho := encodeOutcome_of_refused N hrefused (s.image (s.width.toNat * s.height.toNat))
    rw [encodeWith_eq_store N ho.symm, State.complete_status] at hok
    split at hok <;> cases hok
  exact ⟨hsize, encodeWith_of_size N hw hh hsize⟩

/-- Settles O16: the outcome is the encoded image, whose sides are the rounded quotients of R83. -/
theorem encodeCompletes : Obligations.EncodeCompletes := by
  intro s w h limit lx ly cntL acTotal alpha hm hw hh hw1 hw2 hh1 hh2 halpha hlimit hlx hly hcnt htotal
  have hmax : 1 ≤ max w h := le_max_of_le_left hw1
  replace hlimit : limit = limitOf alpha := hlimit
  replace halpha : imageHasAlpha w h (s.image (w * h)) = alpha :=
    Bool.eq_iff_iff.mpr ((imageHasAlpha_image_iff hm w h).trans halpha.symm)
  have hgeom : geometry w h alpha = (lx, ly) := by
    rw [← geometrySide_eq_roundReal limit _ hmax, Nat.cast_inj, hlimit] at hlx hly
    rw [hlx, hly, geometry]
  refine ⟨_, (exec_encode s).trans (congrArg _ (encodeWith_of_size Exact.num hw hh
    ⟨hw1, hw2, hh1, hh2⟩)), rfl, ?_, ?_, ?_⟩
  · simp only [State.complete_geom, State.storeEncode_geom, encodeImage, halpha, hgeom]
    rfl
  · subst hcnt htotal
    simp only [State.complete_counts, State.storeEncode_counts, encodeImage, halpha, hgeom]
    rfl
  · subst hcnt htotal
    rw [State.complete_hashLen, hashLen_toNat_storeEncode Exact.num s h hw1]
    simp only [encodeImage, halpha, hgeom]
    rfl

/-! ## The colour of transparent pixels -/

/-- Two pixels that ENCODE does not tell apart (R82): the same pixel, or both transparent. -/
def Pixel.Alike (p q : Pixel) : Prop := p.a = q.a ∧ (p.a ≠ 0 → p = q)

theorem forall₂_map_eq {α β γ : Type} {R : α → β → Prop} {f : α → γ} {g : β → γ} {l : List α}
    {m : List β} (h : List.Forall₂ R l m) (hfg : ∀ a b, R a b → f a = g b) : l.map f = m.map g := by
  induction h with
  | nil => rfl
  | cons hab _ ih => rw [List.map_cons, List.map_cons, hfg _ _ hab, ih]

theorem Pixel.Alike.alphaOf_eq {p q : Pixel} (h : p.Alike q) : alphaOf realNum p = alphaOf realNum q := by
  rw [alphaOf_real, alphaOf_real, h.1]

/-- A transparent pixel has alpha 0, so a term that its alpha multiplies vanishes. -/
theorem Pixel.Alike.cases {p q : Pixel} (h : p.Alike q) :
    p = q ∨ (alphaOf realNum p = 0 ∧ alphaOf realNum q = 0) := by
  by_cases ha : p.a = 0
  · have h0 : alphaOf realNum p = 0 := by simp [alphaOf_real, ha]
    exact .inr ⟨h0, h.alphaOf_eq.symm.trans h0⟩
  · exact .inl (h.2 ha)

theorem Pixel.Alike.weighted_eq {p q : Pixel} (h : p.Alike q) (c : Pixel → Byte) :
    weighted realNum (alphaOf realNum p) (c p) = weighted realNum (alphaOf realNum q) (c q) := by
  rcases h.cases with rfl | ⟨hp, hq⟩
  · rfl
  · rw [hp, hq, weighted_real, weighted_real]
    simp

theorem Pixel.Alike.blend_eq {p q : Pixel} (h : p.Alike q) (c : Pixel → Byte) (m : ℝ) :
    blend realNum m (alphaOf realNum p) (c p) = blend realNum m (alphaOf realNum q) (c q) := by
  rcases h.cases with rfl | ⟨hp, hq⟩
  · rfl
  · rw [hp, hq, blend_real, blend_real]
    simp

section
variable {ps qs : List Pixel} (halike : List.Forall₂ Pixel.Alike ps qs)
include halike

theorem channelAverage_of_alike (c : Pixel → Byte) : channelAverage ps c = channelAverage qs c := by
  unfold channelAverage alphaSum weightedSum
  rw [forall₂_map_eq halike fun _ _ hpq => hpq.alphaOf_eq,
    forall₂_map_eq halike fun _ _ hpq => hpq.weighted_eq c]

/-- The colour transform does not see the colour of transparent pixels (R82). -/
theorem colorTransform_of_alike : colorTransform realNum ps = colorTransform realNum qs := by
  rw [colorTransform_real, colorTransform_real]
  refine forall₂_map_eq halike fun p q hpq => ?_
  have hblended : ∀ c, blended ps c p = blended qs c q := fun c => by
    rw [blended, blended, channelAverage_of_alike halike, hpq.blend_eq]
  rw [hblended, hblended, hblended, hpq.alphaOf_eq]

theorem encodeImage_of_alike (w h : ℕ) : encodeImage realNum w h ps = encodeImage realNum w h qs := by
  have halpha : imageHasAlpha w h ps = imageHasAlpha w h qs := by
    unfold imageHasAlpha
    rw [forall₂_map_eq halike fun _ _ (hpq : Pixel.Alike _ _) => congrArg BitVec.toNat hpq.1]
  unfold encodeImage encodeChannels
  rw [halpha, colorTransform_of_alike halike]

theorem encodeOutcome_of_alike (w h : ℕ) :
    encodeOutcome realNum w h ps = encodeOutcome realNum w h qs := by
  unfold encodeOutcome
  rw [encodeImage_of_alike halike]

end

/-- Settles O21: the images are alike, so the outcomes are one, stored to two states. -/
theorem encodeIsPure : Obligations.EncodeIsPure := by
  intro s s' t t' hm hm' hw hh hpix ht ht'
  have halike : List.Forall₂ Pixel.Alike (s.image (s.width.toNat * s.height.toNat))
      (s'.image (s.width.toNat * s.height.toNat)) := by
    rw [State.image_eq hm, State.image_eq hm', List.forall₂_map_left_iff, List.forall₂_map_right_iff,
      List.forall₂_same]
    intro i hi
    obtain ⟨ha, hcolour⟩ := hpix i (List.mem_range.mp hi)
    refine ⟨ha, fun hne => ?_⟩
    have hc := hcolour hne
    exact (Pixel.mk.injEq ..).mpr ⟨hc 0 (by omega), hc 1 (by omega), hc 2 (by omega), ha⟩
  have hout := encodeOutcome_of_alike halike s.width.toNat s.height.toNat
  rw [encodeIsReference, encodeWith_eq_store realNum hout.symm] at ht
  rw [encodeIsReference, encodeWith_eq_store realNum rfl, ← hw, ← hh] at ht'
  cases ht
  cases ht'
  have hlen := encodeOutcome_hash_length realNum s.width.toNat s.height.toNat
    (s'.image (s.width.toNat * s.height.toNat))
  refine ⟨fun k hk => ?_, rfl, rfl, rfl, rfl⟩
  rw [State.complete_readByte, State.complete_readByte, State.readByte_storeEncode s hlen hk,
    State.readByte_storeEncode s' hlen hk]

end Sys2Proof.Machine
end

section
/-! DECODE as a whole (46_commands.md R140, R149): its results on an accepted hash, its frame, and the
round trip after ENCODE. -/

namespace Sys2Proof.Machine

/-! ## Accepted hashes -/

theorem parseFull_of_need {n : ℕ} {b : List Byte} {sh : HashShape} (h : parseShape n b = .ok sh)
    (hneed : hashLenFor sh.hasAlpha sh.lx sh.ly ≤ n) : parseFull n b = .ok sh := by
  rw [parseFull, h]
  exact if_neg (not_lt.mpr hneed)

theorem exec_decode_of_ok {s : State} {sh : HashShape}
    (h : parseFull s.hashLen.toNat s.hash = .ok sh) : exec .decode s =
      .next ((s.storeDecode sh (decodeImage Exact.num s.hash sh)).complete .ok) := by
  rw [exec_decode, decodeWith, h]

/-- Settles O23: an accepted hash is decoded by its shape, with the rounded short side of R121. -/
theorem decodeCompletes : Obligations.DecodeCompletes := by
  intro s alpha landscape g limit lx ly cntL acTotal short hm halpha hlandscape hg hlimit hlx hly hcnt
    htotal hg1 hgl hneed hshort
  replace hlimit : limit = limitOf alpha := hlimit
  have hshape := hashShape_hash hm halpha hlandscape hg hlimit
  rw [← hlx, ← hly] at hshape
  have hlen : 5 ≤ s.hashLen.toNat := by
    have hhdr : 5 ≤ (if alpha then 6 else 5) := by split <;> omega
    omega
  subst hcnt htotal
  have hparse := parseShape_of_valid hlen (by rwa [hshape]) (by rwa [hshape, ← hlimit])
  rw [hshape] at hparse
  refine ⟨_, exec_decode_of_ok (parseFull_of_need hparse hneed), rfl, ?_, rfl, rfl⟩
  have hside : shortSide alpha g = short := by
    rw [hlimit, ← shortSide_eq_roundReal] at hshort
    exact_mod_cast hshort.symm
  subst hside
  cases landscape <;> rfl

/-! ## Frame -/

/-- Settles O26: a refused hash writes registers alone, an accepted one also the pixels of its image,
which `OUT_DIM` counts. -/
theorem decodeFrame : Obligations.DecodeFrame := by
  intro s t ht
  cases hp : parseFull s.hashLen.toNat s.hash with
  | error c =>
    rw [exec_decode_of_error hp] at ht
    cases ht
    exact ⟨fun _ _ => rfl, fun _ _ => rfl, rfl, rfl, rfl, rfl, rfl, rfl, rfl, rfl, rfl, rfl⟩
  | ok sh =>
    rw [exec_decode_of_ok hp] at ht
    cases ht
    obtain ⟨hw, hh⟩ := outDim_toNat_storeDecode (s := s) (parseFull_ok hp).1
      (decodeImage Exact.num s.hash sh)
    refine ⟨fun k hk => ?_, fun hne => absurd rfl hne, rfl, rfl, rfl, rfl, rfl, rfl, rfl, rfl, rfl,
      rfl⟩
    rw [State.complete_outDim, hw, hh, ← decodeImage_length Exact.num s.hash sh] at hk
    rw [State.complete_readByte, State.readByte_storeDecode_of_not_mem s sh hk]

/-! ## After ENCODE -/

/-- ENCODE's hash is what `HASH` holds after it. -/
theorem State.hash_storeEncode {s : State} (hm : Memory.wf s.mem = true) {r : EncodeResult}
    (hl : r.hash.length = 32) : (s.storeEncode r).hash = r.hash := by
  have hread := State.readBytes_writeBytes hm (a := hashBase) (bs := r.hash) fun x h1 h2 =>
    (Memory.isBuffer_iff x).mpr (.inl ⟨h1, h2.trans_eq (congrArg _ hl)⟩)
  rw [hl] at hread
  exact hread

/-- The shape of a hash by its header words (R61, R62, R111). -/
theorem hashShape_eq_of_headerWords {b : List Byte} {alpha landscape : Bool} {g : ℕ}
    (halpha : h24Of b / 2 ^ 23 = alpha.toNat) (hlandscape : h16Of b / 2 ^ 15 = landscape.toNat)
    (hg : h16Of b % 8 = g) :
    hashShape b = ⟨alpha, landscape, g, if landscape then limitOf alpha else g,
      if landscape then g else limitOf alpha⟩ := by
  obtain ⟨ha, hg', hl⟩ := hashShape_eq_headerWords b
  obtain rfl := bool_toNat_injective (ha.trans halpha)
  obtain rfl := bool_toNat_injective (hl.trans hlandscape)
  obtain rfl := hg'.trans hg
  obtain ⟨hx, hy⟩ := hashShape_geometry b _ rfl
  rw [← hx, ← hy]

/-- The parser reads back from a hash of ENCODE the flags and the geometry it was packed with (R104,
R111). -/
theorem hashShape_encodeImage {S : Type} (N : Num S) {w h lx ly : ℕ} {hasAlpha : Bool} (hw : 1 ≤ w)
    {ps : List Pixel} (halpha : hasAlpha = imageHasAlpha w h ps)
    (hgeom : (lx, ly) = geometry w h hasAlpha) {geo3 : ℕ}
    (hgeo3 : geo3 = if imageIsLandscape w h then ly else lx) :
    hashShape (encodeImage N w h ps).hash = ⟨hasAlpha, imageIsLandscape w h, geo3, lx, ly⟩ := by
  obtain ⟨hlx, hly, hlonger⟩ := geometry_bounds (h := h) hw hasAlpha
  rw [← hgeom] at hlx hly hlonger
  obtain ⟨f, hf⟩ : ∃ f, f = headerFields N (encodeChannels N w h ps lx ly) hasAlpha
    (imageIsLandscape w h) lx ly := ⟨_, rfl⟩
  obtain ⟨h24, h16, -⟩ := encodeImage_headerWords hw halpha hgeom hf
  obtain ⟨hlDc, hpDc, hqDc, hlScale, hfit, hpScale, hqScale, -, -⟩ : f.Fits :=
    hf ▸ headerFields_fits N _ hasAlpha _ hlx.2 hly.2
  rw [hashShape_eq_of_headerWords (alpha := f.hasAlpha) (landscape := f.isLandscape) (g := f.geo3)
    (by omega) (by omega) (by omega), hf]
  simp only [headerFields, ← hgeo3, ← hlonger]
  cases hlandscape : imageIsLandscape w h <;> simp [hgeo3, hlandscape]

/-- The side that `GEO3` holds is from 1 to the limit (R83, R104). -/
theorem geometry_shortSide_bounds {w h : ℕ} (hw : 1 ≤ w) (hasAlpha : Bool) :
    1 ≤ (if imageIsLandscape w h then (geometry w h hasAlpha).2 else (geometry w h hasAlpha).1) ∧
      (if imageIsLandscape w h then (geometry w h hasAlpha).2 else (geometry w h hasAlpha).1) ≤
        limitOf hasAlpha := by
  have hl : 1 ≤ limitOf hasAlpha := by have := limitOf_cases hasAlpha; omega
  have hm : 1 ≤ max w h := le_max_of_le_left hw
  split
  · exact ⟨geometrySide_pos _ _ _, geometrySide_le hl (le_max_right w h) hm⟩
  · exact ⟨geometrySide_pos _ _ _, geometrySide_le hl (le_max_left w h) hm⟩

/-- At the length ENCODE stores, its hash passes DECODE's checks with the geometry and the counts that
ENCODE stores (R105, R113). -/
theorem parseFull_encodeImage {S : Type} (N : Num S) {w : ℕ} (h : ℕ) (hw : 1 ≤ w) (ps : List Pixel)
    {n : ℕ} (hn : n = (encodeImage N w h ps).hashLen) :
    ∃ sh, parseFull n (encodeImage N w h ps).hash = .ok sh ∧
      geomOf sh.lx sh.ly sh.hasAlpha sh.isLandscape = (encodeImage N w h ps).geom ∧
      countsOf (acTotalOf sh.hasAlpha (termCount (max minL sh.lx) (max minL sh.ly)))
        (termCount (max minL sh.lx) (max minL sh.ly)) = (encodeImage N w h ps).counts := by
  obtain ⟨⟨lx, ly⟩, hgeom⟩ : ∃ g, g = geometry w h (imageHasAlpha w h ps) := ⟨_, rfl⟩
  have hshape := hashShape_encodeImage N hw rfl hgeom rfl
  have hgeo3 := geometry_shortSide_bounds (h := h) hw (imageHasAlpha w h ps)
  rw [← hgeom] at hgeo3
  have hneed : hashLenFor (imageHasAlpha w h ps) lx ly ≤ n := by
    rw [hn, encodeImage, ← hgeom]
  have hlen : 5 ≤ hashLenFor (imageHasAlpha w h ps) lx ly := by
    unfold hashLenFor hdrLen
    split <;> omega
  have hparse := parseShape_of_valid (hlen.trans hneed) (by rw [hshape]; exact hgeo3.1)
    (by rw [hshape]; exact hgeo3.2)
  rw [hshape] at hparse
  refine ⟨_, parseFull_of_need hparse hneed, ?_, ?_⟩ <;> rw [encodeImage, ← hgeom]

/-- Settles O30: DECODE accepts the stored hash at the stored length, with the geometry ENCODE packed. -/
theorem encodeThenDecodeSucceeds : Obligations.EncodeThenDecodeSucceeds := by
  intro s t hm ht hok
  rw [exec_encode] at ht
  cases ht
  obtain ⟨⟨hw, -⟩, ht⟩ := encodeWith_of_ok rfl rfl hok
  rw [ht]
  generalize s.image (s.width.toNat * s.height.toNat) = ps
  obtain ⟨sh, hp, hgeom, hcounts⟩ := parseFull_encodeImage Exact.num s.height.toNat hw ps rfl
  have hhash := State.hash_storeEncode hm
    (encodeImage_hash_length Exact.num s.width.toNat s.height.toNat ps)
  have hlen := hashLen_toNat_storeEncode Exact.num s s.height.toNat hw ps
  rw [← hhash, ← hlen] at hp
  obtain ⟨-, -, hg1, hgl⟩ := parseShape_ok (parseFull_ok hp).1
  exact ⟨_, exec_decode_of_ok (s := (s.storeEncode _).complete .ok) hp, rfl, hgeom, hcounts,
    (outDimConsistent_of_geo3 hg1 hgl).longer_eq⟩

end Sys2Proof.Machine
end

section
/-! The pixels of a decoded image over the real numbers (44_reconstruction.md R123 to R127): where each
one lies, the inverse DCT of each channel, and the formulas of the hash bytes. -/

namespace Sys2Proof.Machine

/-! ## Where a pixel lies -/

/-- Element `x` of row `y`, when rows of `w` elements come one after the other (R128). -/
theorem getElem?_flatMap_rows {α : Type} {row : ℕ → List α} {w : ℕ} (hw : ∀ y, (row y).length = w)
    {h x y : ℕ} (hx : x < w) (hy : y < h) :
    ((List.range h).flatMap row)[x + y * w]? = (row y)[x]? := by
  induction h with
  | zero => omega
  | succ h ih =>
    have hlen : ((List.range h).flatMap row).length = h * w := by simp [List.length_flatMap, hw]
    rw [List.range_succ, List.flatMap_append, List.flatMap_singleton]
    rcases Nat.lt_succ_iff_lt_or_eq.mp hy with hlt | rfl
    · have hin : x + y * w < h * w := by nlinarith
      rw [List.getElem?_append_left (by rwa [hlen]), ih hlt]
    · rw [List.getElem?_append_right (by rw [hlen]; omega), hlen, Nat.add_sub_cancel]

/-- The pixel at column `x`, row `y` is evaluated from the tables of that column and row (R123, R128). -/
theorem decodeImage_getElem? {S : Type} (N : Num S) (b : List Byte) {sh : HashShape} {hd : Header S}
    (hhd : hd = dequantiseHeader N b sh.hasAlpha) {w h x y : ℕ} (hsize : (w, h) = outSize sh)
    (hx : x < w) (hy : y < h) :
    (decodeImage N b sh)[x + y * w]? = some (evalPixel N sh hd (readChannels N b sh hd)
      (cosTable N w (tableSize sh.hasAlpha (max minL sh.lx)) x)
      (cosTable N h (tableSize sh.hasAlpha (max minL sh.ly)) y)) := by
  unfold decodeImage reconstruct
  simp only [← hsize, ← hhd]
  rw [getElem?_flatMap_rows (fun y => by simp) hx hy]
  simp [hx]

/-! ## The inverse DCT -/

theorem evalCos_real (n x c : ℕ) :
    evalCos realNum n x c = Real.cos (Real.pi / n * (x + 1 / 2) * c) := by
  simp [evalCos, halfStep, lit, realNum]

theorem entry_cosTable {S : Type} (N : Num S) (n x : ℕ) {count c : ℕ} (hc : c < count) :
    entry N (cosTable N n count x) c = evalCos N n x c := by
  simp [entry, cosTable, List.getD_eq_getElem?_getD, hc]

/-- One term of R123, in the model's tables. -/
theorem addTerm_real (fx fy : List ℝ) (v : ℝ) (t : ℝ × (ℕ × ℕ)) :
    addTerm realNum fx fy v t =
      v + t.1 * entry realNum fx t.2.1 * entry realNum fy t.2.2 * 2 := by
  simp [addTerm, realNum]

theorem map_getD_terms (nx ny : ℕ) :
    (List.range (termCount nx ny)).map (fun j => (terms nx ny).getD j (0, 0)) = terms nx ny :=
  List.ext_getElem (by simp [termCount]) fun j _ hj => by simp [List.getD_eq_getElem?_getD, hj]

/-- The running value of R123 over the terms in scan order is the sum over their numbers. -/
theorem evalChannel_real {ac : List ℝ} {nx ny : ℕ} (hac : ac.length = termCount nx ny)
    (fx fy : List ℝ) (dc : ℝ) :
    evalChannel realNum fx fy dc ac nx ny = dc + ∑ j ∈ Finset.range (termCount nx ny),
      ac.getD j 0 * entry realNum fx ((terms nx ny).getD j (0, 0)).1
        * entry realNum fy ((terms nx ny).getD j (0, 0)).2 * 2 := by
  have hsum := foldl_zip_table (fun u : ℝ × (ℕ × ℕ) =>
    u.1 * entry realNum fx u.2.1 * entry realNum fy u.2.2 * 2) 0 ac
    (fun j => (terms nx ny).getD j (0, 0)) dc
  rw [hac, map_getD_terms] at hsum
  rw [evalChannel, List.foldl_ext _ _ _ fun v t _ => addTerm_real fx fy v t]
  exact hsum

/-- The nibbles of a channel, dequantised and put through the inverse DCT (R100, R123), from tables that
reach the channel's bounds. -/
theorem evalChannel_channelDecode {b : List Byte} {start idx count nx ny : ℕ}
    (hcount : termCount nx ny = count) {nib : ℕ → ℕ}
    (hnib : ∀ j < count, nibbleAt b start (idx + j) = nib (idx + j)) (dc scale : ℝ)
    (w h x y : ℕ) {n m : ℕ} (hn : nx ≤ n) (hm : ny ≤ m) :
    evalChannel realNum (cosTable realNum w n x) (cosTable realNum h m y) dc
        (channelDecode realNum b start idx count scale).1 nx ny =
      dctInverse w h nx ny dc (fun j => (nib (idx + j) / (15 / 2) - 1) * scale) x y := by
  subst hcount
  rw [evalChannel_real (by simp [channelDecode]), dctInverse]
  refine congrArg (dc + ·) (Finset.sum_congr rfl fun j hj => ?_)
  rw [Finset.mem_range] at hj
  have hterm : (terms nx ny).getD j (0, 0) ∈ terms nx ny := by
    rw [List.getD_eq_getElem _ _ hj]
    exact List.getElem_mem hj
  obtain ⟨hcx, hcy⟩ := lt_of_mem_terms hterm
  have hac : (channelDecode realNum b start idx (termCount nx ny) scale).1.getD j 0 =
      (nib (idx + j) / (15 / 2) - 1) * scale := by
    rw [← hnib j hj]
    simp [channelDecode, List.getD_eq_getElem?_getD, hj, dequantiseAc, lit, realNum]
  rw [hac, entry_cosTable realNum w x (hcx.trans_le hn), entry_cosTable realNum h y (hcy.trans_le hm),
    evalCos_real, evalCos_real]

/-! ## The formulas of the hash bytes -/

theorem boosted_real (scale : ℝ) : boosted realNum scale = scale * (5 / 4) := by
  simp [boosted, lit, realNum]

/-- The dequantised header by the bits of the header words (R61 to R63, R112). -/
theorem dequantiseHeader_real (b : List Byte) (alpha : Bool) : dequantiseHeader realNum b alpha =
    { lDc := (h24Of b % 64 : ℕ) / 63
      pDc := (h24Of b / 2 ^ 6 % 64 : ℕ) / (63 / 2) - 1
      qDc := (h24Of b / 2 ^ 12 % 64 : ℕ) / (63 / 2) - 1
      aDc := if alpha then ((hashByte b 5).toNat % 16 : ℕ) / 15 else 1
      lScale := (h24Of b / 2 ^ 18 % 32 : ℕ) / 31
      pScale := (h16Of b / 2 ^ 3 % 64 : ℕ) / 63
      qScale := (h16Of b / 2 ^ 9 % 64 : ℕ) / 63
      aScale := if alpha then ((hashByte b 5).toNat / 16 : ℕ) / 15 else 0 } := by
  have h5 : (hashByte b 5).toNat / 16 % 16 = (hashByte b 5).toNat / 16 := by
    have := (hashByte b 5).isLt
    omega
  simp only [dequantiseHeader, field_eq, dequantiseField_real, dequantiseChromaDc_real, pow_zero,
    Nat.div_one, Nat.reducePow, h5]
  rfl

/-- The four channels of an accepted hash at one pixel, through the inverse matrix (R123 to R127). -/
theorem evalPixel_real {b : List Byte} {sh : HashShape} {nib : ℕ → ℕ} {cntL : ℕ}
    (hcnt : termCount (max 3 sh.lx) (max 3 sh.ly) = cntL)
    (hnib : ∀ j < acTotalOf sh.hasAlpha cntL, nibbleAt b (hdrLen sh.hasAlpha) j = nib j)
    (hd : Header ℝ) (w h x y : ℕ) :
    evalPixel realNum sh hd (readChannels realNum b sh hd)
        (cosTable realNum w (tableSize sh.hasAlpha (max minL sh.lx)) x)
        (cosTable realNum h (tableSize sh.hasAlpha (max minL sh.ly)) y) =
      pixelOf realNum
        (dctInverse w h (max 3 sh.lx) (max 3 sh.ly) hd.lDc
          (fun j => (nib j / (15 / 2) - 1) * hd.lScale) x y)
        (dctInverse w h 3 3 hd.pDc
          (fun j => (nib (cntL + j) / (15 / 2) - 1) * (hd.pScale * (5 / 4))) x y)
        (dctInverse w h 3 3 hd.qDc
          (fun j => (nib (cntL + 5 + j) / (15 / 2) - 1) * (hd.qScale * (5 / 4))) x y)
        (if sh.hasAlpha then dctInverse w h 5 5 hd.aDc
          (fun j => (nib (cntL + 10 + j) / (15 / 2) - 1) * hd.aScale) x y else 1) := by
  have htotal : acTotalOf sh.hasAlpha cntL = cntL + 5 + 5 + (if sh.hasAlpha then 14 else 0) := rfl
  have h3 : termCount 3 3 = 5 := by decide
  have h5 : termCount 5 5 = 14 := by decide
  have hbound : ∀ side, max minL side ≤ tableSize sh.hasAlpha (max minL side) := fun _ => le_max_left _ _
  have hfloor : ∀ side, 3 ≤ tableSize sh.hasAlpha (max minL side) := fun side =>
    (le_max_left minL side).trans (hbound side)
  have hl := evalChannel_channelDecode (idx := 0) hcnt (fun j hj => hnib _ (by omega)) hd.lDc hd.lScale
    w h x y (hbound sh.lx) (hbound sh.ly)
  have hp := evalChannel_channelDecode (idx := cntL) h3 (fun j hj => hnib _ (by omega)) hd.pDc
    (boosted realNum hd.pScale) w h x y (hfloor sh.lx) (hfloor sh.ly)
  have hq := evalChannel_channelDecode (idx := cntL + 5) h3 (fun j hj => hnib _ (by omega)) hd.qDc
    (boosted realNum hd.qScale) w h x y (hfloor sh.lx) (hfloor sh.ly)
  rw [boosted_real] at hp hq
  simp only [Nat.zero_add] at hl
  rw [readChannels_eq realNum b sh hd hcnt, evalPixel, boosted_real, boosted_real]
  refine congr (congr (congr (congrArg _ hl) hp) hq) ?_
  cases halpha : sh.hasAlpha
  case false => rfl
  case true =>
    rw [halpha] at hnib htotal
    rw [if_pos rfl] at htotal
    exact evalChannel_channelDecode (idx := cntL + 10) h5 (fun j hj => hnib _ (by omega)) hd.aDc
      hd.aScale w h x y (le_max_right _ _) (le_max_right _ _)

/-- A successful DECODE leaves in `OUT` the decoded image, element by element, and in `OUT_DIM` its size
(R11, R140). -/
theorem outPixel_of_exec_decode {s t : State} (ht : exec .decode s = .next t)
    (hok : t.status.err = .ok) :
    ∃ sh, parseFull s.hashLen.toNat s.hash = .ok sh ∧
      (t.outDim.w.toNat, t.outDim.h.toNat) = outSize sh ∧
      ∀ i p, (decodeImage realNum s.hash sh)[i]? = some p → t.outPixel i = p := by
  rw [(decodeIsReference s).1] at ht
  cases ht
  obtain ⟨sh, hp, hdec⟩ := decodeWith_of_ok realNum hok
  obtain ⟨hw, hh⟩ := outDim_toNat_storeDecode (parseFull_ok hp).1 (s := s)
    (decodeImage realNum s.hash sh)
  rw [hdec]
  refine ⟨sh, hp, Prod.ext hw hh, fun i p hget => ?_⟩
  obtain ⟨hi, rfl⟩ := List.getElem?_eq_some_iff.mp hget
  rw [State.complete_outPixel, State.outPixel_storeDecode s sh hi]

theorem eq_toNat_of_iff_odd {v : Bool} {n : ℕ} (hn : n < 2) (h : v = true ↔ n % 2 = 1) :
    n = v.toNat := by
  rw [Nat.mod_eq_of_lt hn] at h
  cases v
  case false =>
    have hne : n ≠ 1 := fun e => Bool.false_ne_true (h.mpr e)
    rw [Bool.toNat_false]
    omega
  case true => exact h.mp rfl

/-- Settles O25: the pixel is evaluated from the tables of its column and row, on the header and the
nibbles that the bytes of `HASH` hold. -/
theorem decodePixelIsRule : Obligations.DecodePixelIsRule := by
  intro s t b alpha landscape h24 h16 g limit lx ly cntL start ow oh nib lDc pDc qDc lSc pSc qSc aDc aSc
    hm ht hok hb hh24 hh16 halpha hlandscape hg hlimit hlx hly hcnt hstart how hoh hnib
    hlDc hpDc hqDc hlSc hpSc hqSc haDc haSc x hx y hy l p q a r g' bl hl hp hq ha hbl hr hg'
  have hbyte : ∀ k < 32, (hashByte s.hash k).toNat = b k := fun k hk => by
    rw [hb, State.hashByte_hash hm hk]
  have hlt : ∀ k, b k < 256 := fun k => by rw [hb]; exact (s.readByte _).isLt
  have hword24 : h24Of s.hash = h24 := by
    rw [h24Of_eq, hbyte 0 (by omega), hbyte 1 (by omega), hbyte 2 (by omega), hh24]
  have hword16 : h16Of s.hash = h16 := by
    rw [h16Of_eq, hbyte 3 (by omega), hbyte 4 (by omega), hh16]
  obtain ⟨sh, hparse, hsize, hpixel⟩ := outPixel_of_exec_decode ht hok
  rw [← how, ← hoh] at hsize
  have hshape : sh = ⟨alpha, landscape, g, lx, ly⟩ := by
    have hlow24 : h24 / 2 ^ 23 < 2 := by have := hlt 0; have := hlt 1; have := hlt 2; omega
    have hlow16 : h16 / 2 ^ 15 < 2 := by have := hlt 3; have := hlt 4; omega
    rw [(parseShape_ok (parseFull_ok hparse).1).1, hlx, hly, hlimit]
    exact hashShape_eq_of_headerWords (hword24 ▸ eq_toNat_of_iff_odd hlow24 halpha)
      (hword16 ▸ eq_toNat_of_iff_odd hlow16 hlandscape) (hword16 ▸ hg.symm)
  subst hshape
  have hneed : hdrLen alpha + ceilDiv (acTotalOf alpha cntL) 2 ≤ 32 :=
    (hashLenFor_of_termCount hcnt.symm).symm.trans_le (hashLenFor_bounds (parseFull_ok hparse).1).2
  rw [ceilDiv] at hneed
  have hnibble : ∀ j < acTotalOf alpha cntL, nibbleAt s.hash (hdrLen alpha) j = nib j := fun j hj => by
    rw [nibbleAt_eq, hbyte _ (by omega), hnib, hstart]
    rfl
  have heval := evalPixel_real (sh := ⟨alpha, landscape, g, lx, ly⟩) hcnt.symm hnibble
    (dequantiseHeader realNum s.hash alpha) ow oh x y
  refine (hpixel _ _ (decodeImage_getElem? realNum s.hash rfl hsize hx hy)).trans (heval.trans ?_)
  rw [dequantiseHeader_real, hword24, hword16, hbyte 5 (by omega), ← pixelOf_real a hbl hr hg', hl, hp,
    hq, ha, hlDc, hpDc, hqDc, hlSc, hpSc, hqSc, haDc, haSc]
  cases alpha <;> rfl

end Sys2Proof.Machine
end

section
/-! Codes, completion and reset (60_exceptions.md, 70_reset_and_hazards.md): the codes each command can
store, that no step is stuck, and what the reset input and the commands after it do. -/

namespace Sys2Proof.Machine

/-! ## The codes of the checks -/

theorem encodeCheck_some {w h : ℕ} {c : ErrCode} (hc : encodeCheck w h = some c) :
    c = .tooLarge ∨ c = .emptyImage := by
  unfold encodeCheck at hc
  split_ifs at hc
  · exact .inl (Option.some.inj hc).symm
  · exact .inr (Option.some.inj hc).symm

theorem encodeOutcome_code {S : Type} (N : Num S) (w h : ℕ) (ps : List Pixel) :
    (encodeOutcome N w h ps).2 = .ok ∨ (encodeOutcome N w h ps).2 = .tooLarge ∨
      (encodeOutcome N w h ps).2 = .emptyImage := by
  cases hc : encodeCheck w h with
  | some c => rw [encodeOutcome_of_refused N hc]; exact .inr (encodeCheck_some hc)
  | none => rw [encodeOutcome_of_accepted N hc]; exact .inl rfl

theorem averageCheck_some {n : ℕ} {b : List Byte} {c : ErrCode} (hc : averageCheck n b = some c) :
    c = .malformedLen := by
  rw [averageCheck_eq n b rfl] at hc
  obtain ⟨-, hcode⟩ := Option.ite_none_right_eq_some.mp hc
  exact (Option.some.inj hcode).symm

theorem parseShape_error {n : ℕ} {b : List Byte} {c : ErrCode} (hp : parseShape n b = .error c) :
    c = .malformedLen ∨ c = .malformedGeom :=
  parseFull_error (parseFull_of_parseShape_error hp)

/-! ## The codes of the commands -/

section
variable {s t : State}

theorem exec_encode_code (ht : exec .encode s = .next t) :
    t.status.err = .ok ∨ t.status.err = .tooLarge ∨ t.status.err = .emptyImage := by
  rw [exec_encode, encodeWith_eq_store Exact.num rfl] at ht
  cases ht
  exact encodeOutcome_code Exact.num _ _ _

theorem exec_decode_code (ht : exec .decode s = .next t) :
    t.status.err = .ok ∨ t.status.err = .malformedLen ∨ t.status.err = .malformedGeom := by
  cases hp : parseFull s.hashLen.toNat s.hash with
  | error c =>
    rw [exec_decode_of_error hp] at ht
    cases ht
    exact .inr (parseFull_error hp)
  | ok sh =>
    rw [exec_decode_of_ok hp] at ht
    cases ht
    exact .inl rfl

theorem exec_avgcol_code (ht : exec .avgcol s = .next t) :
    t.status.err = .ok ∨ t.status.err = .malformedLen := by
  rw [exec_avgcol] at ht
  cases ht
  cases hc : averageCheck s.hashLen.toNat s.hash with
  | some c => rw [avgcolWith_of_refused Exact.num hc]; exact .inr (averageCheck_some hc)
  | none => rw [avgcolWith_of_accepted Exact.num hc]; exact .inl rfl

theorem exec_aspect_code (ht : exec .aspect s = .next t) :
    t.status.err = .ok ∨ t.status.err = .malformedLen ∨ t.status.err = .malformedGeom := by
  cases hp : parseShape s.hashLen.toNat s.hash with
  | error c =>
    rw [exec_aspect_of_error hp] at ht
    cases ht
    exact .inr (parseShape_error hp)
  | ok sh =>
    rw [exec_aspect_of_ok hp] at ht
    cases ht
    exact .inl rfl

end

/-- Settles O8: the code is `ok` when a command's checks pass, else the code of the check that fails. -/
theorem errorCodesPerCommand : Obligations.ErrorCodesPerCommand := by
  refine fun s t => ⟨fun ht => ?_, exec_encode_code, exec_decode_code, exec_avgcol_code,
    exec_aspect_code⟩
  rw [nopCompletes] at ht
  cases ht
  rfl

/-! ## Every command ends -/

theorem step_goesOn (s : State) : s.GoesOn := by
  unfold State.GoesOn
  rw [step_eq_stepWith]
  exact stepWith_goesOn Exact.num s

/-- Whatever the latch holds, the engine's move is the end of a command (R143, R144). -/
theorem engineMove_completes (s : State) :
    ∃ t, engineMove s = .next t ∧ t.status.busy = false ∧ t.status.done = true := by
  rcases engineMove_cases s with ⟨i, -, hi⟩ | ⟨-, hi⟩
  · rw [hi]
    exact exec_completes i s
  · exact ⟨_, hi, rfl, rfl⟩

/-- Settles O6: every kind of step answers a next state, and a busy engine's is its move. -/
theorem everyCommandEnds : Obligations.EveryCommandEnds := by
  refine ⟨step_goesOn, fun s hb ht => ?_⟩
  rw [step_of_busy ht hb]
  exact engineMove_completes s

/-! ## The reset input -/

theorem step_of_reset_turn {s : State} {drop : Bool} {later : List Turn}
    (ht : s.turns = .reset drop :: later) :
    step s = .next (State.assertReset { s with turns := later } drop) := by
  simp [step, nextMove, nextMoveBy, ht]

/-- `HASH` reads zero after any reset, whatever its number (R38). -/
theorem State.assertReset_readByte_hash (s : State) (drop : Bool) {k : ℕ} (hk : k < 32) :
    (s.assertReset drop).readByte (0x40 + k) = 0 := by
  show Memory.unlistedByte (s.epoch + 1) (0x40 + k) = 0
  unfold Memory.unlistedByte Memory.unlisted
  rw [if_pos ((Memory.inHash_iff _).mpr (by omega))]

theorem State.assertReset_port_of_nil {s : State} (drop : Bool) (hp : s.port = []) :
    (s.assertReset drop).port = [] := by
  simp [State.assertReset, hp]

theorem State.assertReset_port_of_cons {s : State} (drop : Bool) {tr : Transaction}
    {rest : List Transaction} (hp : s.port = tr :: rest) :
    (s.assertReset drop).port = if drop = true ∧ s.held tr = true then rest else tr :: rest := by
  simp [State.assertReset, hp, and_comm]

/-- The busy stall holds every transaction but a `STATUS` read (R48). -/
theorem State.held_iff (s : State) (tr : Transaction) :
    s.held tr = true ↔ s.status.busy = true ∧ tr ≠ .read 0x08 4 := by
  rw [← Bool.not_eq_false, State.held_eq_false_iff, Classical.not_imp]

/-- Settles O57: the step is the assertion of reset, whose registers are those of the reset state and
whose `port` is as the busy stall of the state before it says. -/
theorem resetInputAbandons : Obligations.ResetInputAbandons := fun s drop later ht =>
  ⟨State.assertReset { s with turns := later } drop, step_of_reset_turn ht, rfl, rfl, rfl, rfl, rfl, rfl,
    rfl, rfl, rfl, fun _ hk => State.assertReset_readByte_hash _ drop hk, rfl, rfl,
    State.assertReset_port_of_nil drop, fun tr _ hp =>
      ⟨s.held_iff tr, State.assertReset_port_of_cons drop hp⟩⟩

/-! ## Commands on the reset state -/

/-- Settles O58: the reset state is idle with no transaction, and its sizes and hash length are zero. -/
theorem commandsOnReset : Obligations.CommandsOnReset := by
  refine ⟨rfl, (idleEngineDoesNothing State.reset rfl).2 rfl rfl, fun i => ?_⟩
  have hshape : ∀ b, parseShape (State.reset.start (encode i)).hashLen.toNat b =
      .error .malformedLen := fun b => parseShape_of_short (by decide : 0 < 5)
  cases i with
  | nop => exact ⟨_, nopCompletes _, rfl⟩
  | encode =>
    obtain ⟨t, ht, hstatus, -⟩ := encodeErrors (State.reset.start (encode .encode)) (by decide)
    exact ⟨t, ht, hstatus⟩
  | decode => exact ⟨_, exec_decode_of_error (parseFull_of_parseShape_error (hshape _)), rfl⟩
  | avgcol => exact ⟨_, (exec_avgcol _).trans (congrArg _ (avgcolWith_of_refused _ rfl)), rfl⟩
  | aspect => exact ⟨_, exec_aspect_of_error (hshape _), rfl⟩

end Sys2Proof.Machine
end
